-- ==== Sys2Proof/Word.lean ====
section
/-! DEFINITION. The word types of the block: register bytes, command words, pin numbers, addresses, instance indexes. -/

namespace Sys2Proof

/-- The content of one port register, `REGW = 8` bits (spec R6, R26). -/
abbrev Byte := BitVec 8

/-- One command word, and `RESULT`, `steps` and a period: 32 bits (R90, R22, R103, R104). -/
abbrev Word := BitVec 32

/-- A pin number, 0..255 (R7, R102). -/
abbrev PinNo := BitVec 8

/-- A register address: an opaque value compared only for equality (R31). `ADDRW` is open (R6); an address is a number
below 2^`ADDRW`, because `Params.resolve` gives no other (log 10). -/
abbrev Addr := Nat

/-- An instance index, the 4-bit `inst` field (R91, R105). -/
abbrev Index := Fin 16

end Sys2Proof
end

