-- ==== Sys2Proof/Config.lean ====
section
/-! DEFINITION. What an implementation fixes (spec 00_scope.md R6, R7) and the free values the spec leaves open. -/

namespace Sys2Proof

/-- A pin capability, what `resolve` gives for a pin number (R30): three register addresses and a bit position. -/
structure PinCap where
  value : Addr
  state : Addr
  dir   : Addr
  bit   : Fin 8
  deriving DecidableEq, Repr, Inhabited

/-- Which register `==` and `!=` classify (R6 `EQ_SOURCE`). -/
inductive EqSource
  | value
  | state
  deriving DecidableEq, Repr, Inhabited

/-- The implementation parameters of R6. They are fixed for a run and are an argument of the model: State holds
them and no step writes them (log 1). -/
structure Params where
  /-- `resolve` as a table: entry p is the capability of pin p, for every p in 0..255 (R7). -/
  platform : Vector PinCap 256
  /-- `ADDRW`, open, default 16: `Params.resolve` gives addresses of this width (R31). -/
  addrWidth : Nat := 16
  /-- `PERIOD_UNIT`, open: the length in seconds of one count of a period. No rule reads it (R165, R271; log 22). -/
  periodUnit : Rat
  /-- `NGROUPS - 1`, the greatest PinGroup index that exists; `NGROUPS` is open in 1..16. -/
  lastGroup : Index
  /-- `NSPG - 1`, the greatest generator index that exists; `NSPG` is open in 1..16. -/
  lastSpg : Index
  /-- `EQ_SOURCE`, open, default VALUE. -/
  eqSource : EqSource := .value
  /-- `IE_RESET`, open: `IE` after reset. -/
  ieReset : Bool
  /-- `HAS_GET_REMAINING_STEPS`. -/
  hasGetRemainingSteps : Bool
  /-- `STOP_READS = 2` when true, 1 when false (R178). -/
  stopReadsTwice : Bool
  /-- `STOP_CLEARS_PAUSED` (R178). -/
  stopClearsPaused : Bool
  deriving DecidableEq, Repr, Inhabited

/-- `NGROUPS`. -/
def Params.nGroups (p : Params) : Nat := p.lastGroup.val + 1

/-- `NSPG`. -/
def Params.nSpg (p : Params) : Nat := p.lastSpg.val + 1

namespace Config

/-- The platform's `resolve` after `State.reset`: open (R7). -/
opaque platform : Vector PinCap 256

/-- `ADDRW` after `State.reset`: open (R6, D2). -/
opaque addrWidth : Nat

/-- `PERIOD_UNIT` after `State.reset`: open (R6, D17). -/
opaque periodUnit : Rat

/-- `NGROUPS - 1` after `State.reset`: open (R6, D42). -/
opaque lastGroup : Index

/-- `NSPG - 1` after `State.reset`: open (R6, D42). -/
opaque lastSpg : Index

/-- `EQ_SOURCE` after `State.reset`: open (R6, D13). -/
opaque eqSource : EqSource

/-- `IE_RESET`: open (R6, D28). -/
opaque ieReset : Bool

/-- `T.running` after reset: 'unspecified: either value' (R51, U12; log 8). -/
opaque launchRunning : Bool

/-- The environment's answer to the n-th free value taken, a read of the VALUE register at an address: any byte
(R63, U11; log 5). -/
opaque valueDraw : Addr → Nat → Byte

/-- What `T.initialize()` leaves in `T.running`, as the n-th free value taken: any value (R164, U13; log 6). -/
opaque initRunning : Nat → Bool

/-- What `T.initialize()` leaves in `T.period`, as the n-th free value taken: any value of the field (R164, U13; log 6). -/
opaque initPeriod : Nat → Option Word

/-- The parameters of the machine `State.reset` describes: the open ones are free values, the other three have the
value R6 gives them. -/
def params : Params :=
  { platform := platform, addrWidth := addrWidth, periodUnit := periodUnit, lastGroup := lastGroup, lastSpg := lastSpg,
    eqSource := eqSource, ieReset := ieReset, hasGetRemainingSteps := true, stopReadsTwice := true,
    stopClearsPaused := true }

end Config

end Sys2Proof
end

