-- ==== Sys2Proof/Syntax.lean ====
section
/-! DEFINITION. The commands of the block, one constructor per row of spec/opcode_table.json (R109, R110, R111). -/

namespace Sys2Proof

/-- A logical pin level (R14): HIGH or LOW. -/
inductive Level
  | low
  | high
  deriving DecidableEq, Repr

/-- A logical pin mode (R14): OUTPUT or INPUT. -/
inductive Mode
  | input
  | output
  deriving DecidableEq, Repr

/-- The commands. The first argument of a PinGroup command is the group index g, of a StepPulseGenerator command the
generator index s (R91). -/
inductive Instr
  /-- `PG_CONSTRUCT g, [first, rest...]` (R122): at least one pin by construction (R112). -/
  | pgConstruct (g : Index) (first : PinNo) (rest : List PinNo)
  /-- `PG_ISVALID g` (R123). -/
  | pgIsValid (g : Index)
  /-- `PG_GETSTATE g` (R124). -/
  | pgGetState (g : Index)
  /-- `PG_GETVALUE g` (R125). -/
  | pgGetValue (g : Index)
  /-- `PG_GETMODE g` (R126). -/
  | pgGetMode (g : Index)
  /-- `PG_EQ g, v` (R128). -/
  | pgEq (g : Index) (v : Level)
  /-- `PG_NE g, v` (R129). -/
  | pgNe (g : Index) (v : Level)
  /-- `PG_SET g, m, v` (R130). -/
  | pgSet (g : Index) (m : Mode) (v : Level)
  /-- `PG_SETMODE g, v` (R131). -/
  | pgSetMode (g : Index) (m : Mode)
  /-- `PG_SETSTATE g, v` (R132). -/
  | pgSetState (g : Index) (v : Level)
  /-- `PG_SETHIGH g` (R133). -/
  | pgSetHigh (g : Index)
  /-- `PG_SETLOW g` (R134). -/
  | pgSetLow (g : Index)
  /-- `PG_TOGGLESTATE g` (R135). -/
  | pgToggleState (g : Index)
  /-- `PG_SETOUTPUT g` (R136). -/
  | pgSetOutput (g : Index)
  /-- `PG_SETINPUT g` (R137). -/
  | pgSetInput (g : Index)
  /-- `PG_TOGGLEMODE g` (R138). -/
  | pgToggleMode (g : Index)
  /-- `SPG_CONSTRUCT s, dir=dirPin, step=stepPin` (R173). -/
  | spgConstruct (i : Index) (dirPin stepPin : PinNo)
  /-- `SPG_INIT s` (R174). -/
  | spgInit (i : Index)
  /-- `SPG_STEP s, steps, v` (R175): `steps` a 32-bit two's complement integer. -/
  | spgStep (i : Index) (steps : Word) (v : Level)
  /-- `SPG_STEPP s, steps, v, p` (R176): `period` a 32-bit unsigned integer. -/
  | spgStepP (i : Index) (steps : Word) (v : Level) (period : Word)
  /-- `SPG_SETPERIOD s, p` (R177). -/
  | spgSetPeriod (i : Index) (period : Word)
  /-- `SPG_STOP s` (R178). -/
  | spgStop (i : Index)
  /-- `SPG_PAUSE s` (R179). -/
  | spgPause (i : Index)
  /-- `SPG_RESUME s` (R180). -/
  | spgResume (i : Index)
  /-- `SPG_ISSTEPPING s` (R182). -/
  | spgIsStepping (i : Index)
  /-- `SPG_ISSTOPPED s` (R183). -/
  | spgIsStopped (i : Index)
  /-- `SPG_ISPAUSED s` (R184). -/
  | spgIsPaused (i : Index)
  /-- `SPG_GETREMAININGSTEPS s` (R185). -/
  | spgGetRemainingSteps (i : Index)
  /-- `SYS_IRQ_DISABLE` (R200). -/
  | sysIrqDisable
  /-- `SYS_IRQ_ENABLE` (R201). -/
  | sysIrqEnable
  deriving DecidableEq, Repr

/-- The command's mnemonic, as spec/opcode_table.json spells it. -/
def Instr.mnemonic : Instr → String
  | .pgConstruct _ _ _ => "PG_CONSTRUCT"
  | .pgIsValid _ => "PG_ISVALID"
  | .pgGetState _ => "PG_GETSTATE"
  | .pgGetValue _ => "PG_GETVALUE"
  | .pgGetMode _ => "PG_GETMODE"
  | .pgEq _ _ => "PG_EQ"
  | .pgNe _ _ => "PG_NE"
  | .pgSet _ _ _ => "PG_SET"
  | .pgSetMode _ _ => "PG_SETMODE"
  | .pgSetState _ _ => "PG_SETSTATE"
  | .pgSetHigh _ => "PG_SETHIGH"
  | .pgSetLow _ => "PG_SETLOW"
  | .pgToggleState _ => "PG_TOGGLESTATE"
  | .pgSetOutput _ => "PG_SETOUTPUT"
  | .pgSetInput _ => "PG_SETINPUT"
  | .pgToggleMode _ => "PG_TOGGLEMODE"
  | .spgConstruct _ _ _ => "SPG_CONSTRUCT"
  | .spgInit _ => "SPG_INIT"
  | .spgStep _ _ _ => "SPG_STEP"
  | .spgStepP _ _ _ _ => "SPG_STEPP"
  | .spgSetPeriod _ _ => "SPG_SETPERIOD"
  | .spgStop _ => "SPG_STOP"
  | .spgPause _ => "SPG_PAUSE"
  | .spgResume _ => "SPG_RESUME"
  | .spgIsStepping _ => "SPG_ISSTEPPING"
  | .spgIsStopped _ => "SPG_ISSTOPPED"
  | .spgIsPaused _ => "SPG_ISPAUSED"
  | .spgGetRemainingSteps _ => "SPG_GETREMAININGSTEPS"
  | .sysIrqDisable => "SYS_IRQ_DISABLE"
  | .sysIrqEnable => "SYS_IRQ_ENABLE"

end Sys2Proof
end

