-- ==== Sys2Proof/WellFormed.lean ====
section
/-! DEFINITION. Which terms of `Instr` are commands: what the encoding can carry (spec 30_encoding.md). -/

namespace Sys2Proof

/-- The most pins a group can have, `MAXPINS` (R6). -/
def maxPins : Nat := 8

/-- A term that some command word stands for. Every operand's type has exactly the values its field admits, but for the
pin list of `PG_CONSTRUCT`: it holds 1 to 8 pins (R96, R112), and the first is a field of its own. Whether the instance
exists on a given machine is `Instr.present` (Decode.lean), which depends on the parameters. -/
def Instr.wellFormed : Instr → Bool
  | .pgConstruct _ _ rest => decide (rest.length + 1 ≤ maxPins)
  | .pgIsValid _ => true
  | .pgGetState _ => true
  | .pgGetValue _ => true
  | .pgGetMode _ => true
  | .pgEq _ _ => true
  | .pgNe _ _ => true
  | .pgSet _ _ _ => true
  | .pgSetMode _ _ => true
  | .pgSetState _ _ => true
  | .pgSetHigh _ => true
  | .pgSetLow _ => true
  | .pgToggleState _ => true
  | .pgSetOutput _ => true
  | .pgSetInput _ => true
  | .pgToggleMode _ => true
  | .spgConstruct _ _ _ => true
  | .spgInit _ => true
  | .spgStep _ _ _ => true
  | .spgStepP _ _ _ _ => true
  | .spgSetPeriod _ _ => true
  | .spgStop _ => true
  | .spgPause _ => true
  | .spgResume _ => true
  | .spgIsStepping _ => true
  | .spgIsStopped _ => true
  | .spgIsPaused _ => true
  | .spgGetRemainingSteps _ => true
  | .sysIrqDisable => true
  | .sysIrqEnable => true

end Sys2Proof
end

