-- ==== Sys2Proof/Decode.lean ====
section
/-! DEFINITION. The command words (spec 30_encoding.md): fields, lengths, the opcode table, the decoder and the encoder. -/

namespace Sys2Proof

/-! ## Fields of the command word (R91) -/

/-- `W0[31:24]`. -/
def opcodeOf (w : Word) : Byte := w.extractLsb' 24 8

/-- `W0[23:20]`. -/
def instOf (w : Word) : Index := (w.extractLsb' 20 4).toFin

/-- `W0[19:16]`, which must be 0. -/
def rsvdOf (w : Word) : BitVec 4 := w.extractLsb' 16 4

/-- `W0[15:0]`. -/
def immOf (w : Word) : BitVec 16 := w.extractLsb' 0 16

/-- A logical level from its bit (R101): 1 is HIGH, 0 is LOW. -/
def Level.ofBit (b : Bool) : Level := if b then .high else .low

/-- The bit of a logical level (R101). -/
def Level.bit : Level → Bool
  | .high => true
  | .low => false

/-- A logical mode from its bit (R101): 1 is OUTPUT, 0 is INPUT. -/
def Mode.ofBit (b : Bool) : Mode := if b then .output else .input

/-- The bit of a logical mode (R101). -/
def Mode.bit : Mode → Bool
  | .output => true
  | .input => false

/-- The four pin slots of an operand word, the lowest first (R96). -/
def pinSlots (w : Word) : List PinNo :=
  [w.extractLsb' 0 8, w.extractLsb' 8 8, w.extractLsb' 16 8, w.extractLsb' 24 8]

/-! ## Lengths -/

/-- How many words a command has, decided by its opcode alone, defined or not (R100). -/
def commandLength (w0 : Word) : Nat :=
  match (opcodeOf w0).toNat with
  | 0x00 => 3
  | 0x82 => 2
  | 0x83 => 3
  | 0x84 => 2
  | _ => 1

/-- What MAIN finds at the head of the host's words. -/
inductive Fetched
  /-- No word: the host has issued no further command. -/
  | idle
  /-- Fewer words than the opcode asks for. -/
  | truncated
  /-- A whole command: its command word, its operand words, and the words after it. -/
  | command (w0 : Word) (operands rest : List Word)
  deriving DecidableEq, Repr

/-- 'A decoder reads `W0`, then that many further words, then checks the fields' (R100). -/
def fetch : List Word → Fetched
  | [] => .idle
  | w0 :: ws =>
    if ws.length < commandLength w0 - 1 then .truncated
    else .command w0 (ws.take (commandLength w0 - 1)) (ws.drop (commandLength w0 - 1))

/-! ## The opcode table (R109, R110, R111) -/

/-- One row of the table: a word w selects the row when `w & mask = pattern`. -/
structure OpcodeRow where
  mnemonic : String
  words    : Nat
  pattern  : Word
  mask     : Word
  deriving DecidableEq, Repr

/-- R109. -/
def pinGroupRows : List OpcodeRow :=
  [⟨"PG_CONSTRUCT", 3, 0x00000000, 0xFF0FFFF0⟩, ⟨"PG_ISVALID", 1, 0x01000000, 0xFF0FFFFF⟩,
   ⟨"PG_GETSTATE", 1, 0x02000000, 0xFF0FFFFF⟩, ⟨"PG_GETVALUE", 1, 0x03000000, 0xFF0FFFFF⟩,
   ⟨"PG_GETMODE", 1, 0x04000000, 0xFF0FFFFF⟩, ⟨"PG_EQ", 1, 0x05000000, 0xFF0FFFFE⟩,
   ⟨"PG_NE", 1, 0x06000000, 0xFF0FFFFE⟩, ⟨"PG_SET", 1, 0x08000000, 0xFF0FFFFC⟩,
   ⟨"PG_SETMODE", 1, 0x09000000, 0xFF0FFFFE⟩, ⟨"PG_SETSTATE", 1, 0x0A000000, 0xFF0FFFFE⟩,
   ⟨"PG_SETHIGH", 1, 0x0B000000, 0xFF0FFFFF⟩, ⟨"PG_SETLOW", 1, 0x0C000000, 0xFF0FFFFF⟩,
   ⟨"PG_TOGGLESTATE", 1, 0x0D000000, 0xFF0FFFFF⟩, ⟨"PG_SETOUTPUT", 1, 0x0E000000, 0xFF0FFFFF⟩,
   ⟨"PG_SETINPUT", 1, 0x0F000000, 0xFF0FFFFF⟩, ⟨"PG_TOGGLEMODE", 1, 0x10000000, 0xFF0FFFFF⟩]

/-- R110. -/
def stepPulseRows : List OpcodeRow :=
  [⟨"SPG_CONSTRUCT", 1, 0x80000000, 0xFF0F0000⟩, ⟨"SPG_INIT", 1, 0x81000000, 0xFF0FFFFF⟩,
   ⟨"SPG_STEP", 2, 0x82000000, 0xFF0FFFFE⟩, ⟨"SPG_STEPP", 3, 0x83000000, 0xFF0FFFFE⟩,
   ⟨"SPG_SETPERIOD", 2, 0x84000000, 0xFF0FFFFF⟩, ⟨"SPG_STOP", 1, 0x85000000, 0xFF0FFFFF⟩,
   ⟨"SPG_PAUSE", 1, 0x86000000, 0xFF0FFFFF⟩, ⟨"SPG_RESUME", 1, 0x87000000, 0xFF0FFFFF⟩,
   ⟨"SPG_ISSTEPPING", 1, 0x88000000, 0xFF0FFFFF⟩, ⟨"SPG_ISSTOPPED", 1, 0x89000000, 0xFF0FFFFF⟩,
   ⟨"SPG_ISPAUSED", 1, 0x8A000000, 0xFF0FFFFF⟩, ⟨"SPG_GETREMAININGSTEPS", 1, 0x8B000000, 0xFF0FFFFF⟩]

/-- R111. -/
def systemRows : List OpcodeRow :=
  [⟨"SYS_IRQ_DISABLE", 1, 0xF0000000, 0xFFFFFFFF⟩, ⟨"SYS_IRQ_ENABLE", 1, 0xF1000000, 0xFFFFFFFF⟩]

/-- The whole table. -/
def opcodeRows : List OpcodeRow := pinGroupRows ++ (stepPulseRows ++ systemRows)

/-- Word w selects row r (R109). -/
def OpcodeRow.selects (r : OpcodeRow) (w : Word) : Bool := w &&& r.mask == r.pattern

/-! ## The decoder -/

/-- Why a command decodes to nothing (R112, R113). Each is answered with status ILLEGAL. -/
inductive DecodeError
  /-- The opcode is in none of the three tables. -/
  | unknownOpcode
  /-- `rsvd` is not 0. -/
  | reservedField
  /-- A bit of `imm` that the format fixes at 0 is set. -/
  | immediateNotZero
  /-- A system command with `inst` not 0 (R111). -/
  | instanceNotZero
  /-- `PG_CONSTRUCT` with n = 0 or n > 8. -/
  | pinCount
  /-- `PG_CONSTRUCT` with a pin slot at an index >= n that is not 0. -/
  | pinSlotNotZero
  /-- Fewer words than the opcode asks for: the host has not supplied a whole command (log 15). -/
  | truncated
  deriving DecidableEq, Repr

/-- Format Z: `imm = 0` (R92). -/
def formatZ (w0 : Word) (i : Instr) : Except DecodeError Instr :=
  if immOf w0 = 0 then .ok i else .error .immediateNotZero

/-- Format V: `imm[15:1] = 0`, `imm[0] = v` (R93). -/
def formatV (w0 : Word) (i : Bool → Instr) : Except DecodeError Instr :=
  if w0.extractLsb' 1 15 = 0 then .ok (i (w0.getLsbD 0)) else .error .immediateNotZero

/-- Format M: `imm[15:2] = 0`, `imm[1] = m`, `imm[0] = v` (R94). -/
def formatM (w0 : Word) (i : Bool → Bool → Instr) : Except DecodeError Instr :=
  if w0.extractLsb' 2 14 = 0 then .ok (i (w0.getLsbD 1) (w0.getLsbD 0)) else .error .immediateNotZero

/-- Format P: `imm[15:8] = stepPin`, `imm[7:0] = dirPin` (R95). -/
def formatP (w0 : Word) (i : PinNo → PinNo → Instr) : Except DecodeError Instr :=
  .ok (i (w0.extractLsb' 0 8) (w0.extractLsb' 8 8))

/-- Format G: `imm[15:4] = 0`, `imm[3:0] = n` in 1..8, the pins in `W1` and `W2`, the slots from n on 0 (R96, R112). -/
def formatG (w0 : Word) (operands : List Word) (i : PinNo → List PinNo → Instr) : Except DecodeError Instr :=
  let n := (w0.extractLsb' 0 4).toNat
  let slots := operands.flatMap pinSlots
  if w0.extractLsb' 4 12 ≠ 0 then .error .immediateNotZero
  else if maxPins < n then .error .pinCount
  else if (slots.drop n).all (· == 0) then
    match slots.take n with
    | [] => .error .pinCount
    | first :: rest => .ok (i first rest)
  else .error .pinSlotNotZero

/-- Format S: `W0` as format V, `W1 = steps` (R97). -/
def formatS (w0 : Word) (operands : List Word) (i : Bool → Word → Instr) : Except DecodeError Instr :=
  match operands with
  | [w1] => formatV w0 fun v => i v w1
  | _ => .error .truncated

/-- Format SP: `W0` as format V, `W1 = steps`, `W2 = period` (R98). -/
def formatSP (w0 : Word) (operands : List Word) (i : Bool → Word → Word → Instr) : Except DecodeError Instr :=
  match operands with
  | [w1, w2] => formatV w0 fun v => i v w1 w2
  | _ => .error .truncated

/-- Format T: `W0` as format Z, `W1 = period` (R99). -/
def formatT (w0 : Word) (operands : List Word) (i : Word → Instr) : Except DecodeError Instr :=
  match operands with
  | [w1] => formatZ w0 (i w1)
  | _ => .error .truncated

/-- A system command: format Z with `inst = 0` (R111). -/
def formatSystem (w0 : Word) (i : Instr) : Except DecodeError Instr :=
  if instOf w0 = 0 then formatZ w0 i else .error .instanceNotZero

/-- The operation an opcode selects, with its format's checks (R108 to R111). -/
def decodeOpcode (w0 : Word) (operands : List Word) : Except DecodeError Instr :=
  let k := instOf w0
  match (opcodeOf w0).toNat with
  | 0x00 => formatG w0 operands fun first rest => .pgConstruct k first rest
  | 0x01 => formatZ w0 (.pgIsValid k)
  | 0x02 => formatZ w0 (.pgGetState k)
  | 0x03 => formatZ w0 (.pgGetValue k)
  | 0x04 => formatZ w0 (.pgGetMode k)
  | 0x05 => formatV w0 fun v => .pgEq k (Level.ofBit v)
  | 0x06 => formatV w0 fun v => .pgNe k (Level.ofBit v)
  | 0x08 => formatM w0 fun m v => .pgSet k (Mode.ofBit m) (Level.ofBit v)
  | 0x09 => formatV w0 fun v => .pgSetMode k (Mode.ofBit v)
  | 0x0A => formatV w0 fun v => .pgSetState k (Level.ofBit v)
  | 0x0B => formatZ w0 (.pgSetHigh k)
  | 0x0C => formatZ w0 (.pgSetLow k)
  | 0x0D => formatZ w0 (.pgToggleState k)
  | 0x0E => formatZ w0 (.pgSetOutput k)
  | 0x0F => formatZ w0 (.pgSetInput k)
  | 0x10 => formatZ w0 (.pgToggleMode k)
  | 0x80 => formatP w0 fun dirPin stepPin => .spgConstruct k dirPin stepPin
  | 0x81 => formatZ w0 (.spgInit k)
  | 0x82 => formatS w0 operands fun v steps => .spgStep k steps (Level.ofBit v)
  | 0x83 => formatSP w0 operands fun v steps period => .spgStepP k steps (Level.ofBit v) period
  | 0x84 => formatT w0 operands fun period => .spgSetPeriod k period
  | 0x85 => formatZ w0 (.spgStop k)
  | 0x86 => formatZ w0 (.spgPause k)
  | 0x87 => formatZ w0 (.spgResume k)
  | 0x88 => formatZ w0 (.spgIsStepping k)
  | 0x89 => formatZ w0 (.spgIsStopped k)
  | 0x8A => formatZ w0 (.spgIsPaused k)
  | 0x8B => formatZ w0 (.spgGetRemainingSteps k)
  | 0xF0 => formatSystem w0 .sysIrqDisable
  | 0xF1 => formatSystem w0 .sysIrqEnable
  | _ => .error .unknownOpcode

/-- The meaning of one whole command: its command word and operand words. -/
def decodeCommand (w0 : Word) (operands : List Word) : Except DecodeError Instr :=
  if rsvdOf w0 = 0 then decodeOpcode w0 operands else .error .reservedField

/-- The command at the head of a list of words, and the words after it. -/
def decode (ws : List Word) : Except DecodeError (Instr × List Word) :=
  match fetch ws with
  | .idle => .error .truncated
  | .truncated => .error .truncated
  | .command w0 operands rest =>
    match decodeCommand w0 operands with
    | .ok i => .ok (i, rest)
    | .error e => .error e

/-! ## What exists on a machine with given parameters (R105, R113) -/

/-- Group index g is below `NGROUPS`. Index 0 exists on every machine, since `NGROUPS` is at least 1. -/
def Params.hasGroup (p : Params) (g : Index) : Bool := g == 0 || decide (g ≤ p.lastGroup)

/-- Generator index i is below `NSPG`. Index 0 exists on every machine, since `NSPG` is at least 1. -/
def Params.hasSpg (p : Params) (i : Index) : Bool := i == 0 || decide (i ≤ p.lastSpg)

/-- The command exists on a machine with these parameters: its instance index is in range (R105), and the optional
query is there (R113). A decoded command that does not exist is ILLEGAL. -/
def Instr.present (p : Params) : Instr → Bool
  | .pgConstruct g _ _ => p.hasGroup g
  | .pgIsValid g => p.hasGroup g
  | .pgGetState g => p.hasGroup g
  | .pgGetValue g => p.hasGroup g
  | .pgGetMode g => p.hasGroup g
  | .pgEq g _ => p.hasGroup g
  | .pgNe g _ => p.hasGroup g
  | .pgSet g _ _ => p.hasGroup g
  | .pgSetMode g _ => p.hasGroup g
  | .pgSetState g _ => p.hasGroup g
  | .pgSetHigh g => p.hasGroup g
  | .pgSetLow g => p.hasGroup g
  | .pgToggleState g => p.hasGroup g
  | .pgSetOutput g => p.hasGroup g
  | .pgSetInput g => p.hasGroup g
  | .pgToggleMode g => p.hasGroup g
  | .spgConstruct i _ _ => p.hasSpg i
  | .spgInit i => p.hasSpg i
  | .spgStep i _ _ => p.hasSpg i
  | .spgStepP i _ _ _ => p.hasSpg i
  | .spgSetPeriod i _ => p.hasSpg i
  | .spgStop i => p.hasSpg i
  | .spgPause i => p.hasSpg i
  | .spgResume i => p.hasSpg i
  | .spgIsStepping i => p.hasSpg i
  | .spgIsStopped i => p.hasSpg i
  | .spgIsPaused i => p.hasSpg i
  | .spgGetRemainingSteps i => p.hasGetRemainingSteps && p.hasSpg i
  | .sysIrqDisable => true
  | .sysIrqEnable => true

/-! ## The encoder -/

/-- A command word from its fields, `rsvd` 0 (R91). -/
def commandWord (opcode : Byte) (k : Index) (imm : BitVec 16) : Word :=
  opcode ++ (BitVec.ofFin k : BitVec 4) ++ (0 : BitVec 4) ++ imm

/-- The immediate of format V (R93). -/
def immV (v : Bool) : BitVec 16 := (0 : BitVec 15) ++ BitVec.ofBool v

/-- The immediate of format M (R94). -/
def immM (m v : Bool) : BitVec 16 := (0 : BitVec 14) ++ BitVec.ofBool m ++ BitVec.ofBool v

/-- An operand word that carries the four pins from slot k on, absent ones 0 (R96). -/
def pinWord (pins : List PinNo) (k : Nat) : Word :=
  pins.getD (k + 3) 0 ++ pins.getD (k + 2) 0 ++ pins.getD (k + 1) 0 ++ pins.getD k 0

/-- The words of a well-formed command. -/
def encode : Instr → List Word
  | .pgConstruct g first rest =>
    [commandWord 0x00 g (BitVec.ofNat 16 (rest.length + 1)), pinWord (first :: rest) 0, pinWord (first :: rest) 4]
  | .pgIsValid g => [commandWord 0x01 g 0]
  | .pgGetState g => [commandWord 0x02 g 0]
  | .pgGetValue g => [commandWord 0x03 g 0]
  | .pgGetMode g => [commandWord 0x04 g 0]
  | .pgEq g v => [commandWord 0x05 g (immV v.bit)]
  | .pgNe g v => [commandWord 0x06 g (immV v.bit)]
  | .pgSet g m v => [commandWord 0x08 g (immM m.bit v.bit)]
  | .pgSetMode g m => [commandWord 0x09 g (immV m.bit)]
  | .pgSetState g v => [commandWord 0x0A g (immV v.bit)]
  | .pgSetHigh g => [commandWord 0x0B g 0]
  | .pgSetLow g => [commandWord 0x0C g 0]
  | .pgToggleState g => [commandWord 0x0D g 0]
  | .pgSetOutput g => [commandWord 0x0E g 0]
  | .pgSetInput g => [commandWord 0x0F g 0]
  | .pgToggleMode g => [commandWord 0x10 g 0]
  | .spgConstruct i dirPin stepPin => [commandWord 0x80 i (stepPin ++ dirPin)]
  | .spgInit i => [commandWord 0x81 i 0]
  | .spgStep i steps v => [commandWord 0x82 i (immV v.bit), steps]
  | .spgStepP i steps v period => [commandWord 0x83 i (immV v.bit), steps, period]
  | .spgSetPeriod i period => [commandWord 0x84 i 0, period]
  | .spgStop i => [commandWord 0x85 i 0]
  | .spgPause i => [commandWord 0x86 i 0]
  | .spgResume i => [commandWord 0x87 i 0]
  | .spgIsStepping i => [commandWord 0x88 i 0]
  | .spgIsStopped i => [commandWord 0x89 i 0]
  | .spgIsPaused i => [commandWord 0x8A i 0]
  | .spgGetRemainingSteps i => [commandWord 0x8B i 0]
  | .sysIrqDisable => [commandWord 0xF0 0 0]
  | .sysIrqEnable => [commandWord 0xF1 0 0]

/-! ## Words numbered as spec/opcode_table.json numbers them -/

/-- The three words of a command whose bits are w, bit 0 the least significant bit of `W0` and the later words counted
on from it, every bit from nbits on 0. -/
def tableWords (nbits w : Nat) : List Word :=
  let v := w % 2 ^ nbits
  [BitVec.ofNat 32 v, BitVec.ofNat 32 (v >>> 32), BitVec.ofNat 32 (v >>> 64)]

/-- The words of that command alone, as many as its opcode asks for (R100). -/
def tableCommand (nbits w : Nat) : List Word :=
  match tableWords nbits w with
  | [] => []
  | w0 :: ws => w0 :: ws.take (commandLength w0 - 1)

/-- The command the decoder reads from an instruction whose bits are w. -/
def decodeTableWord (nbits w : Nat) : Option Instr :=
  match decode (tableCommand nbits w) with
  | .ok (i, _) => some i
  | .error _ => none

end Sys2Proof
end

