-- ==== Sys2Proof/Machine/State.lean ====
section
/-! DEFINITION. The state of the block (spec 10_state.md R20), the reasons a step can stop, and the state after reset. -/

namespace Sys2Proof.Machine

/-- The port registers, as address and byte pairs: addresses strictly rising, no entry equal to what an unlisted
address reads as. -/
abbrev Memory := List Host.Cell

/-- A constructed PinGroup instance `PG[g]` (R32). -/
structure PinGroup where
  /-- 'ordered list of up to 8 pin numbers' (R32). -/
  pins : List PinNo
  /-- The OR of the members' one-hot masks (R33). -/
  offset : Byte
  /-- The complement of `offset` (R34). -/
  inverseOffset : Byte
  /-- The group's VALUE register (R35). -/
  valueAddr : Addr
  /-- The group's STATE register (R35). -/
  stateAddr : Addr
  /-- The group's DIRECTION register (R35). -/
  dirAddr : Addr
  /-- Every member's DIRECTION address is the first member's (R36). -/
  valid : Bool
  deriving DecidableEq, Repr

/-- The number of pins of a group, `n` (R32). -/
def PinGroup.n (G : PinGroup) : Nat := G.pins.length

/-- A constructed StepPulseGenerator instance `SPG[s]` (R39). -/
structure Generator where
  /-- `SPG_INIT` has completed on this instance (R39). -/
  initialised : Bool
  /-- The direction pin's capability (R43). -/
  dirCap : PinCap
  /-- The step pin's capability (R43). -/
  stepCap : PinCap
  /-- Half-steps still to be emitted, two's complement (R40). -/
  remainingTicks : Word
  /-- The paused flag (R41). -/
  paused : Bool
  /-- The configured pulse period, or no value (R42). -/
  period : Option Word
  deriving DecidableEq, Repr

/-- What can be attached to the timer (R45, R225): only the dispatcher. -/
inductive Handler
  | dispatch
  deriving DecidableEq, Repr

/-- The timer capability's record `T` (R45). -/
structure Timer where
  running : Bool
  /-- 32-bit unsigned, or no value. -/
  period  : Option Word
  handler : Option Handler
  /-- The one-bit latch of a fired and undelivered tick (R50). -/
  pending : Bool
  deriving DecidableEq, Repr

/-- `STATUS` (R22): OK or ILLEGAL; the values 2 and 3 never occur. -/
inductive Status
  | ok
  | illegal
  deriving DecidableEq, Repr

/-- The two bits of `STATUS` (R106). -/
def Status.bits : Status → BitVec 2
  | .ok => 0
  | .illegal => 1

/-- MAIN's place (R23): `k` the index of the command in execution, `j` the number of its next micro-step. -/
structure Place where
  k : Nat
  j : Nat
  deriving DecidableEq, Repr

/-- One entry of a schedule (R237): whether MAIN's next micro-step, a `fire` or a `deliver` happens next. -/
inductive Turn
  | main
  | fire
  | deliver
  deriving DecidableEq, Repr

/-- Why a step stops with a fault. -/
inductive Fault
  /-- An access to an address that is no register of the kind accessed on this platform (R60, R61). Raised by
  `State.readReg`, `State.writeReg`, `State.readValue`. Safe: the block forms no such address (log 13). -/
  | noSuchRegister
  deriving DecidableEq, Repr

/-- Why the spec gives a command no next state (R13c). -/
inductive Refusal
  /-- An instruction that has no meaning in this model yet. Raised by a rejected arm of `exec`, of which there is none.
  Safe. -/
  | notModelled (mnemonic : String)
  /-- U2: a command other than its construct command on an instance never constructed (R120, R160). Raised by
  `State.withGroup` and `State.withSpg`. Safe. -/
  | notConstructed
  /-- U1: a PinGroup command other than `PG_ISVALID` on an invalid group (R120, R140). Raised by `State.withValidGroup`.
  Safe. -/
  | invalidGroup
  /-- U3: a second construction (R122, R173). Raised by `execPgConstruct` and `execSpgConstruct`. Safe. -/
  | alreadyConstructed
  /-- U4: a generator command before `SPG_INIT` has completed (R160, R257). Raised by `State.withInitialised`. Safe. -/
  | notInitialised
  /-- U5: a step request with `steps` outside -2^30 .. 2^30 - 1 (R169). Raised by `whenStepsFit`. Safe. -/
  | stepsOutOfRange
  /-- The host's list ends inside a command: its operand words are not there (R90, R100; log 15). Raised by `runMain`.
  Safe. -/
  | truncatedCommand
  deriving DecidableEq, Repr

/-- The state: the tuple of R20, then the parameters of the step relation that R52 lists. -/
structure State where
  /-- `Mem`: the STATE and DIRECTION registers of every port. -/
  mem : Memory
  /-- `IE`: the global interrupt enable (R24). -/
  ie : Bool
  /-- `PG[g]`: empty where `constructed` is false (R32, R38). -/
  groups : Vector (Option PinGroup) 16
  /-- `SPG[s]`: empty where `constructed` is false (R39, R38). -/
  spg : Vector (Option Generator) 16
  /-- The interrupt target (R44). -/
  bound : Option Index
  /-- `T` (R45). -/
  timer : Timer
  /-- `STATUS` (R22). -/
  status : Status
  /-- `RESULT` (R22). -/
  result : Word
  /-- `cp` (R23). -/
  cp : Place
  /-- The implementation parameters (R6, R7), which no step writes. Not the spec's state (R52; log 1). -/
  params : Params
  /-- The command words the host has supplied and MAIN has not consumed. Not the spec's state (R52; log 15). -/
  cmds : List Word
  /-- The schedule still to come. Not the spec's state (R52, R237; log 2). -/
  sched : List Turn
  /-- How many free values have been taken. The model's own field (log 9). -/
  draws : Nat
  deriving DecidableEq, Repr

/-- The outcome of a step of this machine. -/
abbrev Res := Host.Outcome State Fault Refusal

/-- The state after reset (R51) on a machine with parameters p whose launch has left memory mem in the port registers
and `T.running` at running: the spec fixes neither of the two. -/
def State.launch (p : Params) (mem : Memory) (running : Bool) : State :=
  { mem := mem, ie := p.ieReset, groups := Vector.replicate 16 none, spg := Vector.replicate 16 none, bound := none,
    timer := { running := running, period := none, handler := none, pending := false },
    status := .ok, result := 0, cp := ⟨0, 1⟩, params := p, cmds := [], sched := [], draws := 0 }

/-- The machine right after reset (R51, R251): the open parameters and `T.running` are free values, and every port
register reads as `Memory.unlisted` (log 7). -/
def State.reset : State := State.launch Config.params [] Config.launchRunning

end Sys2Proof.Machine
end

