-- ==== Sys2Proof/Machine/Operands.lean ====
section
/-! DEFINITION. What the operands become: pin capabilities and masks, the masked updates of a register, ticks and steps,
and how a return value stands in `RESULT`. -/

namespace Sys2Proof

/-- A capability with its addresses as `ADDRW`-bit values (R31). -/
def PinCap.narrow (w : Nat) (c : PinCap) : PinCap :=
  { c with value := c.value % 2 ^ w, state := c.state % 2 ^ w, dir := c.dir % 2 ^ w }

/-- The capability of a pin number (R7): total, fixed for a run, its addresses `ADDRW` bits wide (R31). -/
def Params.resolve (p : Params) (n : PinNo) : PinCap := (p.platform[n.toNat]'n.isLt).narrow p.addrWidth

/-- The capabilities of all pins. -/
def Params.capabilities (p : Params) : List PinCap := p.platform.toList.map (PinCap.narrow p.addrWidth)

/-- A pin's one-hot mask, `1 << bit` (R30). -/
def PinCap.mask (c : PinCap) : Byte := BitVec.twoPow 8 c.bit.val

/-- Address a is a STATE or DIRECTION register of some pin (R60, R62). -/
def Params.isStorage (p : Params) (a : Addr) : Bool := p.capabilities.any fun c => c.state == a || c.dir == a

/-- Address a is the VALUE register of some pin (R60, R63). -/
def Params.isValueReg (p : Params) (a : Addr) : Bool := p.capabilities.any fun c => c.value == a

/-- `WF_PLATFORM` (R68), the premise of D7 on `resolve`: (a) an equal DIRECTION address means the same port; (b) the
three addresses of a capability differ; (c) no address is two kinds of register; and, by D7, different ports share no
address, a port being the pins of one DIRECTION address. Its clause (d), that equal DIRECTION address and bit mean the same
physical pin, says nothing about the registers (log 17). -/
structure Params.WfPlatform (p : Params) : Prop where
  samePort : ∀ m n, (p.resolve m).dir = (p.resolve n).dir →
    (p.resolve m).state = (p.resolve n).state ∧ (p.resolve m).value = (p.resolve n).value
  distinct : ∀ n, (p.resolve n).value ≠ (p.resolve n).state ∧ (p.resolve n).value ≠ (p.resolve n).dir ∧
    (p.resolve n).state ≠ (p.resolve n).dir
  oneKind : ∀ m n, (p.resolve m).value ≠ (p.resolve n).state ∧ (p.resolve m).value ≠ (p.resolve n).dir ∧
    (p.resolve m).state ≠ (p.resolve n).dir
  portsApart : ∀ m n, (p.resolve m).dir ≠ (p.resolve n).dir →
    (p.resolve m).state ≠ (p.resolve n).state ∧ (p.resolve m).value ≠ (p.resolve n).value

namespace Machine

/-! ## Masked updates (R73, R127) -/

/-- Set the masked bits: `t | m`. -/
def setBits (m t : Byte) : Byte := t ||| m

/-- Clear the masked bits, given the complement of the mask: `t & inv`. -/
def clearBits (inv t : Byte) : Byte := t &&& inv

/-- Invert the masked bits: `t xor m`. -/
def toggleBits (m t : Byte) : Byte := t ^^^ m

/-- Drive the masked bits to a bit: `v = 1 ? t | m : t & inv`. -/
def driveBits (v : Bool) (m inv t : Byte) : Byte := if v then setBits m t else clearBits inv t

/-! ## A group's fields from its pins -/

/-- The OR of the pins' masks (R33). -/
def groupMask (p : Params) (pins : List PinNo) : Byte := pins.foldr (fun n m => (p.resolve n).mask ||| m) 0

/-- The record `PG_CONSTRUCT` stores (R122, R32 to R36): the addresses are member 0's, `valid` compares DIRECTION
addresses only. -/
def PinGroup.build (p : Params) (first : PinNo) (rest : List PinNo) : PinGroup :=
  { pins := first :: rest
    offset := groupMask p (first :: rest)
    inverseOffset := ~~~groupMask p (first :: rest)
    valueAddr := (p.resolve first).value
    stateAddr := (p.resolve first).state
    dirAddr := (p.resolve first).dir
    valid := (first :: rest).all fun n => (p.resolve n).dir == (p.resolve first).dir }

/-- The record `SPG_CONSTRUCT` stores (R173). -/
def Generator.build (p : Params) (dirPin stepPin : PinNo) : Generator :=
  { initialised := false, dirCap := p.resolve dirPin, stepCap := p.resolve stepPin, remainingTicks := 0,
    paused := false, period := none }

/-! ## Ticks and steps (R169, R170) -/

/-- `steps * 2` fits the counter: `-2^30 <= steps < 2^30` (R169). -/
def stepsFit (steps : Word) : Bool := decide (-(2 ^ 30) ≤ steps.toInt ∧ steps.toInt < 2 ^ 30)

/-- `steps * 2`, the exact product narrowed to the counter's 32 bits (R169). -/
def ticksOfSteps (steps : Word) : Word := BitVec.ofInt 32 (steps.toInt * 2)

/-- `ticks quot 2`, truncated toward zero (R170, R9). -/
def stepsOfTicks (ticks : Word) : Word := BitVec.ofInt 32 (ticks.toInt.tdiv 2)

/-- `ticks - 1` (R171): taken only when the counter is positive. -/
def oneTickLess (ticks : Word) : Word := BitVec.ofInt 32 (ticks.toInt - 1)

/-- What stop leaves in the counter: 1 after an odd count, else 0 (R178). -/
def phaseTicks (odd : Bool) : Word := if odd then 1 else 0

/-! ## Return values in `RESULT` (R107) -/

/-- A boolean: 1 for true, 0 for false. -/
def boolResult (b : Bool) : Word := if b then 1 else 0

end Machine

end Sys2Proof
end

