-- ==== Sys2Proof/Machine/Flags.lean ====
section
/-! DEFINITION. The conditions the block computes: the three-way read classification, the equality operators, busy and
stopped, odd, the generator's three states, and when the timer may fire. -/

namespace Sys2Proof.Machine

/-- The outcome of a classified read (R121): 'AllHigh, AllLow, Mixed'. -/
inductive ReadOutcome
  | allHigh
  | allLow
  | mixed
  deriving DecidableEq, Repr

/-- `Classify(r, m)` (R121): all masked bits set, all clear, or mixed. -/
def classify (r m : Byte) : ReadOutcome :=
  if r &&& m = m then .allHigh else if r &&& m = 0 then .allLow else .mixed

/-- An outcome in `RESULT` (R107): 1, 0, or -1 sign-extended to 32 bits. -/
def ReadOutcome.result : ReadOutcome → Word
  | .allHigh => 1
  | .allLow => 0
  | .mixed => 0xFFFFFFFF

/-- The group reads as uniform at level v: what `==` answers (R128). -/
def ReadOutcome.equals (c : ReadOutcome) (v : Level) : Bool :=
  match c, v with
  | .allHigh, .high => true
  | .allHigh, .low => false
  | .allLow, .high => false
  | .allLow, .low => true
  | .mixed, _ => false

/-- The group reads as uniform at the other level: what `!=` answers (R129). A mixed group is neither. -/
def ReadOutcome.differs (c : ReadOutcome) (v : Level) : Bool :=
  match c, v with
  | .allHigh, .high => false
  | .allHigh, .low => true
  | .allLow, .high => true
  | .allLow, .low => false
  | .mixed, _ => false

/-- `remainingTicks > 0`, signed: the busy test and `isStepping` (R175, R182). -/
def isStepping (ticks : Word) : Bool := decide (0 < ticks.toInt)

/-- `remainingTicks <= 0`, signed: `isStopped` (R183). -/
def isStopped (ticks : Word) : Bool := decide (ticks.toInt ≤ 0)

/-- `odd(a)`: `a mod 2 != 0` (R9). -/
def isOdd (ticks : Word) : Bool := decide (ticks.toInt % 2 ≠ 0)

/-- The generator's state (R46). -/
inductive Phase
  | idle
  | stepping
  | paused
  deriving DecidableEq, Repr

/-- The state is a function of the counter and the flag, not a stored field; a negative counter is classed Idle
(R46, R47). -/
def Generator.phase (S : Generator) : Phase :=
  if S.paused then .paused else if isStepping S.remainingTicks then .stepping else .idle

/-- `fire` is enabled (R218): a handler is attached and the timer runs. -/
def Timer.canFire (T : Timer) : Bool := T.handler.isSome && T.running

end Sys2Proof.Machine
end

