-- ==== Sys2Proof/Machine/Ops.lean ====
section
/-! DEFINITION. The operations every command shares: port registers, the timer, the tick interrupt (entry, handler,
return), micro-step boundaries, the critical section, preconditions, and the end of a command. -/

namespace Sys2Proof.Machine

/-! ## Sequencing -/

/-- Go on with f if the first part reached a next state; a fault or a refusal ends the command. -/
def Res.andThen (r : Res) (f : State → Res) : Res :=
  match r with
  | .next s => f s
  | .fault e => .fault e
  | .refused e => .refused e

/-! ## The port registers -/

/-- What a register that nothing has written reads as. DESIGN CHOICE, unsafe: the launch value is arbitrary
(R51, U12; log 7). -/
def Memory.unlisted : Byte := 0

/-- The canonical form of a memory. -/
def Memory.wf (m : Memory) : Bool :=
  decide (m.Pairwise fun c d => c.1 < d.1) && m.all fun c => c.2 != Memory.unlisted

/-- The content of the register at an address. -/
def Memory.read : Memory → Addr → Byte
  | [], _ => Memory.unlisted
  | (b, v) :: m, a => if b = a then v else Memory.read m a

/-- Put an entry at its place in the order. -/
def Memory.insert (a : Addr) (v : Byte) : Memory → Memory
  | [] => [(a, v)]
  | (b, u) :: m => if a < b then (a, v) :: (b, u) :: m else (b, u) :: Memory.insert a v m

/-- Replace the content of the register at an address, keeping the canonical form. -/
def Memory.write (m : Memory) (a : Addr) (v : Byte) : Memory :=
  if v = Memory.unlisted then m.filter fun c => c.1 != a else Memory.insert a v (m.filter fun c => c.1 != a)

namespace State

/-! ## One writer per field -/

def setMem (s : State) (m : Memory) : State := { s with mem := m }
def setIe (s : State) (b : Bool) : State := { s with ie := b }
def setGroups (s : State) (v : Vector (Option PinGroup) 16) : State := { s with groups := v }
def setSpg (s : State) (v : Vector (Option Generator) 16) : State := { s with spg := v }
def setBound (s : State) (b : Option Index) : State := { s with bound := b }
def setTimer (s : State) (t : Timer) : State := { s with timer := t }
def setAnswer (s : State) (st : Status) (r : Word) : State := { s with status := st, result := r }
def setCp (s : State) (c : Place) : State := { s with cp := c }
def setCmds (s : State) (ws : List Word) : State := { s with cmds := ws }
def setSched (s : State) (ts : List Turn) : State := { s with sched := ts }
def setDraws (s : State) (n : Nat) : State := { s with draws := n }

/-! ## Register access (R61 to R63) -/

/-- `MemRead` of a STATE or DIRECTION register (R62). -/
def readReg (s : State) (a : Addr) (k : Byte → Res) : Res :=
  if s.params.isStorage a then k (s.mem.read a) else .fault .noSuchRegister

/-- `MemWrite` of a STATE or DIRECTION register (R62). -/
def writeReg (s : State) (a : Addr) (v : Byte) : Res :=
  if s.params.isStorage a then .next (s.setMem (s.mem.write a v)) else .fault .noSuchRegister

/-- `MemRead` of a VALUE register: a draw from the environment (R63). -/
def readValue (s : State) (a : Addr) (k : Byte → State → Res) : Res :=
  if s.params.isValueReg a then k (Config.valueDraw a s.draws) (s.setDraws (s.draws + 1)) else .fault .noSuchRegister

/-! ## Instances -/

/-- The instance `PG[g]`: none where `constructed` is false (R32, R38). -/
def group (s : State) (g : Index) : Option PinGroup := s.groups[g]

/-- The instance `SPG[i]`: none where `constructed` is false (R39, R38). -/
def gen (s : State) (i : Index) : Option Generator := s.spg[i]

/-- Instance g is constructed with the record G. -/
def putGroup (s : State) (g : Index) (G : PinGroup) : State := s.setGroups (s.groups.set g (some G))

/-- Instance i is constructed with the record S. -/
def putGen (s : State) (i : Index) (S : Generator) : State := s.setSpg (s.spg.set i (some S))

/-- The group g, or the refusal of a command on a group never constructed (R120, U2). -/
def withGroup (s : State) (g : Index) (k : PinGroup → Res) : Res :=
  match s.group g with
  | none => .refused .notConstructed
  | some G => k G

/-- The group g, which must be constructed and valid (R120, U1, U2). -/
def withValidGroup (s : State) (g : Index) (k : PinGroup → Res) : Res :=
  s.withGroup g fun G => if G.valid then k G else .refused .invalidGroup

/-- The generator i, or the refusal of a command on a generator never constructed (R160, U2). -/
def withSpg (s : State) (i : Index) (k : Generator → Res) : Res :=
  match s.gen i with
  | none => .refused .notConstructed
  | some S => k S

/-- The generator i, which must be constructed and initialised (R160, U2, U4). -/
def withInitialised (s : State) (i : Index) (k : Generator → Res) : Res :=
  s.withSpg i fun S => if S.initialised then k S else .refused .notInitialised

/-- Change fields of the constructed generator i. -/
def updateSpg (s : State) (i : Index) (f : Generator → Generator) : State := s.setSpg (s.spg.set i ((s.gen i).map f))

/-- `SPG[i].remainingTicks <- r`. -/
def setTicks (s : State) (i : Index) (r : Word) : State := s.updateSpg i fun S => { S with remainingTicks := r }

/-- `SPG[i].paused <- b`. -/
def setPaused (s : State) (i : Index) (b : Bool) : State := s.updateSpg i fun S => { S with paused := b }

/-- `SPG[i].period <- p`. -/
def setPeriod (s : State) (i : Index) (p : Word) : State := s.updateSpg i fun S => { S with period := some p }

/-! ## The timer capability (R164 to R168) -/

/-- `T.initialize()`: `running` and `period` are drawn, `handler` and `pending` kept (R164). -/
def timerInit (s : State) : State :=
  (s.setTimer { s.timer with running := Config.initRunning s.draws, period := Config.initPeriod s.draws }).setDraws
    (s.draws + 1)

/-- `T.setPeriod(p)` (R165). -/
def timerSetPeriod (s : State) (p : Word) : State := s.setTimer { s.timer with period := some p }

/-- `T.attachInterrupt(h)` (R166). -/
def timerAttach (s : State) (h : Handler) : State := s.setTimer { s.timer with handler := some h }

/-- `T.start()` (R167). -/
def timerStart (s : State) : State := s.setTimer { s.timer with running := true }

/-- `T.stop()` (R168): a latched tick stays latched. -/
def timerStop (s : State) : State := s.setTimer { s.timer with running := false }

/-! ## The tick interrupt: the one event the block takes -/

/-- Event `fire` (R218): where enabled it sets the latch, where the latch is set it is absorbed. A turn that is not
enabled is no event and changes nothing (log 2). -/
def fire (s : State) : State := if s.timer.canFire then s.setTimer { s.timer with pending := true } else s

/-- Interrupt entry (R222, R224): the latch is cleared and `IE` too; nothing is saved, no mode, stack or vector exists. -/
def enterHandler (s : State) : State := (s.setTimer { s.timer with pending := false }).setIe false

/-- Return from the handler (R222, R227): `IE <- 1`; MAIN goes on where it was cut. -/
def leaveHandler (s : State) : State := s.setIe true

/-- `PinToggle(c)` (R163). -/
def pinToggle (c : PinCap) (s : State) : Res := s.readReg c.state fun t => s.writeReg c.state (toggleBits c.mask t)

/-- `TICK(b)`, the tick handler (R181): with ticks left, toggle the step pin and take one off; else nothing. -/
def tick (b : Index) (s : State) : Res :=
  s.withSpg b fun B =>
    if isStepping B.remainingTicks then
      (pinToggle B.stepCap s).andThen fun t => .next (t.setTicks b (oneTickLess B.remainingTicks))
    else .next s

/-- `DISPATCH` (R225): the tick handler of the bound instance, nothing when none is bound. -/
def dispatch (s : State) : Res :=
  match s.bound with
  | none => .next s
  | some b => tick b s

/-- Control goes to the attached handler (R224). -/
def runHandler (h : Handler) (s : State) : Res :=
  match h with
  | .dispatch => dispatch s

/-- Event `deliver` (R222), TAKING the interrupt: enabled when a handler is attached, a tick is pending and `IE = 1`;
entry, handler and return are one atomic step. A turn that is not enabled is no event and changes nothing (log 2). -/
def deliver (s : State) : Res :=
  match s.timer.handler with
  | none => .next s
  | some h =>
    if s.timer.pending && s.ie then (runHandler h s.enterHandler).andThen fun t => .next t.leaveHandler else .next s

/-- The events the schedule puts before MAIN's next turn, which is used up; what is left of the schedule stays in State.
With the schedule at its end MAIN goes on without events (log 2). -/
def runTurns : List Turn → State → Res
  | [], s => .next (s.setSched [])
  | .main :: rest, s => .next (s.setSched rest)
  | .fire :: rest, s => runTurns rest s.fire
  | .deliver :: rest, s => s.deliver.andThen (runTurns rest)

/-! ## Micro-steps (R11, R23) -/

/-- A micro-step of the current command is done and another follows: `cp` goes from (k, j) to (k, j + 1), and the events
of this boundary happen (R222). -/
def nextMicro (s : State) : Res :=
  runTurns s.sched (s.setCp ⟨s.cp.k, s.cp.j + 1⟩)

/-- The same where the rule says which micro-step follows ('go to (5)', R176). -/
def jumpMicro (j : Nat) (s : State) : Res :=
  runTurns s.sched (s.setCp ⟨s.cp.k, j⟩)

/-- `RESULT <- v; done` (R10, R22, R106): status OK, and `cp` at the first micro-step of the next command (R23). -/
def done (v : Word) (s : State) : Res := .next ((s.setAnswer .ok v).setCp ⟨s.cp.k + 1, 1⟩)

/-- The effect of an ILLEGAL command (R113): `STATUS <- ILLEGAL`, `RESULT <- 0` and `cp`, nothing else (log 4). -/
def illegal (s : State) : State := (s.setAnswer .illegal 0).setCp ⟨s.cp.k + 1, 1⟩

/-! ## The critical section (R70 to R74) -/

/-- A critical section's body on one register: `t <- MemRead(a, 1)`, then `MemWrite(a, 1, f(t))`, two micro-steps. -/
def rmw (a : Addr) (f : Byte → Byte) (s : State) : Res :=
  s.readReg a fun t => s.nextMicro.andThen fun s => s.writeReg a (f t)

/-- A critical section around a body (R70): `s <- IE; IE <- 0`, the body, `IE <- s`, the saved value a local of the
command. -/
def critical (body : State → Res) (s : State) : Res :=
  (s.setIe false).nextMicro.andThen fun s1 =>
    (body s1).andThen fun s2 => s2.nextMicro.andThen fun s3 => .next (s3.setIe s.ie)

/-- `MaskedUpdate(a, f)` (R73): four micro-steps. -/
def maskedUpdate (a : Addr) (f : Byte → Byte) (s : State) : Res := critical (rmw a f) s

/-! ## Single-pin operations (R161, R162) -/

/-- `PinMode(c, OUTPUT)` (R161). -/
def pinModeOutput (c : PinCap) (s : State) : Res := maskedUpdate c.dir (setBits c.mask) s

/-- `PinWrite(c, v)` (R162). -/
def pinWrite (c : PinCap) (v : Level) (s : State) : Res :=
  maskedUpdate c.state (driveBits v.bit c.mask (~~~c.mask)) s

end State

/-- The precondition of a step request on its operand (R169, U5). -/
def whenStepsFit (steps : Word) (k : Res) : Res := if stepsFit steps then k else .refused .stepsOutOfRange

end Sys2Proof.Machine
end

