-- ==== Sys2Proof/Machine/PinGroup.lean ====
section
/-! DEFINITION. The meanings of the PinGroup commands (spec 40_pingroup.md). -/

namespace Sys2Proof.Machine

/-! ## Construction and validity -/

/-- `PG_CONSTRUCT g, [first, rest...]` (R122): one micro-step; no register is touched. -/
def execPgConstruct (g : Index) (first : PinNo) (rest : List PinNo) (s : State) : Res :=
  match s.group g with
  | some _ => .refused .alreadyConstructed
  | none => (s.putGroup g (PinGroup.build s.params first rest)).done 0

/-- `PG_ISVALID g` (R123): the one command defined on an invalid group. -/
def execPgIsValid (g : Index) (s : State) : Res :=
  s.withGroup g fun G => s.done (boolResult G.valid)

/-! ## Classified reads -/

/-- `PG_GETSTATE g` (R124). -/
def execPgGetState (g : Index) (s : State) : Res :=
  s.withValidGroup g fun G => s.readReg G.stateAddr fun r => s.done (classify r G.offset).result

/-- `PG_GETVALUE g` (R125): the byte read is the environment's. -/
def execPgGetValue (g : Index) (s : State) : Res :=
  s.withValidGroup g fun G => s.readValue G.valueAddr fun r t => t.done (classify r G.offset).result

/-- `PG_GETMODE g` (R126). -/
def execPgGetMode (g : Index) (s : State) : Res :=
  s.withValidGroup g fun G => s.readReg G.dirAddr fun r => s.done (classify r G.offset).result

/-! ## Equality operators -/

/-- The one read of `==` and `!=`, of the register `EQ_SOURCE` names (R128). -/
def State.readForEquality (s : State) (G : PinGroup) (k : ReadOutcome → State → Res) : Res :=
  match s.params.eqSource with
  | .value => s.readValue G.valueAddr fun r t => k (classify r G.offset) t
  | .state => s.readReg G.stateAddr fun r => k (classify r G.offset) s

/-- `PG_EQ g, v` (R128). -/
def execPgEq (g : Index) (v : Level) (s : State) : Res :=
  s.withValidGroup g fun G => s.readForEquality G fun c t => t.done (boolResult (c.equals v))

/-- `PG_NE g, v` (R129). -/
def execPgNe (g : Index) (v : Level) (s : State) : Res :=
  s.withValidGroup g fun G => s.readForEquality G fun c t => t.done (boolResult (c.differs v))

/-! ## Writes (R127) -/

/-- A masked update of the group's STATE register, then the end of the command. -/
def State.updateState (s : State) (G : PinGroup) (f : Byte → Byte) : Res :=
  (s.maskedUpdate G.stateAddr f).andThen (State.done 0)

/-- A masked update of the group's DIRECTION register, then the end of the command. -/
def State.updateMode (s : State) (G : PinGroup) (f : Byte → Byte) : Res :=
  (s.maskedUpdate G.dirAddr f).andThen (State.done 0)

/-- `PG_SET g, m, v` (R130): one critical section that holds both updates, DIRECTION first. -/
def execPgSet (g : Index) (m : Mode) (v : Level) (s : State) : Res :=
  s.withValidGroup g fun G =>
    (s.critical fun t =>
      (t.rmw G.dirAddr (driveBits m.bit G.offset G.inverseOffset)).andThen fun t =>
        t.nextMicro.andThen fun t =>
          t.rmw G.stateAddr (driveBits v.bit G.offset G.inverseOffset)).andThen (State.done 0)

/-- `PG_SETMODE g, m` (R131). -/
def execPgSetMode (g : Index) (m : Mode) (s : State) : Res :=
  s.withValidGroup g fun G => s.updateMode G (driveBits m.bit G.offset G.inverseOffset)

/-- `PG_SETSTATE g, v` (R132). -/
def execPgSetState (g : Index) (v : Level) (s : State) : Res :=
  s.withValidGroup g fun G => s.updateState G (driveBits v.bit G.offset G.inverseOffset)

/-- `PG_SETHIGH g` (R133). -/
def execPgSetHigh (g : Index) (s : State) : Res :=
  s.withValidGroup g fun G => s.updateState G (setBits G.offset)

/-- `PG_SETLOW g` (R134). -/
def execPgSetLow (g : Index) (s : State) : Res :=
  s.withValidGroup g fun G => s.updateState G (clearBits G.inverseOffset)

/-- `PG_TOGGLESTATE g` (R135). -/
def execPgToggleState (g : Index) (s : State) : Res :=
  s.withValidGroup g fun G => s.updateState G (toggleBits G.offset)

/-- `PG_SETOUTPUT g` (R136). -/
def execPgSetOutput (g : Index) (s : State) : Res :=
  s.withValidGroup g fun G => s.updateMode G (setBits G.offset)

/-- `PG_SETINPUT g` (R137). -/
def execPgSetInput (g : Index) (s : State) : Res :=
  s.withValidGroup g fun G => s.updateMode G (clearBits G.inverseOffset)

/-- `PG_TOGGLEMODE g` (R138). -/
def execPgToggleMode (g : Index) (s : State) : Res :=
  s.withValidGroup g fun G => s.updateMode G (toggleBits G.offset)

end Sys2Proof.Machine
end

