-- ==== Sys2Proof/Machine/StepPulse.lean ====
section
/-! DEFINITION. The meanings of the StepPulseGenerator commands (spec 41_steppulse.md). In each, a number in parentheses
is the rule's micro-step. -/

namespace Sys2Proof.Machine

/-! ## Construction and initialisation -/

/-- `SPG_CONSTRUCT i, dir=dirPin, step=stepPin` (R173): the first instance constructed becomes the interrupt target and
stays it. -/
def execSpgConstruct (i : Index) (dirPin stepPin : PinNo) (s : State) : Res :=
  match s.gen i with
  | some _ => .refused .alreadyConstructed
  | none =>
    -- (1)
    (s.putGen i (Generator.build s.params dirPin stepPin)).nextMicro.andThen fun s =>
    -- (2)
    (s.setBound (s.bound.orElse fun _ => some i)).done 0

/-- `SPG_INIT i` (R174): both pins outputs, the timer initialised, DISPATCH attached, the timer stopped, Paused. The
counter is not written. -/
def execSpgInit (i : Index) (s : State) : Res :=
  s.withSpg i fun S =>
    -- (1..4)
    (s.pinModeOutput S.dirCap).andThen fun s => s.nextMicro.andThen fun s =>
    -- (5..8)
    (s.pinModeOutput S.stepCap).andThen fun s => s.nextMicro.andThen fun s =>
    -- (9), (10), (11)
    s.timerInit.nextMicro.andThen fun s =>
    (s.timerAttach .dispatch).nextMicro.andThen fun s =>
    s.timerStop.nextMicro.andThen fun s =>
    -- (12)
    (s.updateSpg i fun S => { S with paused := true, initialised := true }).done 0

/-! ## Step requests -/

/-- The accepting part of a step request (R175 (2), (3..6)): the counter, then the direction pin. -/
def State.acceptStep (s : State) (i : Index) (dirCap : PinCap) (steps : Word) (v : Level) : Res :=
  (s.setTicks i (ticksOfSteps steps)).nextMicro.andThen fun s =>
  (s.pinWrite dirCap v).andThen (State.done 1)

/-- `SPG_STEP i, steps, v` (R175): rejected while the counter is positive, whatever `paused` is. -/
def execSpgStep (i : Index) (steps : Word) (v : Level) (s : State) : Res :=
  s.withInitialised i fun S => whenStepsFit steps <|
    -- (1)
    if isStepping S.remainingTicks then s.done 0 else
    s.nextMicro.andThen fun s =>
    -- (2), (3..6)
    s.acceptStep i S.dirCap steps v

/-- `SPG_STEPP i, steps, v, period` (R176): the busy test, resume's body, set-period's body, the whole of `SPG_STEP`. -/
def execSpgStepP (i : Index) (steps : Word) (v : Level) (period : Word) (s : State) : Res :=
  s.withInitialised i fun S => whenStepsFit steps <|
    -- (1)
    if isStepping S.remainingTicks then s.done 0 else
    s.nextMicro.andThen fun s =>
    -- (2), (3), (4)
    (s.withSpg i fun S =>
      if S.paused then
        s.nextMicro.andThen fun s => s.timerStart.nextMicro.andThen fun s => (s.setPaused i false).nextMicro
      else s.jumpMicro 5).andThen fun s =>
    -- (5), (6)
    (s.setPeriod i period).nextMicro.andThen fun s =>
    (s.timerSetPeriod period).nextMicro.andThen fun s =>
    -- (7)
    s.withSpg i fun S =>
    if isStepping S.remainingTicks then s.done 0 else
    s.nextMicro.andThen fun s =>
    -- (8), (9..12)
    s.acceptStep i S.dirCap steps v

/-! ## Period, stop, pause, resume -/

/-- `SPG_SETPERIOD i, period` (R177): never rejected. -/
def execSpgSetPeriod (i : Index) (period : Word) (s : State) : Res :=
  s.withInitialised i fun _ =>
    (s.setPeriod i period).nextMicro.andThen fun s => (s.timerSetPeriod period).done 0

/-- Stop's second read (R178 (3)), the one the parity is taken from; with `STOP_READS = 1` it is the first one's value
and (4) follows at once. -/
def State.stopReadsAgain (s : State) (i : Index) (r1 : Word) (k : Word → State → Res) : Res :=
  if s.params.stopReadsTwice then
    s.nextMicro.andThen fun s => s.withSpg i fun S => s.nextMicro.andThen fun s => k S.remainingTicks s
  else (s.jumpMicro 4).andThen fun s => k r1 s

/-- Stop's last part (R178 (4), (5), (6)): the counter keeps only the pulse's phase and the timer is started; `paused`
is cleared as `STOP_CLEARS_PAUSED` says. -/
def State.stopRearms (s : State) (i : Index) (r1 r2 : Word) : Res :=
  -- (4)
  (s.setTicks i (phaseTicks (isOdd r2))).nextMicro.andThen fun s =>
  -- (5), (6)
  if s.params.stopClearsPaused then
    s.timerStart.nextMicro.andThen fun s => (s.setPaused i false).done (stepsOfTicks r1)
  else s.timerStart.done (stepsOfTicks r1)

/-- `SPG_STOP i` (R178): answers the whole steps not completed; the timer is stopped around the change and left
running. -/
def execSpgStop (i : Index) (s : State) : Res :=
  s.withInitialised i fun S =>
    -- (1), (2)
    s.nextMicro.andThen fun s => s.timerStop.stopReadsAgain i S.remainingTicks fun r2 s =>
      s.stopRearms i S.remainingTicks r2

/-- `SPG_PAUSE i` (R179). -/
def execSpgPause (i : Index) (s : State) : Res :=
  s.withInitialised i fun _ =>
    s.timerStop.nextMicro.andThen fun s => (s.setPaused i true).done 0

/-- `SPG_RESUME i` (R180): an idempotent no-op if not paused. -/
def execSpgResume (i : Index) (s : State) : Res :=
  s.withInitialised i fun S =>
    if S.paused then
      s.nextMicro.andThen fun s => s.timerStart.nextMicro.andThen fun s => (s.setPaused i false).done 0
    else s.done 0

/-! ## Queries -/

/-- `SPG_ISSTEPPING i` (R182). -/
def execSpgIsStepping (i : Index) (s : State) : Res :=
  s.withInitialised i fun S => s.done (boolResult (isStepping S.remainingTicks))

/-- `SPG_ISSTOPPED i` (R183). -/
def execSpgIsStopped (i : Index) (s : State) : Res :=
  s.withInitialised i fun S => s.done (boolResult (isStopped S.remainingTicks))

/-- `SPG_ISPAUSED i` (R184). -/
def execSpgIsPaused (i : Index) (s : State) : Res :=
  s.withInitialised i fun S => s.done (boolResult S.paused)

/-- `SPG_GETREMAININGSTEPS i` (R185). -/
def execSpgGetRemainingSteps (i : Index) (s : State) : Res :=
  s.withInitialised i fun S => s.done (stepsOfTicks S.remainingTicks)

end Sys2Proof.Machine
end

