-- ==== Sys2Proof/Machine/System.lean ====
section
/-! DEFINITION. The meanings of the system commands (spec 42_system.md). -/

namespace Sys2Proof.Machine

/-- `SYS_IRQ_DISABLE` (R200): no nesting count. -/
def execSysIrqDisable (s : State) : Res := (s.setIe false).done 0

/-- `SYS_IRQ_ENABLE` (R201): enables unconditionally. -/
def execSysIrqEnable (s : State) : Res := (s.setIe true).done 0

end Sys2Proof.Machine
end

