-- ==== Sys2Proof/Machine/Dispatch.lean ====
section
/-! DEFINITION. One arm per command. -/

namespace Sys2Proof.Machine

def exec (i : Instr) (s : State) : Host.Outcome State Fault Refusal :=
  match i with
  | .pgConstruct g first rest => Sys2Proof.Machine.execPgConstruct g first rest s
  | .pgIsValid g => Sys2Proof.Machine.execPgIsValid g s
  | .pgGetState g => Sys2Proof.Machine.execPgGetState g s
  | .pgGetValue g => Sys2Proof.Machine.execPgGetValue g s
  | .pgGetMode g => Sys2Proof.Machine.execPgGetMode g s
  | .pgEq g v => Sys2Proof.Machine.execPgEq g v s
  | .pgNe g v => Sys2Proof.Machine.execPgNe g v s
  | .pgSet g m v => Sys2Proof.Machine.execPgSet g m v s
  | .pgSetMode g m => Sys2Proof.Machine.execPgSetMode g m s
  | .pgSetState g v => Sys2Proof.Machine.execPgSetState g v s
  | .pgSetHigh g => Sys2Proof.Machine.execPgSetHigh g s
  | .pgSetLow g => Sys2Proof.Machine.execPgSetLow g s
  | .pgToggleState g => Sys2Proof.Machine.execPgToggleState g s
  | .pgSetOutput g => Sys2Proof.Machine.execPgSetOutput g s
  | .pgSetInput g => Sys2Proof.Machine.execPgSetInput g s
  | .pgToggleMode g => Sys2Proof.Machine.execPgToggleMode g s
  | .spgConstruct k dirPin stepPin => Sys2Proof.Machine.execSpgConstruct k dirPin stepPin s
  | .spgInit k => Sys2Proof.Machine.execSpgInit k s
  | .spgStep k steps v => Sys2Proof.Machine.execSpgStep k steps v s
  | .spgStepP k steps v period => Sys2Proof.Machine.execSpgStepP k steps v period s
  | .spgSetPeriod k period => Sys2Proof.Machine.execSpgSetPeriod k period s
  | .spgStop k => Sys2Proof.Machine.execSpgStop k s
  | .spgPause k => Sys2Proof.Machine.execSpgPause k s
  | .spgResume k => Sys2Proof.Machine.execSpgResume k s
  | .spgIsStepping k => Sys2Proof.Machine.execSpgIsStepping k s
  | .spgIsStopped k => Sys2Proof.Machine.execSpgIsStopped k s
  | .spgIsPaused k => Sys2Proof.Machine.execSpgIsPaused k s
  | .spgGetRemainingSteps k => Sys2Proof.Machine.execSpgGetRemainingSteps k s
  | .sysIrqDisable => Sys2Proof.Machine.execSysIrqDisable s
  | .sysIrqEnable => Sys2Proof.Machine.execSysIrqEnable s

end Sys2Proof.Machine
end

