-- ==== Sys2Proof/Machine/Main.lean ====
section
/-! DEFINITION. Whose turn it is: MAIN takes the host's next command, or the schedule gives an event. -/

namespace Sys2Proof.Machine

/-- MAIN's turn between two commands (R12, R78, R100): take the next command from the host's words and execute it. A
command that decodes to nothing, or whose instance does not exist, is ILLEGAL (R105, R113). With no command left MAIN
does nothing (R252). -/
def runMain (s : State) : Res :=
  match fetch s.cmds with
  | .idle => .next s
  | .truncated => .refused .truncatedCommand
  | .command w0 operands rest =>
    match decodeCommand w0 operands with
    | .error _ => .next (s.setCmds rest).illegal
    | .ok i => if i.present s.params then exec i (s.setCmds rest) else .next (s.setCmds rest).illegal

/-- One step of the run (R12, R237): an event at a command boundary, or one whole command of MAIN with the events its
own micro-step boundaries have. -/
def takeTurn (s : State) : Res :=
  match s.sched with
  | [] => runMain s
  | .main :: rest => runMain (s.setSched rest)
  | .fire :: rest => .next (s.setSched rest).fire
  | .deliver :: rest => (s.setSched rest).deliver

/-- The schedule without the events it has before MAIN's next turn. -/
def skipEvents : List Turn → List Turn
  | [] => []
  | .main :: rest => .main :: rest
  | .fire :: rest => skipEvents rest
  | .deliver :: rest => skipEvents rest

/-- The host issues a command next, and the schedule's next turn is MAIN's (log 16). -/
def State.issue (s : State) (words : List Word) : State := (s.setCmds (words ++ s.cmds)).setSched (skipEvents s.sched)

end Sys2Proof.Machine
end

