-- ==== Sys2Proof/Safety.lean ====
section
/-! DEFINITION. The vocabulary of the claims: what a handler run does as a plain function, quiet schedules, which commands
use which instance, the invariant of the machine, and the end of a run. -/

namespace Sys2Proof

/-! ## Which instance a command uses -/

/-- The group of a PinGroup command that R120 allows on a constructed and valid group only: every one but
`PG_CONSTRUCT` and `PG_ISVALID`. -/
def Instr.needsValidGroup : Instr → Option Index
  | .pgGetState g | .pgGetValue g | .pgGetMode g | .pgEq g _ | .pgNe g _ | .pgSet g _ _ | .pgSetMode g _
  | .pgSetState g _ | .pgSetHigh g | .pgSetLow g | .pgToggleState g | .pgSetOutput g | .pgSetInput g
  | .pgToggleMode g => some g
  | .pgConstruct _ _ _ | .pgIsValid _ | .spgConstruct _ _ _ | .spgInit _ | .spgStep _ _ _ | .spgStepP _ _ _ _
  | .spgSetPeriod _ _ | .spgStop _ | .spgPause _ | .spgResume _ | .spgIsStepping _ | .spgIsStopped _ | .spgIsPaused _
  | .spgGetRemainingSteps _ | .sysIrqDisable | .sysIrqEnable => none

/-- The group of a PinGroup write command (R127). -/
def Instr.writesGroup : Instr → Option Index
  | .pgSet g _ _ | .pgSetMode g _ | .pgSetState g _ | .pgSetHigh g | .pgSetLow g | .pgToggleState g | .pgSetOutput g
  | .pgSetInput g | .pgToggleMode g => some g
  | .pgConstruct _ _ _ | .pgIsValid _ | .pgGetState _ | .pgGetValue _ | .pgGetMode _ | .pgEq _ _ | .pgNe _ _
  | .spgConstruct _ _ _ | .spgInit _ | .spgStep _ _ _ | .spgStepP _ _ _ _ | .spgSetPeriod _ _ | .spgStop _
  | .spgPause _ | .spgResume _ | .spgIsStepping _ | .spgIsStopped _ | .spgIsPaused _ | .spgGetRemainingSteps _
  | .sysIrqDisable | .sysIrqEnable => none

/-- The generator of a command that R160 allows on an initialised generator only: every one but `SPG_CONSTRUCT` and
`SPG_INIT`. -/
def Instr.needsInitialised : Instr → Option Index
  | .spgStep i _ _ | .spgStepP i _ _ _ | .spgSetPeriod i _ | .spgStop i | .spgPause i | .spgResume i
  | .spgIsStepping i | .spgIsStopped i | .spgIsPaused i | .spgGetRemainingSteps i => some i
  | .pgConstruct _ _ _ | .pgIsValid _ | .pgGetState _ | .pgGetValue _ | .pgGetMode _ | .pgEq _ _ | .pgNe _ _
  | .pgSet _ _ _ | .pgSetMode _ _ | .pgSetState _ _ | .pgSetHigh _ | .pgSetLow _ | .pgToggleState _ | .pgSetOutput _
  | .pgSetInput _ | .pgToggleMode _ | .spgConstruct _ _ _ | .spgInit _ | .sysIrqDisable | .sysIrqEnable => none

/-- The generator a StepPulseGenerator command names. -/
def Instr.generator : Instr → Option Index
  | .spgConstruct i _ _ | .spgInit i | .spgStep i _ _ | .spgStepP i _ _ _ | .spgSetPeriod i _ | .spgStop i
  | .spgPause i | .spgResume i | .spgIsStepping i | .spgIsStopped i | .spgIsPaused i | .spgGetRemainingSteps i => some i
  | .pgConstruct _ _ _ | .pgIsValid _ | .pgGetState _ | .pgGetValue _ | .pgGetMode _ | .pgEq _ _ | .pgNe _ _
  | .pgSet _ _ _ | .pgSetMode _ _ | .pgSetState _ _ | .pgSetHigh _ | .pgSetLow _ | .pgToggleState _ | .pgSetOutput _
  | .pgSetInput _ | .pgToggleMode _ | .sysIrqDisable | .sysIrqEnable => none

namespace Machine

/-- Generator S as n handler runs would leave it: its counter lowered once a run while positive, nothing else
(R171, R181). -/
def Generator.lowered : Nat → Generator → Generator
  | 0, S => S
  | n + 1, S =>
    if isStepping S.remainingTicks then Generator.lowered n { S with remainingTicks := oneTickLess S.remainingTicks }
    else S

namespace State

/-! ## Handler runs as a plain function -/

/-- What one run of the bound instance's tick handler does to the state (R181): the step pin's bit and the counter,
nothing else. -/
def afterTick (s : State) : State :=
  match s.bound with
  | none => s
  | some b =>
    match s.gen b with
    | none => s
    | some B =>
      if isStepping B.remainingTicks then
        (s.setMem (s.mem.write B.stepCap.state (toggleBits B.stepCap.mask (s.mem.read B.stepCap.state)))).setTicks b
          (oneTickLess B.remainingTicks)
      else s

/-- What n handler runs do. -/
def afterTicks : Nat → State → State
  | 0, s => s
  | n + 1, s => afterTicks n s.afterTick

/-- The bound instance is constructed and its step pin's STATE register exists, so that its handler can run. -/
def HandlerReady (s : State) : Prop :=
  ∀ b, s.bound = some b → ∃ B, s.gen b = some B ∧ s.params.isStorage B.stepCap.state = true

/-! ## Schedules -/

/-- The schedule begins with MAIN's turn, or is at its end: no event comes before MAIN's next turn. -/
def MainsTurn (s : State) : Prop := s.sched.head? ≠ some .fire ∧ s.sched.head? ≠ some .deliver

/-- The state once MAIN has taken its turn and the words of its command: what the command then runs on. -/
def afterFetch (s : State) (rest : List Word) : State := (s.setSched s.sched.tail).setCmds rest

/-- The schedule gives MAIN its next n turns without an event between them. -/
def Quiet (s : State) (n : Nat) : Prop := ∀ t ∈ s.sched.take n, t = .main

/-! ## The end of a command -/

/-- The state a command leaves that changes nothing of its own: the answer and MAIN's place (R22, R23). -/
def answered (s : State) (v : Word) : State := { s with status := .ok, result := v, cp := ⟨s.cp.k + 1, 1⟩ }

/-- From s to t a command has completed with RESULT v, consuming no further words and drawing no free value; the
parameters and the interrupt enable are as before. -/
def Completed (s t : State) (v : Word) : Prop :=
  t.status = .ok ∧ t.result = v ∧ t.cp = ⟨s.cp.k + 1, 1⟩ ∧ t.params = s.params ∧ t.ie = s.ie ∧ t.cmds = s.cmds

/-- From s to t the timer is as before but for the latch, which events may have changed. -/
def TimerButLatch (s t : State) : Prop :=
  t.timer.running = s.timer.running ∧ t.timer.period = s.timer.period ∧ t.timer.handler = s.timer.handler

/-- From s to t no instance, no target and no free value has changed, and the timer only in its latch. -/
def InstancesKept (s t : State) : Prop :=
  t.groups = s.groups ∧ t.spg = s.spg ∧ t.bound = s.bound ∧ t.draws = s.draws ∧ s.TimerButLatch t

/-- Command i on s completes with RESULT 0, has changed the register at a by f, and nothing else but the latch, for
every schedule. -/
def UpdatesRegister (s : State) (i : Instr) (a : Addr) (f : Byte → Byte) : Prop :=
  ∃ t, exec i s = .next t ∧ s.Completed t 0 ∧ s.InstancesKept t ∧
    ∀ b, t.mem.read b = if b = a then f (s.mem.read a) else s.mem.read b

/-- Address a is the STATE register of the bound generator's step pin, which a handler run writes. -/
def HandlerWrites (s : State) (a : Addr) : Prop := ∃ b B, s.bound = some b ∧ s.gen b = some B ∧ B.stepCap.state = a

/-- A handler run writes bit k of the register at a: the bound generator's step pin (R163, R181). -/
def HandlerWritesBit (s : State) (a : Addr) (k : Nat) : Prop :=
  ∃ b B, s.bound = some b ∧ s.gen b = some B ∧ B.stepCap.state = a ∧ B.stepCap.bit.val = k

/-- From s to t the generators but number i are as before, but for handler runs of the bound one. -/
def OthersKept (s t : State) (i : Index) : Prop :=
  ∀ j, j ≠ i → t.gen j = s.gen j ∨ s.bound = some j ∧ ∃ n, t.gen j = (s.gen j).map (Generator.lowered n)

/-- From s to t the register at a has kept its bits, but for those in `driven` and the one handler runs write. -/
def BitsKept (s t : State) (a : Addr) (driven : Nat → Prop) : Prop :=
  ∀ k, ¬driven k → ¬s.HandlerWritesBit a k → (t.mem.read a).getLsbD k = (s.mem.read a).getLsbD k

/-- From s to t the groups and every register outside `written` are as before, but for the bit handler runs write;
besides generator i, so are the generators but for handler runs. -/
def Framed (s t : State) (i : Index) (written : List Addr) : Prop :=
  t.groups = s.groups ∧ s.OthersKept t i ∧ ∀ a, a ∉ written → s.BitsKept t a fun _ => False

/-- The STATE and DIRECTION registers a command's own rule writes in state s (R81). -/
def registersWritten (s : State) : Instr → List Addr
  | .pgSet g _ _ => (s.group g).toList.flatMap fun G => [G.dirAddr, G.stateAddr]
  | .pgSetState g _ | .pgSetHigh g | .pgSetLow g | .pgToggleState g => (s.group g).toList.map fun G => G.stateAddr
  | .pgSetMode g _ | .pgSetOutput g | .pgSetInput g | .pgToggleMode g => (s.group g).toList.map fun G => G.dirAddr
  | .spgInit i => (s.gen i).toList.flatMap fun S => [S.dirCap.dir, S.stepCap.dir]
  | .spgStep i _ _ | .spgStepP i _ _ _ => (s.gen i).toList.map fun S => S.dirCap.state
  | .pgConstruct _ _ _ | .pgIsValid _ | .pgGetState _ | .pgGetValue _ | .pgGetMode _ | .pgEq _ _ | .pgNe _ _
  | .spgConstruct _ _ _ | .spgSetPeriod _ _ | .spgStop _ | .spgPause _ | .spgResume _ | .spgIsStepping _
  | .spgIsStopped _ | .spgIsPaused _ | .spgGetRemainingSteps _ | .sysIrqDisable | .sysIrqEnable => []

/-! ## The invariant -/

/-- Every constructed group is a record that `PG_CONSTRUCT` makes of 1 to 8 pins (R32 to R37). -/
def GroupsBuilt (s : State) : Prop :=
  ∀ g G, s.group g = some G → ∃ first rest, rest.length + 1 ≤ maxPins ∧ G = PinGroup.build s.params first rest

/-- Every constructed generator has the capabilities of two pins (R43); an initialised one has attached the handler
(R174, R257); a negative counter is even (R172). -/
def GeneratorsBuilt (s : State) : Prop :=
  ∀ i S, s.gen i = some S →
    (∃ d p, S.dirCap = s.params.resolve d ∧ S.stepCap = s.params.resolve p) ∧
    (S.initialised = true → s.timer.handler = some .dispatch) ∧
    (S.remainingTicks.toInt < 0 → isOdd S.remainingTicks = false)

/-- The interrupt target is a constructed generator, and is there as soon as one is constructed (R44, R225). -/
def TargetBuilt (s : State) : Prop :=
  (∀ b, s.bound = some b → (s.gen b).isSome) ∧ (s.bound = none → ∀ i, s.gen i = none)

/-- No instance beyond `NGROUPS` and `NSPG` is constructed (R105). -/
def IndexesExist (s : State) : Prop :=
  (∀ g, (s.group g).isSome → s.params.hasGroup g = true) ∧ (∀ i, (s.gen i).isSome → s.params.hasSpg i = true)

/-- The memory is in its canonical form and lists only STATE and DIRECTION registers (R20, R61). -/
def MemoryBuilt (s : State) : Prop := s.mem.wf = true ∧ ∀ c ∈ s.mem, s.params.isStorage c.1 = true

/-- The invariant of the machine. -/
structure Inv (s : State) : Prop where
  memory     : s.MemoryBuilt
  groups     : s.GroupsBuilt
  generators : s.GeneratorsBuilt
  target     : s.TargetBuilt
  indexes    : s.IndexesExist
  /-- A tick is pending only with a handler attached (R218). -/
  latch      : s.timer.pending = true → s.timer.handler = some .dispatch
  /-- Between two steps MAIN stands at the first micro-step of a command (R23). -/
  place      : s.cp.j = 1

/-- No generator but number k is constructed. -/
def OnlyGenerator (s : State) (k : Index) : Prop := ∀ j, j ≠ k → s.gen j = none

/-- Once generator k is initialised, its `paused` says that the timer is stopped: what R48 gives the one constructed
generator. -/
def PausedMeansStopped (s : State) (k : Index) : Prop :=
  ∀ S, s.gen k = some S → S.initialised = true → (S.paused = true ↔ s.timer.running = false)

/-! ## Runs and their end (R272) -/

/-- MAIN takes an ILLEGAL command at this step (R105, R113). -/
def TakesIllegal (s : State) : Prop :=
  s.MainsTurn ∧ ∃ w0 operands rest, fetch s.cmds = .command w0 operands rest ∧
    ((∃ e, decodeCommand w0 operands = .error e) ∨
      ∃ i, decodeCommand w0 operands = .ok i ∧ i.present s.params = false)

/-- n steps lead from s to t and none of them is a refused or an ILLEGAL command: from such a command on a run has no
meaning (R272, R113). -/
def MeaningfulRun (s : State) (n : Nat) (t : State) : Prop :=
  match n with
  | 0 => t = s
  | n + 1 => ¬s.TakesIllegal ∧ ∃ u, step s = .next u ∧ u.MeaningfulRun n t

/-- The three conditions under which a run ends: MAIN has no command left, no tick is pending with `IE = 1`, and either the
timer is not running or the bound generator's counter is not positive (R272). -/
def AtEnd (s : State) : Prop :=
  s.cmds = [] ∧ ¬(s.timer.pending = true ∧ s.ie = true) ∧
  (s.timer.running = false ∨ ∀ b B, s.bound = some b → s.gen b = some B → isStepping B.remainingTicks = false)

/-- The run of n steps from s to t has a meaning and is over (R272). -/
def RunOver (s : State) (n : Nat) (t : State) : Prop := s.MeaningfulRun n t ∧ t.AtEnd

end State

end Machine

end Sys2Proof
end

