-- ==== Sys2Proof/Certificates/Slice0/Obligations.lean ====
section
/-! DEFINITION. The statements for the provers. Each docstring names the rule of the spec it formalises. -/

open Sys2Proof Sys2Proof.Machine

/-! ## Encoding (30_encoding.md) -/

/-- V1: command words written out from the formats and the tables (R91 to R99, R109 to R111) decode to the commands they
stand for, one or more for each family. -/
def Obligations.SpecWordsDecode : Prop :=
  decode [0x00000003, 0x00040201, 0x00000000] = .ok (.pgConstruct 0 1 [2, 4], []) ∧
  decode [0x01100000] = .ok (.pgIsValid 1, []) ∧
  decode [0x06300000] = .ok (.pgNe 3 .low, []) ∧
  decode [0x08000002] = .ok (.pgSet 0 .output .low, []) ∧
  decode [0x80100B0A] = .ok (.spgConstruct 1 10 11, []) ∧
  decode [0x82000000, 0xFFFFFFFE] = .ok (.spgStep 0 (-2) .low, []) ∧
  decode [0x83000001, 0x0000000A, 0x000001F4] = .ok (.spgStepP 0 10 .high 500, []) ∧
  decode [0x84000000, 0x000001F4] = .ok (.spgSetPeriod 0 500, []) ∧
  decode [0xF1000000] = .ok (.sysIrqEnable, [])

/-- Decoding the words of a well-formed command, whatever words follow, gives the command back and leaves those words:
no bit of any operand is dropped (R90 to R111). -/
def Obligations.DecodeEncodeRoundTrip : Prop :=
  ∀ (i : Instr) (rest : List Word), i.wellFormed = true → decode (encode i ++ rest) = .ok (i, rest)

/-- A word that decodes selects exactly one row of the tables, the one of its own mnemonic, and gives a well-formed
command (R109 to R112). -/
def Obligations.DecodedWordSelectsExactlyItsRow : Prop :=
  ∀ (w0 : Word) (operands : List Word) (i : Instr), decodeCommand w0 operands = .ok i →
    i.wellFormed = true ∧ ∃ r ∈ opcodeRows, r.selects w0 = true ∧ r.mnemonic = i.mnemonic ∧
      ∀ r' ∈ opcodeRows, r'.selects w0 = true → r' = r

/-- R100: the opcode alone decides the length, and MAIN takes that many words before any field is checked. -/
def Obligations.CommandLengthFromOpcode : Prop :=
  (∀ w0 : Word, commandLength w0 =
    if opcodeOf w0 = 0x00 ∨ opcodeOf w0 = 0x83 then 3 else if opcodeOf w0 = 0x82 ∨ opcodeOf w0 = 0x84 then 2 else 1) ∧
  ∀ (w0 : Word) (operands rest : List Word), operands.length + 1 = commandLength w0 →
    fetch (w0 :: (operands ++ rest)) = .command w0 operands rest

/-- R112: `PG_CONSTRUCT` with n = 0 or n > 8, or with a non-zero pin slot at an index >= n, decodes to nothing. Slot k
is bits 8k+7..8k of the two operand words read as one 64-bit number, `W1` the lower half (R96). -/
def Obligations.BadPinListDecodesToNothing : Prop :=
  ∀ w0 w1 w2 : Word, opcodeOf w0 = 0x00 →
    ((w0.extractLsb' 0 4).toNat = 0 ∨ 8 < (w0.extractLsb' 0 4).toNat ∨
      ∃ k, (w0.extractLsb' 0 4).toNat ≤ k ∧ k < 8 ∧ (w2 ++ w1).extractLsb' (8 * k) 8 ≠ 0) →
    ∃ e, decodeCommand w0 [w1, w2] = .error e

/-- R105: an instance exists exactly when its index is below `NGROUPS`, respectively `NSPG`, and a system command with a
non-zero `inst` decodes to nothing. -/
def Obligations.InstanceIndexBounds : Prop :=
  (∀ (p : Params) (g : Index), p.hasGroup g = true ↔ g.val < p.nGroups) ∧
  (∀ (p : Params) (k : Index), p.hasSpg k = true ↔ k.val < p.nSpg) ∧
  ∀ (w0 : Word) (operands : List Word), opcodeOf w0 = 0xF0 ∨ opcodeOf w0 = 0xF1 → instOf w0 ≠ 0 →
    ∃ e, decodeCommand w0 operands = .error e

/-! ## The step (00_scope.md R12, R13; 30_encoding.md R100, R113) -/

/-- When MAIN's turn comes and the host's words at its place decode to a command that exists, the step is that command's
meaning, on the state with the turn and the words used up. The list of turns and the list of words are the model's form
of the schedule and of the host's command list (log 2, log 15). -/
def Obligations.StepRunsDecodedCommand : Prop :=
  ∀ (s : State) (w0 : Word) (operands rest : List Word) (i : Instr), s.MainsTurn →
    fetch s.cmds = .command w0 operands rest → decodeCommand w0 operands = .ok i → i.present s.params = true →
    step s = exec i (s.afterFetch rest)

/-- The same from the command's side: with a well-formed command's words at the head of the host's words, the step is
that command's meaning (log 2, log 15). -/
def Obligations.StepRunsEncodedCommand : Prop :=
  ∀ (s : State) (i : Instr) (rest : List Word), s.MainsTurn → s.cmds = encode i ++ rest → i.wellFormed = true →
    i.present s.params = true → step s = exec i (s.afterFetch rest)

/-- A command word that selects no row, a command that decodes to nothing for another reason, and a command whose
instance does not exist are ILLEGAL: the words are consumed, STATUS, RESULT and `cp` written, and nothing else changes
(R113). That the model carries this effect out, where R113 also lets a model refuse, is the model's choice (log 4). -/
def Obligations.IllegalCommandOnlyAnswers : Prop :=
  ∀ (s : State) (w0 : Word) (operands rest : List Word), s.MainsTurn → fetch s.cmds = .command w0 operands rest →
    ((∀ r ∈ opcodeRows, r.selects w0 = false) ∨ (∃ e, decodeCommand w0 operands = .error e) ∨
      ∃ i, decodeCommand w0 operands = .ok i ∧ i.present s.params = false) →
    step s = .next { s with status := .illegal, result := 0, cp := ⟨s.cp.k + 1, 1⟩, sched := s.sched.tail, cmds := rest }

/-- An event at a command boundary is a step of its own (R12, R237), and MAIN without a command does nothing (R252): only
its turn is used up. That an event and a command are each one step is the model's choice (log 2, log 3). -/
def Obligations.StepWithoutCommand : Prop :=
  (∀ (s : State) (rest : List Turn), s.sched = .fire :: rest → step s = .next (s.setSched rest).fire) ∧
  (∀ (s : State) (rest : List Turn), s.sched = .deliver :: rest → step s = (s.setSched rest).deliver) ∧
  ∀ s : State, s.MainsTurn → s.cmds = [] → step s = .next { s with sched := s.sched.tail }

/-! ## Reset (10_state.md R51, 70_reset_and_hazards.md R250 to R252) -/

/-- R251: after reset no instance is constructed, no interrupt target is bound, no handler is attached and no tick is
pending, STATUS and RESULT are 0, and MAIN stands at (0, 1); the port registers, the timer's running state and `IE` are
whatever the launch made them, and `State.reset` is one such launch. -/
def Obligations.ResetConstructsNothing : Prop :=
  (∀ (p : Params) (m : Memory) (r : Bool), let s := State.launch p m r
    (∀ g, s.group g = none) ∧ (∀ i, s.gen i = none) ∧ s.bound = none ∧ s.timer.handler = none ∧
    s.timer.pending = false ∧ s.timer.period = none ∧ s.status.bits = 0 ∧ s.result = 0 ∧ s.cp = ⟨0, 1⟩ ∧
    s.ie = p.ieReset ∧ s.mem = m ∧ s.timer.running = r ∧ s.params = p) ∧
  ∃ m r, State.reset = State.launch Config.params m r

/-! ## Registers and the critical section (20_memory.md) -/

/-- R67: repeating a write with the same value changes nothing, and writing what a read gave changes nothing, the
registers held as equal data. -/
def Obligations.RepeatedWriteChangesNothing : Prop :=
  ∀ (m : Memory) (a : Addr) (v : Byte), m.wf = true →
    (m.write a v).write a v = m.write a v ∧ m.write a (m.read a) = m

/-- Two memories in canonical form that read alike everywhere are the same data: the model's representation of R20, whose
unlisted byte is its choice (log 7). -/
def Obligations.CanonicalMemoriesAreEqual : Prop :=
  ∀ m m' : Memory, m.wf = true → m'.wf = true → (∀ a, m.read a = m'.read a) → m = m'

/-- No command but the two system commands changes the interrupt enable, whatever it was and whatever events fall inside
the command (R71, R255, R268). -/
def Obligations.InterruptEnableIsRestored : Prop :=
  ∀ (i : Instr) (s t : State), i ≠ .sysIrqDisable → i ≠ .sysIrqEnable → exec i s = .next t → t.ie = s.ie

/-- R220: while `IE = 0` a pending tick is held, not lost, and no handler runs: across any command the latch stays set and
every generator but the command's own is as it was. -/
def Obligations.PendingTickIsHeldWhileMasked : Prop :=
  ∀ (i : Instr) (s t : State), s.ie = false → exec i s = .next t →
    (s.timer.pending = true → t.timer.pending = true) ∧ ∀ j, i.generator ≠ some j → t.gen j = s.gen j

/-- Every command that completes ends with STATUS OK and MAIN at the first micro-step of the next command (R22, R23,
R106); the parameters and the host's further words are as before. -/
def Obligations.CompletedCommandAnswersOk : Prop :=
  ∀ (i : Instr) (s t : State), exec i s = .next t →
    t.status = .ok ∧ t.cp = ⟨s.cp.k + 1, 1⟩ ∧ t.params = s.params ∧ t.cmds = s.cmds

/-- R81: a command changes no register but those its row names; a handler run inside it may change the one bit of the
bound generator's step pin besides. -/
def Obligations.CommandsWriteOnlyTheirRegisters : Prop :=
  ∀ (i : Instr) (s t : State) (a : Addr), exec i s = .next t → a ∉ s.registersWritten i →
    s.BitsKept t a (fun _ => False) ∧ (¬s.HandlerWrites a → t.mem.read a = s.mem.read a)

/-! ## PinGroup (40_pingroup.md) -/

/-- R121: all masked bits set, all clear, or mixed; bits outside the mask never matter; a one-pin group is never mixed. -/
def Obligations.ClassifyIsThreeWay : Prop :=
  ∀ r m : Byte, m ≠ 0 →
    (classify r m = .allHigh ↔ ∀ k, k < 8 → m.getLsbD k = true → r.getLsbD k = true) ∧
    (classify r m = .allLow ↔ ∀ k, k < 8 → m.getLsbD k = true → r.getLsbD k = false) ∧
    (classify r m = .mixed ↔ r &&& m ≠ m ∧ r &&& m ≠ 0) ∧
    (∀ r' : Byte, r &&& m = r' &&& m → classify r' m = classify r m) ∧
    (∀ k : Fin 8, m = BitVec.twoPow 8 k.val → classify r m ≠ .mixed)

/-- R33 to R36, R122: construction stores the pins, the OR of their one-hot masks, its complement, the first member's
three addresses, and a validity flag that compares DIRECTION addresses only; it changes nothing else. -/
def Obligations.PgConstructStoresTheGroup : Prop :=
  ∀ (s : State) (g : Index) (first : PinNo) (rest : List PinNo), s.group g = none →
    ∃ G, exec (.pgConstruct g first rest) s = .next ((s.putGroup g G).answered 0) ∧ G.pins = first :: rest ∧
      (∀ k : Fin 8, G.offset.getLsbD k.val = true ↔ ∃ n ∈ first :: rest, (s.params.resolve n).bit = k) ∧
      G.offset ≠ 0 ∧ G.inverseOffset = ~~~G.offset ∧
      G.valueAddr = (s.params.resolve first).value ∧ G.stateAddr = (s.params.resolve first).state ∧
      G.dirAddr = (s.params.resolve first).dir ∧
      (G.valid = true ↔ ∀ n ∈ first :: rest, (s.params.resolve n).dir = (s.params.resolve first).dir)

/-- R120, R122: a command on a group never constructed, a command other than `PG_ISVALID` on an invalid group, and a
second construction are refused. -/
def Obligations.UnusableGroupIsRefused : Prop :=
  (∀ (i : Instr) (g : Index) (s : State), i.needsValidGroup = some g →
    (s.group g = none → exec i s = .refused .notConstructed) ∧
    ∀ G, s.group g = some G → G.valid = false → exec i s = .refused .invalidGroup) ∧
  (∀ (g : Index) (s : State), s.group g = none → exec (.pgIsValid g) s = .refused .notConstructed) ∧
  ∀ (g : Index) (first : PinNo) (rest : List PinNo) (s : State) (G : PinGroup), s.group g = some G →
    exec (.pgConstruct g first rest) s = .refused .alreadyConstructed

/-- R123: `PG_ISVALID` answers the validity flag, of an invalid group too, and changes nothing else. -/
def Obligations.IsValidAnswersTheFlag : Prop :=
  ∀ (s : State) (g : Index) (G : PinGroup), s.group g = some G →
    exec (.pgIsValid g) s = .next (s.answered (if G.valid then 1 else 0))

/-- R124, R125, R126, R107: each read command makes one read of its register and answers 1, 0 or -1; the byte a VALUE
read gives is a free value, and nothing else changes. -/
def Obligations.ClassifiedReadsAnswer : Prop :=
  ∀ (s : State) (g : Index) (G : PinGroup), s.group g = some G → G.valid = true →
    let code (r : Byte) : Word := if r &&& G.offset = G.offset then 1 else if r &&& G.offset = 0 then 0 else 0xFFFFFFFF
    (s.params.isStorage G.stateAddr = true →
      exec (.pgGetState g) s = .next (s.answered (code (s.mem.read G.stateAddr)))) ∧
    (s.params.isStorage G.dirAddr = true →
      exec (.pgGetMode g) s = .next (s.answered (code (s.mem.read G.dirAddr)))) ∧
    (s.params.isValueReg G.valueAddr = true →
      exec (.pgGetValue g) s =
        .next ((s.setDraws (s.draws + 1)).answered (code (Config.valueDraw G.valueAddr s.draws))))

/-- R128, R129: one read of the register `EQ_SOURCE` names; `==` is true exactly when the group is uniform at the level,
`!=` exactly when it is uniform at the other. The byte a VALUE read gives is a free value. -/
def Obligations.EqualityOperatorsAnswer : Prop :=
  ∀ (s : State) (g : Index) (G : PinGroup) (v : Level), s.group g = some G → G.valid = true →
    let eqAnswer (r : Byte) : Word :=
      if classify r G.offset = .allHigh ∧ v = .high ∨ classify r G.offset = .allLow ∧ v = .low then 1 else 0
    let neAnswer (r : Byte) : Word :=
      if classify r G.offset = .allHigh ∧ v = .low ∨ classify r G.offset = .allLow ∧ v = .high then 1 else 0
    (s.params.eqSource = .state → s.params.isStorage G.stateAddr = true →
      exec (.pgEq g v) s = .next (s.answered (eqAnswer (s.mem.read G.stateAddr))) ∧
      exec (.pgNe g v) s = .next (s.answered (neAnswer (s.mem.read G.stateAddr)))) ∧
    (s.params.eqSource = .value → s.params.isValueReg G.valueAddr = true →
      exec (.pgEq g v) s =
        .next ((s.setDraws (s.draws + 1)).answered (eqAnswer (Config.valueDraw G.valueAddr s.draws))) ∧
      exec (.pgNe g v) s =
        .next ((s.setDraws (s.draws + 1)).answered (neAnswer (Config.valueDraw G.valueAddr s.draws))))

/-- R129: on a mixed group neither operator is true; on a uniform one exactly one of the two is, for the same register
value. -/
def Obligations.MixedGroupIsNeitherEqualNorDifferent : Prop :=
  ∀ (s t u : State) (g : Index) (G : PinGroup) (v : Level), s.group g = some G → s.params.eqSource = .state →
    exec (.pgEq g v) s = .next t → exec (.pgNe g v) s = .next u →
    (classify (s.mem.read G.stateAddr) G.offset = .mixed → t.result = 0 ∧ u.result = 0) ∧
    (classify (s.mem.read G.stateAddr) G.offset ≠ .mixed →
      (t.result = 1 ∧ u.result = 0) ∨ (t.result = 0 ∧ u.result = 1))

/-- R132 to R135: each state write completes under every schedule and has updated the group's STATE register as one
indivisible step. -/
def Obligations.StateWritesUpdateOneRegister : Prop :=
  ∀ (s : State) (g : Index) (G : PinGroup), s.group g = some G → G.valid = true →
    s.params.isStorage G.stateAddr = true →
    (∀ v : Level, s.UpdatesRegister (.pgSetState g v) G.stateAddr
      fun t => if v = .high then t ||| G.offset else t &&& G.inverseOffset) ∧
    (s.UpdatesRegister (.pgSetHigh g) G.stateAddr fun t => t ||| G.offset) ∧
    (s.UpdatesRegister (.pgSetLow g) G.stateAddr fun t => t &&& G.inverseOffset) ∧
    s.UpdatesRegister (.pgToggleState g) G.stateAddr fun t => t ^^^ G.offset

/-- R131, R136 to R138: each mode write completes under every schedule and has updated the group's DIRECTION register as
one indivisible step. -/
def Obligations.ModeWritesUpdateOneRegister : Prop :=
  ∀ (s : State) (g : Index) (G : PinGroup), s.group g = some G → G.valid = true →
    s.params.isStorage G.dirAddr = true →
    (∀ m : Mode, s.UpdatesRegister (.pgSetMode g m) G.dirAddr
      fun t => if m = .output then t ||| G.offset else t &&& G.inverseOffset) ∧
    (s.UpdatesRegister (.pgSetOutput g) G.dirAddr fun t => t ||| G.offset) ∧
    (s.UpdatesRegister (.pgSetInput g) G.dirAddr fun t => t &&& G.inverseOffset) ∧
    s.UpdatesRegister (.pgToggleMode g) G.dirAddr fun t => t ^^^ G.offset

/-- R130: `PG_SET` completes under every schedule and has updated DIRECTION by the mode and then STATE by the level, in
one section. -/
def Obligations.SetWritesModeThenLevel : Prop :=
  ∀ (s : State) (g : Index) (G : PinGroup) (m : Mode) (v : Level), s.group g = some G → G.valid = true →
    s.params.isStorage G.dirAddr = true → s.params.isStorage G.stateAddr = true →
    let byMode (t : Byte) := if m = .output then t ||| G.offset else t &&& G.inverseOffset
    let byLevel (t : Byte) := if v = .high then t ||| G.offset else t &&& G.inverseOffset
    let afterMode (a : Addr) := if a = G.dirAddr then byMode (s.mem.read a) else s.mem.read a
    ∃ t, exec (.pgSet g m v) s = .next t ∧ s.Completed t 0 ∧ s.InstancesKept t ∧
      ∀ a, t.mem.read a = if a = G.stateAddr then byLevel (afterMode a) else afterMode a

/-- R127: no write command changes a bit outside the group's mask, in any register. -/
def Obligations.ForeignBitsAreKept : Prop :=
  ∀ (i : Instr) (g : Index) (s t : State) (G : PinGroup), i.writesGroup = some g → s.group g = some G →
    G.inverseOffset = ~~~G.offset → exec i s = .next t →
    ∀ a, t.mem.read a &&& G.inverseOffset = s.mem.read a &&& G.inverseOffset

/-- R139: a classified read immediately after a write gives what was written, and so do the equality operators when they
read STATE. -/
def Obligations.WritesReadBack : Prop :=
  ∀ (s t u : State) (g : Index) (G : PinGroup), s.group g = some G → G.inverseOffset = ~~~G.offset → G.offset ≠ 0 →
    (∀ v : Level, exec (.pgSetState g v) s = .next t → exec (.pgGetState g) t = .next u →
      u.result = if v = .high then 1 else 0) ∧
    (∀ m : Mode, exec (.pgSetMode g m) s = .next t → exec (.pgGetMode g) t = .next u →
      u.result = if m = .output then 1 else 0) ∧
    (exec (.pgSetHigh g) s = .next t → exec (.pgGetState g) t = .next u → u.result = 1) ∧
    (exec (.pgSetLow g) s = .next t → exec (.pgGetState g) t = .next u → u.result = 0) ∧
    (exec (.pgSetOutput g) s = .next t → exec (.pgGetMode g) t = .next u → u.result = 1) ∧
    (exec (.pgSetInput g) s = .next t → exec (.pgGetMode g) t = .next u → u.result = 0) ∧
    (∀ v, s.params.eqSource = .state → exec (.pgSetState g v) s = .next t → exec (.pgEq g v) t = .next u →
      u.result = 1) ∧
    (∀ v, s.params.eqSource = .state → exec (.pgSetState g v) s = .next t → exec (.pgNe g v) t = .next u →
      u.result = 0)

/-- R135, R138: a toggle applied twice restores every register, and one toggle keeps a mixed group mixed. -/
def Obligations.ToggleTwiceRestores : Prop :=
  ∀ (s t u : State) (g : Index) (G : PinGroup), s.group g = some G →
    (exec (.pgToggleState g) s = .next t → exec (.pgToggleState g) t = .next u →
      (∀ a, u.mem.read a = s.mem.read a) ∧
      (classify (s.mem.read G.stateAddr) G.offset = .mixed → classify (t.mem.read G.stateAddr) G.offset = .mixed)) ∧
    (exec (.pgToggleMode g) s = .next t → exec (.pgToggleMode g) t = .next u →
      (∀ a, u.mem.read a = s.mem.read a) ∧
      (classify (s.mem.read G.dirAddr) G.offset = .mixed → classify (t.mem.read G.dirAddr) G.offset = .mixed))

/-! ## System commands (42_system.md) -/

/-- R200, R201: the system commands write `IE`, whatever it was, and nothing else but the answer. -/
def Obligations.SystemCommandsWriteTheEnable : Prop :=
  ∀ s : State, exec .sysIrqDisable s = .next ({ s with ie := false }.answered 0) ∧
    exec .sysIrqEnable s = .next ({ s with ie := true }.answered 0)

/-! ## The timer and the tick interrupt (41_steppulse.md R165 to R172, R181; 60_exceptions.md) -/

/-- R165 to R168: each timer operation writes its one field of `T` and keeps everything else; after a stop no `fire` is
enabled until a start, and the latch is kept. -/
def Obligations.TimerOperationsWriteOneField : Prop :=
  ∀ s : State,
    (∀ p, s.timerSetPeriod p = { s with timer := { s.timer with period := some p } }) ∧
    (∀ h, s.timerAttach h = { s with timer := { s.timer with handler := some h } }) ∧
    s.timerStart = { s with timer := { s.timer with running := true } } ∧
    s.timerStop = { s with timer := { s.timer with running := false } } ∧
    (s.timer.running = true → s.timerStart = s) ∧ (s.timer.running = false → s.timerStop = s) ∧
    s.timerStop.timer.canFire = false

/-- R218: `fire` sets the latch when the timer runs with a handler attached, is absorbed when the latch is set, and does
not happen otherwise. -/
def Obligations.FireSetsTheLatch : Prop :=
  ∀ s : State,
    (s.timer.running = true → s.timer.handler = some .dispatch →
      s.fire = { s with timer := { s.timer with pending := true } } ∧ (s.timer.pending = true → s.fire = s)) ∧
    (s.timer.running = false ∨ s.timer.handler = none → s.fire = s)

/-- R222, R224, R225, R227, R181: a pending tick delivered with `IE = 1` clears the latch and runs the tick handler of the
bound instance: with ticks left it inverts the step pin's STATE bit and takes one off the counter, else it does nothing;
`IE` is 1 afterwards, and nothing else changes. -/
def Obligations.DeliveredTickRunsTheHandler : Prop :=
  ∀ (s : State) (b : Index) (B : Generator), s.timer.handler = some .dispatch → s.timer.pending = true →
    s.ie = true → s.bound = some b → s.gen b = some B → s.params.isStorage B.stepCap.state = true →
    ∃ t, s.deliver = .next t ∧ t = { s with timer := { s.timer with pending := false }, mem := t.mem, spg := t.spg } ∧
      t.mem = (if 0 < B.remainingTicks.toInt then
        s.mem.write B.stepCap.state (s.mem.read B.stepCap.state ^^^ BitVec.twoPow 8 B.stepCap.bit.val) else s.mem) ∧
      (∀ j, j ≠ b → t.gen j = s.gen j) ∧
      ∃ r, t.gen b = some { B with remainingTicks := r } ∧
        r.toInt = if 0 < B.remainingTicks.toInt then B.remainingTicks.toInt - 1 else B.remainingTicks.toInt

/-- R222, R217: without a pending tick, without `IE`, or without a handler no tick is delivered. -/
def Obligations.DeliveryNeedsAllThreeGates : Prop :=
  ∀ s : State, s.timer.pending = false ∨ s.ie = false ∨ s.timer.handler = none → s.deliver = .next s

/-- R229: with the timer stopped, the events of any stretch of schedule run the handler at most once, and only for a tick
that was pending. -/
def Obligations.AtMostOneHandlerRunAfterStop : Prop :=
  ∀ (turns : List Turn) (s t : State), s.timer.running = false → State.runTurns turns s = .next t →
    t.timer.running = false ∧
    (s.timer.pending = false → t.timer.pending = false ∧ t.mem = s.mem ∧ t.spg = s.spg) ∧
    ∀ j S, s.gen j = some S → t.gen j = some S ∨
      s.timer.pending = true ∧ t.timer.pending = false ∧ s.bound = some j ∧
        ∃ r, t.gen j = some { S with remainingTicks := r } ∧ r.toInt = S.remainingTicks.toInt - 1

/-- R40, R171: whatever events happen, a counter only moves toward zero, by handler runs of the bound instance; at or
below zero it stays. -/
def Obligations.CounterOnlyFalls : Prop :=
  ∀ (turns : List Turn) (s t : State) (j : Index) (S : Generator), State.runTurns turns s = .next t →
    s.gen j = some S →
    ∃ r, t.gen j = some { S with remainingTicks := r } ∧ r.toInt ≤ S.remainingTicks.toInt ∧
      (0 ≤ S.remainingTicks.toInt → 0 ≤ r.toInt) ∧ (S.remainingTicks.toInt ≤ 0 → r = S.remainingTicks) ∧
      (s.bound ≠ some j → r = S.remainingTicks)

/-- R169: ticks are twice the steps, exactly and evenly, in range; a step request whose product does not fit is
refused. -/
def Obligations.TicksAreTwiceTheSteps : Prop :=
  (∀ steps : Word, -(2 ^ 30) ≤ steps.toInt → steps.toInt < 2 ^ 30 →
    (ticksOfSteps steps).toInt = steps.toInt * 2 ∧ isOdd (ticksOfSteps steps) = false) ∧
  ∀ (s : State) (i : Index) (S : Generator) (steps period : Word) (v : Level), s.gen i = some S →
    S.initialised = true → steps.toInt < -(2 ^ 30) ∨ 2 ^ 30 ≤ steps.toInt →
    exec (.spgStep i steps v) s = .refused .stepsOutOfRange ∧
    exec (.spgStepP i steps v period) s = .refused .stepsOutOfRange

/-- R170: steps are half the ticks, truncated toward zero, without overflow. -/
def Obligations.StepsAreHalfTheTicks : Prop :=
  ∀ r : Word, (stepsOfTicks r).toInt = r.toInt.tdiv 2 ∧ (0 ≤ r.toInt → (stepsOfTicks r).toInt = r.toInt / 2)

/-! ## StepPulseGenerator (41_steppulse.md) -/

/-- R160, R173: a command on a generator never constructed, a command that needs an initialised one before its `SPG_INIT`,
and a second construction are refused. -/
def Obligations.UnusableGeneratorIsRefused : Prop :=
  (∀ (i : Instr) (k : Index) (s : State), i.needsInitialised = some k →
    (s.gen k = none → exec i s = .refused .notConstructed) ∧
    ∀ S, s.gen k = some S → S.initialised = false → exec i s = .refused .notInitialised) ∧
  (∀ (k : Index) (s : State), s.gen k = none → exec (.spgInit k) s = .refused .notConstructed) ∧
  ∀ (k : Index) (d p : PinNo) (s : State) (S : Generator), s.gen k = some S →
    exec (.spgConstruct k d p) s = .refused .alreadyConstructed

/-- R173, R44: construction completes under every schedule, stores the two capabilities with counter 0, not paused, no
period, not initialised, and claims the interrupt target only if none is bound; registers and timer are untouched but for
events. -/
def Obligations.SpgConstructBindsTheFirst : Prop :=
  ∀ (s : State) (i : Index) (d p : PinNo), s.HandlerReady → s.gen i = none →
    ∃ t, exec (.spgConstruct i d p) s = .next t ∧ s.Completed t 0 ∧ s.TimerButLatch t ∧ s.Framed t i [] ∧
      t.draws = s.draws ∧ t.bound = some (s.bound.getD i) ∧
      t.gen i = some { initialised := false, dirCap := s.params.resolve d, stepCap := s.params.resolve p,
                       remainingTicks := 0, paused := false, period := none }

/-- R174: initialisation completes under every schedule and leaves both pins outputs, DISPATCH attached, the timer
stopped, the generator Paused and its counter kept but for handler runs. What a DIRECTION register holds afterwards is
said for one that handler runs leave alone, as on a platform whose DIRECTION registers are not STATE registers (R68). -/
def Obligations.SpgInitLeavesPaused : Prop :=
  ∀ (s : State) (i : Index) (S : Generator), s.HandlerReady → s.gen i = some S →
    s.params.isStorage S.dirCap.dir = true → s.params.isStorage S.stepCap.dir = true →
    let withDir (a : Addr) := if a = S.dirCap.dir then s.mem.read a ||| BitVec.twoPow 8 S.dirCap.bit.val else s.mem.read a
    ∃ t r, exec (.spgInit i) s = .next t ∧ s.Completed t 0 ∧ s.Framed t i [S.dirCap.dir, S.stepCap.dir] ∧
      t.bound = s.bound ∧ t.timer.running = false ∧ t.timer.handler = some .dispatch ∧
      t.timer.period = Config.initPeriod s.draws ∧ t.draws = s.draws + 1 ∧
      (¬s.HandlerWrites S.dirCap.dir → t.mem.read S.dirCap.dir =
        if S.dirCap.dir = S.stepCap.dir then withDir S.dirCap.dir ||| BitVec.twoPow 8 S.stepCap.bit.val
        else withDir S.dirCap.dir) ∧
      (¬s.HandlerWrites S.stepCap.dir → t.mem.read S.stepCap.dir =
        withDir S.stepCap.dir ||| BitVec.twoPow 8 S.stepCap.bit.val) ∧
      t.gen i = some { S with paused := true, initialised := true, remainingTicks := r } ∧
      r.toInt ≤ S.remainingTicks.toInt ∧ (0 ≤ S.remainingTicks.toInt → 0 ≤ r.toInt) ∧
      (S.remainingTicks.toInt ≤ 0 ∨ s.bound ≠ some i → r = S.remainingTicks)

/-- R212, R175, R176: a step request on a positive counter, paused or not, is rejected with RESULT 0 and changes
nothing. -/
def Obligations.BusyStepRequestIsRejected : Prop :=
  ∀ (s : State) (i : Index) (S : Generator) (steps period : Word) (v : Level), s.gen i = some S →
    S.initialised = true → 0 < S.remainingTicks.toInt → -(2 ^ 30) ≤ steps.toInt → steps.toInt < 2 ^ 30 →
    exec (.spgStep i steps v) s = .next (s.answered 0) ∧ exec (.spgStepP i steps v period) s = .next (s.answered 0)

/-- R175, R162: a step request on a counter that is not positive completes under every schedule with RESULT 1, has driven
the direction pin's bit and kept the register's other seven but for the bit handler runs write, and has loaded the counter
with twice the steps, less the handler runs since; timer and flags are untouched. Undisturbed, the change is exactly that. -/
def Obligations.SpgStepLoadsTheCounter : Prop :=
  ∀ (s : State) (i : Index) (S : Generator) (steps : Word) (v : Level), s.gen i = some S → S.initialised = true →
    S.remainingTicks.toInt ≤ 0 → -(2 ^ 30) ≤ steps.toInt → steps.toInt < 2 ^ 30 →
    s.params.isStorage S.dirCap.state = true →
    (s.HandlerReady →
      ∃ t r, exec (.spgStep i steps v) s = .next t ∧ s.Completed t 1 ∧ s.TimerButLatch t ∧
        s.Framed t i [S.dirCap.state] ∧ t.bound = s.bound ∧ t.draws = s.draws ∧
        (t.mem.read S.dirCap.state).getLsbD S.dirCap.bit.val = decide (v = .high) ∧
        s.BitsKept t S.dirCap.state (fun k => k = S.dirCap.bit.val) ∧
        t.gen i = some { S with remainingTicks := r } ∧ r.toInt ≤ steps.toInt * 2 ∧ (0 ≤ steps.toInt → 0 ≤ r.toInt) ∧
        (steps.toInt ≤ 0 ∨ s.bound ≠ some i → r.toInt = steps.toInt * 2)) ∧
    (s.Quiet 5 → exec (.spgStep i steps v) s = .next
      ((((s.setTicks i (BitVec.ofInt 32 (steps.toInt * 2))).setMem (s.mem.write S.dirCap.state
        (if v = .high then s.mem.read S.dirCap.state ||| BitVec.twoPow 8 S.dirCap.bit.val
          else s.mem.read S.dirCap.state &&& ~~~BitVec.twoPow 8 S.dirCap.bit.val))).setSched
        (s.sched.drop 5)).answered 1))

/-- R176: the three-operand request on a counter that is not positive completes under every schedule with RESULT 1: the
timer resumed if the generator was paused, both periods set, the counter loaded, the direction pin's bit driven and the
register's other seven kept but for the bit handler runs write; its second busy test never rejects. Undisturbed, the change
is exactly that. -/
def Obligations.SpgStepPResumesAndLoads : Prop :=
  ∀ (s : State) (i : Index) (S : Generator) (steps period : Word) (v : Level), s.gen i = some S →
    S.initialised = true → S.remainingTicks.toInt ≤ 0 → -(2 ^ 30) ≤ steps.toInt → steps.toInt < 2 ^ 30 →
    s.params.isStorage S.dirCap.state = true →
    (s.HandlerReady →
      ∃ t r, exec (.spgStepP i steps v period) s = .next t ∧ s.Completed t 1 ∧ s.Framed t i [S.dirCap.state] ∧
        t.bound = s.bound ∧ t.draws = s.draws ∧ t.timer.running = (S.paused || s.timer.running) ∧
        t.timer.period = some period ∧ t.timer.handler = s.timer.handler ∧
        (t.mem.read S.dirCap.state).getLsbD S.dirCap.bit.val = decide (v = .high) ∧
        s.BitsKept t S.dirCap.state (fun k => k = S.dirCap.bit.val) ∧
        t.gen i = some { S with remainingTicks := r, paused := false, period := some period } ∧
        r.toInt ≤ steps.toInt * 2 ∧ (0 ≤ steps.toInt → 0 ≤ r.toInt) ∧
        (steps.toInt ≤ 0 ∨ s.bound ≠ some i → r.toInt = steps.toInt * 2)) ∧
    (s.Quiet 11 → exec (.spgStepP i steps v period) s = .next
      (({ s with
          timer := { s.timer with running := S.paused || s.timer.running, period := some period }
          mem := s.mem.write S.dirCap.state
            (if v = Level.high then s.mem.read S.dirCap.state ||| BitVec.twoPow 8 S.dirCap.bit.val
              else s.mem.read S.dirCap.state &&& ~~~BitVec.twoPow 8 S.dirCap.bit.val)
          sched := s.sched.drop (if S.paused then 11 else 9) }.putGen i
        { S with remainingTicks := BitVec.ofInt 32 (steps.toInt * 2), paused := false, period := some period }).answered 1))

/-- R177: set-period completes under every schedule, is never rejected, and writes the two periods only; the counter is
kept but for handler runs. -/
def Obligations.SetPeriodWritesBothPeriods : Prop :=
  ∀ (s : State) (i : Index) (S : Generator) (period : Word), s.HandlerReady → s.gen i = some S →
    S.initialised = true →
    ∃ t r, exec (.spgSetPeriod i period) s = .next t ∧ s.Completed t 0 ∧ s.Framed t i [] ∧ t.bound = s.bound ∧
      t.draws = s.draws ∧ t.timer.running = s.timer.running ∧ t.timer.handler = s.timer.handler ∧
      t.timer.period = some period ∧ t.gen i = some { S with period := some period, remainingTicks := r } ∧
      r.toInt ≤ S.remainingTicks.toInt ∧ (0 ≤ S.remainingTicks.toInt → 0 ≤ r.toInt) ∧
      (S.remainingTicks.toInt ≤ 0 ∨ s.bound ≠ some i → r = S.remainingTicks) ∧
      (s.Quiet 1 → r = S.remainingTicks ∧ t.mem = s.mem)

/-- R178: stop completes under every schedule and answers the whole steps of its first read; it leaves the timer running,
the counter 0 or 1, for an unbound generator exactly the parity, and `paused` false if `STOP_CLEARS_PAUSED`. Undisturbed,
with the parameter values of R6, the counter keeps exactly the parity. -/
def Obligations.SpgStopKeepsOnlyThePhase : Prop :=
  ∀ (s : State) (i : Index) (S : Generator), s.gen i = some S → S.initialised = true →
    (s.HandlerReady →
      ∃ t r, exec (.spgStop i) s = .next t ∧ s.Completed t (BitVec.ofInt 32 (S.remainingTicks.toInt.tdiv 2)) ∧
        s.Framed t i [] ∧ t.bound = s.bound ∧ t.draws = s.draws ∧ t.timer.running = true ∧
        t.timer.period = s.timer.period ∧ t.timer.handler = s.timer.handler ∧
        t.gen i = some { S with remainingTicks := r, paused := !s.params.stopClearsPaused && S.paused } ∧
        (r = 0 ∨ r = 1) ∧ (s.bound ≠ some i → r = if S.remainingTicks.toInt % 2 = 0 then 0 else 1)) ∧
    (s.Quiet 5 → s.params.stopReadsTwice = true → s.params.stopClearsPaused = true →
      exec (.spgStop i) s = .next
        ((({ s with timer := { s.timer with running := true }, sched := s.sched.drop 5 }).putGen i
          { S with remainingTicks := if S.remainingTicks.toInt % 2 = 0 then 0 else 1, paused := false }).answered
          (BitVec.ofInt 32 (S.remainingTicks.toInt.tdiv 2))))

/-- R179: pause completes under every schedule with the timer stopped and `paused` set; the counter is kept, but for at
most one tick that was already latched. -/
def Obligations.PauseStopsTheTimer : Prop :=
  ∀ (s : State) (i : Index) (S : Generator), s.HandlerReady → s.gen i = some S → S.initialised = true →
    ∃ t r, exec (.spgPause i) s = .next t ∧ s.Completed t 0 ∧ s.Framed t i [] ∧ t.bound = s.bound ∧
      t.draws = s.draws ∧ t.timer.running = false ∧ t.timer.period = s.timer.period ∧
      t.timer.handler = s.timer.handler ∧ t.gen i = some { S with paused := true, remainingTicks := r } ∧
      (r = S.remainingTicks ∨ s.timer.pending = true ∧ s.ie = true ∧ s.bound = some i ∧
        r.toInt = S.remainingTicks.toInt - 1) ∧
      (s.timer.pending = false → t.mem = s.mem ∧ t.timer.pending = false)

/-- R180: resume starts the timer and clears `paused` if the generator is paused, under every schedule, with the counter
kept but for handler runs, and changes nothing but the answer if it is not: a second resume changes nothing. -/
def Obligations.ResumeStartsTheTimer : Prop :=
  ∀ (s : State) (i : Index) (S : Generator), s.gen i = some S → S.initialised = true →
    (S.paused = false → exec (.spgResume i) s = .next (s.answered 0)) ∧
    (S.paused = true → s.HandlerReady →
      ∃ t r, exec (.spgResume i) s = .next t ∧ s.Completed t 0 ∧ s.Framed t i [] ∧ t.bound = s.bound ∧
        t.draws = s.draws ∧ t.timer.running = true ∧ t.timer.period = s.timer.period ∧
        t.timer.handler = s.timer.handler ∧ t.gen i = some { S with paused := false, remainingTicks := r } ∧
        r.toInt ≤ S.remainingTicks.toInt ∧ (0 ≤ S.remainingTicks.toInt → 0 ≤ r.toInt) ∧
        (S.remainingTicks.toInt ≤ 0 ∨ s.bound ≠ some i → r = S.remainingTicks) ∧
        (s.Quiet 2 → r = S.remainingTicks ∧ t.mem = s.mem) ∧
        exec (.spgResume i) t = .next (t.answered 0))

/-- R182 to R185: the four queries answer from the counter and the flag and change nothing else. -/
def Obligations.QueriesAnswer : Prop :=
  ∀ (s : State) (i : Index) (S : Generator), s.gen i = some S → S.initialised = true →
    exec (.spgIsStepping i) s = .next (s.answered (if 0 < S.remainingTicks.toInt then 1 else 0)) ∧
    exec (.spgIsStopped i) s = .next (s.answered (if S.remainingTicks.toInt ≤ 0 then 1 else 0)) ∧
    exec (.spgIsPaused i) s = .next (s.answered (if S.paused then 1 else 0)) ∧
    exec (.spgGetRemainingSteps i) s = .next (s.answered (BitVec.ofInt 32 (S.remainingTicks.toInt.tdiv 2)))

/-! ## Whole-machine laws -/

/-- R187: the transitions between Idle, Stepping and Paused that the commands make when no event falls inside them. -/
def Obligations.CommandsMoveBetweenPhases : Prop :=
  ∀ (s t : State) (k : Index) (S S' : Generator), s.gen k = some S → t.gen k = some S' → s.Quiet 11 →
    s.params.stopReadsTwice = true → s.params.stopClearsPaused = true →
    (exec (.spgInit k) s = .next t → S'.phase = .paused) ∧
    (exec (.spgPause k) s = .next t → S'.phase = .paused) ∧
    (exec (.spgResume k) s = .next t →
      S'.phase = if 0 < S.remainingTicks.toInt then .stepping else .idle) ∧
    (exec (.spgStop k) s = .next t → S'.phase = if S.remainingTicks.toInt % 2 = 0 then .idle else .stepping) ∧
    (∀ steps v, exec (.spgStep k steps v) s = .next t → S'.phase =
      if S.remainingTicks.toInt ≤ 0 ∧ S.phase ≠ .paused then if 0 < steps.toInt then .stepping else .idle
      else S.phase) ∧
    (∀ steps v p, exec (.spgStepP k steps v p) s = .next t → S'.phase =
      if 0 < S.remainingTicks.toInt then S.phase else if 0 < steps.toInt then .stepping else .idle) ∧
    (∀ p, exec (.spgSetPeriod k p) s = .next t → S'.phase = S.phase)

/-- R186: a train of ticks, each fired and delivered with the timer running and `IE = 1`, toggles the step pin once a tick
while the counter is positive and takes the counter to 0; every later tick does nothing. After k ticks on a counter r the
counter is r - k or 0, and the step pin's bit is inverted exactly if the number of toggles is odd. -/
def Obligations.TicksRunTheTrain : Prop :=
  ∀ (k : Nat) (s : State) (b : Index) (B : Generator) (rest : List Turn), s.bound = some b → s.gen b = some B →
    s.params.isStorage B.stepCap.state = true → s.timer.running = true → s.timer.handler = some .dispatch →
    s.ie = true → s.sched = (List.replicate k [Turn.fire, Turn.deliver]).flatten ++ rest → 0 ≤ B.remainingTicks.toInt →
    ∃ t r, Host.Core.run Sys2Proof.core (2 * k) s = .next t ∧ t.sched = rest ∧ t.cmds = s.cmds ∧ t.ie = true ∧
      t.gen b = some { B with remainingTicks := r } ∧ r.toInt = max (B.remainingTicks.toInt - k) 0 ∧
      t.mem.read B.stepCap.state =
        (if (min (k : Int) B.remainingTicks.toInt) % 2 = 0 then s.mem.read B.stepCap.state
          else s.mem.read B.stepCap.state ^^^ BitVec.twoPow 8 B.stepCap.bit.val) ∧
      (∀ a, a ≠ B.stepCap.state → t.mem.read a = s.mem.read a) ∧ ∀ j, j ≠ b → t.gen j = s.gen j

/-- R188: an undisturbed stop on an odd counter leaves the generator busy for one more tick: a step request is rejected,
and the next delivered tick inverts the step pin once more and takes the counter to 0. -/
def Obligations.OddStopClosesThePulse : Prop :=
  ∀ (s t : State) (b : Index) (B : Generator), s.gen b = some B → s.bound = some b → s.Quiet 5 →
    s.params.stopReadsTwice = true → s.params.stopClearsPaused = true → s.timer.handler = some .dispatch →
    s.ie = true → s.params.isStorage B.stepCap.state = true → B.remainingTicks.toInt % 2 ≠ 0 →
    exec (.spgStop b) s = .next t →
    (∀ steps v, -(2 ^ 30) ≤ steps.toInt → steps.toInt < 2 ^ 30 →
      exec (.spgStep b steps v) t = .next (t.answered 0)) ∧
    ∃ u, t.fire.deliver = .next u ∧
      u.gen b = some { B with remainingTicks := 0, paused := false } ∧
      u.mem.read B.stepCap.state = s.mem.read B.stepCap.state ^^^ BitVec.twoPow 8 B.stepCap.bit.val

/-- R189, R44: a generator that is not the interrupt target changes only on MAIN's turn, by a command that names it: no
tick ever lowers its counter. -/
def Obligations.UnboundGeneratorNeverTicks : Prop :=
  ∀ (s t : State) (j : Index), step s = .next t → s.bound ≠ some j →
    t.gen j = s.gen j ∨ s.MainsTurn ∧ ∃ w0 operands rest i, fetch s.cmds = .command w0 operands rest ∧
      decodeCommand w0 operands = .ok i ∧ i.present s.params = true ∧ i.generator = some j ∧
      exec i (s.afterFetch rest) = .next t

/-- R37, R43, R44, R7: a constructed group is never changed, a constructed generator keeps its two capabilities and stays
initialised once it is, a bound target stays bound, and the platform and the other parameters stay as they are. -/
def Obligations.ConstructedRecordsStay : Prop :=
  ∀ s t : State, step s = .next t →
    t.params = s.params ∧ (∀ b, s.bound = some b → t.bound = some b) ∧
    (∀ g G, s.group g = some G → t.group g = some G) ∧
    ∀ i S, s.gen i = some S → ∃ S', t.gen i = some S' ∧ S'.dirCap = S.dirCap ∧ S'.stepCap = S.stepCap ∧
      (S.initialised = true → S'.initialised = true)

/-- The invariant holds after reset, and after every launch that leaves the port registers in canonical form. -/
def Obligations.InvariantHoldsAtReset : Prop :=
  State.reset.Inv ∧ ∀ (p : Params) (m : Memory) (r : Bool), m.wf = true →
    (∀ c ∈ m, p.isStorage c.1 = true) → (State.launch p m r).Inv

/-- Every step keeps the invariant: the registers in canonical form and inside the register space, every group as
`PG_CONSTRUCT` makes it (R33 to R36), every generator on capabilities of two pins (R43) with a negative counter even (R172)
and the handler attached once it is initialised, the interrupt target constructed (R44), no instance out of range (R105),
no tick pending without a handler (R218), MAIN between two commands (R23). -/
def Obligations.EveryStepKeepsTheInvariant : Prop :=
  ∀ s t : State, s.Inv → step s = .next t → t.Inv

/-- R214, R210, R61: from a state that meets the invariant no step faults: 'there are no crash paths'. A step that stops is
one of the refusals of a command; the one for words that end inside a command is the model's (log 15). -/
def Obligations.NoStepFaults : Prop :=
  ∀ s : State, s.Inv → (∃ t, step s = .next t) ∨ ∃ r, step s = .refused r ∧
    r ∈ [Refusal.notConstructed, .invalidGroup, .alreadyConstructed, .notInitialised, .stepsOutOfRange, .truncatedCommand]

/-- R48: with one constructed generator, however many `NSPG` allows, every step keeps that `paused` is true exactly when the
timer is stopped, once the generator is initialised. -/
def Obligations.PausedStaysStopped : Prop :=
  ∀ (s t : State) (k : Index), s.Inv → s.params.stopClearsPaused = true → t.OnlyGenerator k → s.PausedMeansStopped k →
    step s = .next t → t.PausedMeansStopped k

/-- R272: once a run is over, further steps, whatever their events, go on without a refused or ILLEGAL command and change
neither a register nor an instance nor the answer; and from a refused or an ILLEGAL command on a run has no meaning,
although the step carries the ILLEGAL command's effect out (R215, log 4). -/
def Obligations.RunThatIsOverStaysOver : Prop :=
  (∀ (n m : Nat) (r s t : State), r.Inv → r.RunOver n s → Host.Core.run Sys2Proof.core m s = .next t →
    r.MeaningfulRun (n + m) t ∧ t.mem = s.mem ∧ t.groups = s.groups ∧ t.spg = s.spg ∧ t.bound = s.bound ∧ t.ie = s.ie ∧
    t.status = s.status ∧ t.result = s.result ∧ t.cp = s.cp) ∧
  ∀ (n m : Nat) (r s t : State), Host.Core.run Sys2Proof.core n r = .next s →
    s.TakesIllegal ∨ (∃ e, step s = .refused e) → n < m → ¬r.MeaningfulRun m t
end

