-- ==== Sys2Proof/Laws/Memory.lean ====
section
/-! SUPPORT. What the port registers' memory does: read after write, and the canonical form. -/

namespace Sys2Proof.Machine.Memory

theorem read_insert (m : Memory) (a b : Addr) (v : Byte) (h : ∀ c ∈ m, c.1 ≠ a) :
    (Memory.insert a v m).read b = if b = a then v else m.read b := by
  induction m with
  | nil => simp [Memory.insert, Memory.read, eq_comm]
  | cons c m ih =>
    obtain ⟨k, u⟩ := c
    have hk : k ≠ a := h (k, u) (by simp)
    have hm : ∀ c ∈ m, c.1 ≠ a := fun c hc => h c (by simp [hc])
    simp only [Memory.insert]
    split
    · simp [Memory.read, eq_comm]
    · simp only [Memory.read, ih hm]
      by_cases hkb : k = b
      · subst hkb; simp [hk]
      · simp [hkb]

theorem read_erase_same (m : Memory) (a : Addr) : Memory.read (m.filter fun c => c.1 != a) a = Memory.unlisted := by
  induction m with
  | nil => rfl
  | cons c m ih =>
    obtain ⟨k, u⟩ := c
    by_cases hk : k = a
    · subst hk; simpa using ih
    · simp [hk, Memory.read, ih]

theorem read_erase_other (m : Memory) {a b : Addr} (h : b ≠ a) :
    Memory.read (m.filter fun c => c.1 != a) b = m.read b := by
  induction m with
  | nil => rfl
  | cons c m ih =>
    obtain ⟨k, u⟩ := c
    by_cases hk : k = a
    · subst hk; simp [Memory.read, ih, Ne.symm h]
    · simp [hk, Memory.read, ih]

/-- Reading after a write. -/
theorem read_write (m : Memory) (a b : Addr) (v : Byte) :
    (m.write a v).read b = if b = a then v else m.read b := by
  have hne : ∀ c ∈ m.filter (fun c => c.1 != a), c.1 ≠ a := by
    intro c hc
    simpa using (List.mem_filter.mp hc).2
  unfold Memory.write
  by_cases hv : v = Memory.unlisted
  · rw [if_pos hv]
    by_cases hb : b = a
    · subst hb; simp [read_erase_same, hv]
    · simp [read_erase_other m hb, hb]
  · rw [if_neg hv, read_insert _ _ _ _ hne]
    by_cases hb : b = a
    · simp [hb]
    · simp [hb, read_erase_other m hb]

@[simp] theorem read_write_same (m : Memory) (a : Addr) (v : Byte) : (m.write a v).read a = v := by
  simp [read_write]

theorem read_write_other (m : Memory) {a b : Addr} (v : Byte) (h : b ≠ a) : (m.write a v).read b = m.read b := by
  simp [read_write, h]

theorem wf_iff (m : Memory) :
    m.wf = true ↔ m.Pairwise (fun c d => c.1 < d.1) ∧ ∀ c ∈ m, c.2 ≠ Memory.unlisted := by
  simp [Memory.wf]

theorem mem_insert {m : Memory} {a : Addr} {v : Byte} {c : Host.Cell} :
    c ∈ Memory.insert a v m ↔ c = (a, v) ∨ c ∈ m := by
  induction m with
  | nil => simp [Memory.insert]
  | cons d m ih =>
    simp only [Memory.insert]
    split
    · simp
    · simp only [List.mem_cons, ih]; tauto

theorem pairwise_insert {m : Memory} {a : Addr} {v : Byte} (h : m.Pairwise fun c d => c.1 < d.1)
    (hne : ∀ c ∈ m, c.1 ≠ a) : (Memory.insert a v m).Pairwise fun c d => c.1 < d.1 := by
  induction m with
  | nil => simp [Memory.insert]
  | cons d m ih =>
    obtain ⟨k, u⟩ := d
    have hk : k ≠ a := hne (k, u) (by simp)
    rw [List.pairwise_cons] at h
    simp only [Memory.insert]
    split
    · rename_i hak
      refine List.pairwise_cons.mpr ⟨?_, List.pairwise_cons.mpr h⟩
      intro c hc
      rcases List.mem_cons.mp hc with rfl | hc
      · exact hak
      · exact lt_trans hak (h.1 c hc)
    · rename_i hak
      refine List.pairwise_cons.mpr ⟨?_, ih h.2 fun c hc => hne c (by simp [hc])⟩
      intro c hc
      rcases mem_insert.mp hc with rfl | hc
      · exact lt_of_le_of_ne (not_lt.mp hak) hk
      · exact h.1 c hc

/-- Where a listed entry of a written memory comes from. -/
theorem mem_write {m : Memory} {a : Addr} {v : Byte} {c : Host.Cell} (h : c ∈ m.write a v) : c.1 = a ∨ c ∈ m := by
  unfold Memory.write at h
  split at h
  · exact .inr (List.mem_filter.mp h).1
  · rcases mem_insert.mp h with rfl | h
    · exact .inl rfl
    · exact .inr (List.mem_filter.mp h).1

/-- A write keeps the canonical form. -/
theorem wf_write {m : Memory} (h : m.wf = true) (a : Addr) (v : Byte) : (m.write a v).wf = true := by
  rw [wf_iff] at h ⊢
  have hf : (m.filter fun c => c.1 != a).Pairwise fun c d => c.1 < d.1 := h.1.sublist List.filter_sublist
  have hu : ∀ c ∈ m.filter (fun c => c.1 != a), c.2 ≠ Memory.unlisted :=
    fun c hc => h.2 c (List.mem_filter.mp hc).1
  unfold Memory.write
  split
  · exact ⟨hf, hu⟩
  · rename_i hv
    refine ⟨pairwise_insert hf fun c hc => by simpa using (List.mem_filter.mp hc).2, fun c hc => ?_⟩
    rcases mem_insert.mp hc with rfl | hc
    · exact hv
    · exact hu c hc

theorem wf_nil : Memory.wf [] = true := by decide

/-- After reset the memory has its canonical form. -/
theorem wf_reset : State.reset.mem.wf = true := wf_nil

end Sys2Proof.Machine.Memory
end

