-- ==== Sys2Proof/Laws/State.lean ====
section
/-! SUPPORT. One lemma per field per writer of the state, true by rfl, and what a writer of an instance does to each
instance. -/

namespace Sys2Proof.Machine

/-- A slot after a slot has been set. -/
theorem get_set {α : Type} (v : Vector α 16) (i j : Index) (x : α) : (v.set i x)[j] = if i = j then x else v[j] := by
  by_cases h : i = j
  · subst h; simp
  · have : (i : Nat) ≠ j := fun e => h (Fin.ext e)
    simp [this, h]

namespace State

@[simp] theorem setMem_mem (s : State) (m : Memory) : (s.setMem m).mem = m := rfl
@[simp] theorem setMem_ie (s : State) (m : Memory) : (s.setMem m).ie = s.ie := rfl
@[simp] theorem setMem_groups (s : State) (m : Memory) : (s.setMem m).groups = s.groups := rfl
@[simp] theorem setMem_spg (s : State) (m : Memory) : (s.setMem m).spg = s.spg := rfl
@[simp] theorem setMem_bound (s : State) (m : Memory) : (s.setMem m).bound = s.bound := rfl
@[simp] theorem setMem_timer (s : State) (m : Memory) : (s.setMem m).timer = s.timer := rfl
@[simp] theorem setMem_status (s : State) (m : Memory) : (s.setMem m).status = s.status := rfl
@[simp] theorem setMem_result (s : State) (m : Memory) : (s.setMem m).result = s.result := rfl
@[simp] theorem setMem_cp (s : State) (m : Memory) : (s.setMem m).cp = s.cp := rfl
@[simp] theorem setMem_params (s : State) (m : Memory) : (s.setMem m).params = s.params := rfl
@[simp] theorem setMem_cmds (s : State) (m : Memory) : (s.setMem m).cmds = s.cmds := rfl
@[simp] theorem setMem_sched (s : State) (m : Memory) : (s.setMem m).sched = s.sched := rfl
@[simp] theorem setMem_draws (s : State) (m : Memory) : (s.setMem m).draws = s.draws := rfl
@[simp] theorem setMem_group (s : State) (m : Memory) (j : Index) : (s.setMem m).group j = s.group j := rfl
@[simp] theorem setMem_gen (s : State) (m : Memory) (j : Index) : (s.setMem m).gen j = s.gen j := rfl

@[simp] theorem setIe_mem (s : State) (b : Bool) : (s.setIe b).mem = s.mem := rfl
@[simp] theorem setIe_ie (s : State) (b : Bool) : (s.setIe b).ie = b := rfl
@[simp] theorem setIe_groups (s : State) (b : Bool) : (s.setIe b).groups = s.groups := rfl
@[simp] theorem setIe_spg (s : State) (b : Bool) : (s.setIe b).spg = s.spg := rfl
@[simp] theorem setIe_bound (s : State) (b : Bool) : (s.setIe b).bound = s.bound := rfl
@[simp] theorem setIe_timer (s : State) (b : Bool) : (s.setIe b).timer = s.timer := rfl
@[simp] theorem setIe_status (s : State) (b : Bool) : (s.setIe b).status = s.status := rfl
@[simp] theorem setIe_result (s : State) (b : Bool) : (s.setIe b).result = s.result := rfl
@[simp] theorem setIe_cp (s : State) (b : Bool) : (s.setIe b).cp = s.cp := rfl
@[simp] theorem setIe_params (s : State) (b : Bool) : (s.setIe b).params = s.params := rfl
@[simp] theorem setIe_cmds (s : State) (b : Bool) : (s.setIe b).cmds = s.cmds := rfl
@[simp] theorem setIe_sched (s : State) (b : Bool) : (s.setIe b).sched = s.sched := rfl
@[simp] theorem setIe_draws (s : State) (b : Bool) : (s.setIe b).draws = s.draws := rfl
@[simp] theorem setIe_group (s : State) (b : Bool) (j : Index) : (s.setIe b).group j = s.group j := rfl
@[simp] theorem setIe_gen (s : State) (b : Bool) (j : Index) : (s.setIe b).gen j = s.gen j := rfl

@[simp] theorem setGroups_mem (s : State) (v : Vector (Option PinGroup) 16) : (s.setGroups v).mem = s.mem := rfl
@[simp] theorem setGroups_ie (s : State) (v : Vector (Option PinGroup) 16) : (s.setGroups v).ie = s.ie := rfl
@[simp] theorem setGroups_groups (s : State) (v : Vector (Option PinGroup) 16) : (s.setGroups v).groups = v := rfl
@[simp] theorem setGroups_spg (s : State) (v : Vector (Option PinGroup) 16) : (s.setGroups v).spg = s.spg := rfl
@[simp] theorem setGroups_bound (s : State) (v : Vector (Option PinGroup) 16) : (s.setGroups v).bound = s.bound := rfl
@[simp] theorem setGroups_timer (s : State) (v : Vector (Option PinGroup) 16) : (s.setGroups v).timer = s.timer := rfl
@[simp] theorem setGroups_status (s : State) (v : Vector (Option PinGroup) 16) : (s.setGroups v).status = s.status := rfl
@[simp] theorem setGroups_result (s : State) (v : Vector (Option PinGroup) 16) : (s.setGroups v).result = s.result := rfl
@[simp] theorem setGroups_cp (s : State) (v : Vector (Option PinGroup) 16) : (s.setGroups v).cp = s.cp := rfl
@[simp] theorem setGroups_params (s : State) (v : Vector (Option PinGroup) 16) : (s.setGroups v).params = s.params := rfl
@[simp] theorem setGroups_cmds (s : State) (v : Vector (Option PinGroup) 16) : (s.setGroups v).cmds = s.cmds := rfl
@[simp] theorem setGroups_sched (s : State) (v : Vector (Option PinGroup) 16) : (s.setGroups v).sched = s.sched := rfl
@[simp] theorem setGroups_draws (s : State) (v : Vector (Option PinGroup) 16) : (s.setGroups v).draws = s.draws := rfl
@[simp] theorem setGroups_gen (s : State) (v : Vector (Option PinGroup) 16) (j : Index) : (s.setGroups v).gen j = s.gen j := rfl

@[simp] theorem setSpg_mem (s : State) (v : Vector (Option Generator) 16) : (s.setSpg v).mem = s.mem := rfl
@[simp] theorem setSpg_ie (s : State) (v : Vector (Option Generator) 16) : (s.setSpg v).ie = s.ie := rfl
@[simp] theorem setSpg_groups (s : State) (v : Vector (Option Generator) 16) : (s.setSpg v).groups = s.groups := rfl
@[simp] theorem setSpg_spg (s : State) (v : Vector (Option Generator) 16) : (s.setSpg v).spg = v := rfl
@[simp] theorem setSpg_bound (s : State) (v : Vector (Option Generator) 16) : (s.setSpg v).bound = s.bound := rfl
@[simp] theorem setSpg_timer (s : State) (v : Vector (Option Generator) 16) : (s.setSpg v).timer = s.timer := rfl
@[simp] theorem setSpg_status (s : State) (v : Vector (Option Generator) 16) : (s.setSpg v).status = s.status := rfl
@[simp] theorem setSpg_result (s : State) (v : Vector (Option Generator) 16) : (s.setSpg v).result = s.result := rfl
@[simp] theorem setSpg_cp (s : State) (v : Vector (Option Generator) 16) : (s.setSpg v).cp = s.cp := rfl
@[simp] theorem setSpg_params (s : State) (v : Vector (Option Generator) 16) : (s.setSpg v).params = s.params := rfl
@[simp] theorem setSpg_cmds (s : State) (v : Vector (Option Generator) 16) : (s.setSpg v).cmds = s.cmds := rfl
@[simp] theorem setSpg_sched (s : State) (v : Vector (Option Generator) 16) : (s.setSpg v).sched = s.sched := rfl
@[simp] theorem setSpg_draws (s : State) (v : Vector (Option Generator) 16) : (s.setSpg v).draws = s.draws := rfl
@[simp] theorem setSpg_group (s : State) (v : Vector (Option Generator) 16) (j : Index) : (s.setSpg v).group j = s.group j := rfl

@[simp] theorem setBound_mem (s : State) (b : Option Index) : (s.setBound b).mem = s.mem := rfl
@[simp] theorem setBound_ie (s : State) (b : Option Index) : (s.setBound b).ie = s.ie := rfl
@[simp] theorem setBound_groups (s : State) (b : Option Index) : (s.setBound b).groups = s.groups := rfl
@[simp] theorem setBound_spg (s : State) (b : Option Index) : (s.setBound b).spg = s.spg := rfl
@[simp] theorem setBound_bound (s : State) (b : Option Index) : (s.setBound b).bound = b := rfl
@[simp] theorem setBound_timer (s : State) (b : Option Index) : (s.setBound b).timer = s.timer := rfl
@[simp] theorem setBound_status (s : State) (b : Option Index) : (s.setBound b).status = s.status := rfl
@[simp] theorem setBound_result (s : State) (b : Option Index) : (s.setBound b).result = s.result := rfl
@[simp] theorem setBound_cp (s : State) (b : Option Index) : (s.setBound b).cp = s.cp := rfl
@[simp] theorem setBound_params (s : State) (b : Option Index) : (s.setBound b).params = s.params := rfl
@[simp] theorem setBound_cmds (s : State) (b : Option Index) : (s.setBound b).cmds = s.cmds := rfl
@[simp] theorem setBound_sched (s : State) (b : Option Index) : (s.setBound b).sched = s.sched := rfl
@[simp] theorem setBound_draws (s : State) (b : Option Index) : (s.setBound b).draws = s.draws := rfl
@[simp] theorem setBound_group (s : State) (b : Option Index) (j : Index) : (s.setBound b).group j = s.group j := rfl
@[simp] theorem setBound_gen (s : State) (b : Option Index) (j : Index) : (s.setBound b).gen j = s.gen j := rfl

@[simp] theorem setTimer_mem (s : State) (T : Timer) : (s.setTimer T).mem = s.mem := rfl
@[simp] theorem setTimer_ie (s : State) (T : Timer) : (s.setTimer T).ie = s.ie := rfl
@[simp] theorem setTimer_groups (s : State) (T : Timer) : (s.setTimer T).groups = s.groups := rfl
@[simp] theorem setTimer_spg (s : State) (T : Timer) : (s.setTimer T).spg = s.spg := rfl
@[simp] theorem setTimer_bound (s : State) (T : Timer) : (s.setTimer T).bound = s.bound := rfl
@[simp] theorem setTimer_timer (s : State) (T : Timer) : (s.setTimer T).timer = T := rfl
@[simp] theorem setTimer_status (s : State) (T : Timer) : (s.setTimer T).status = s.status := rfl
@[simp] theorem setTimer_result (s : State) (T : Timer) : (s.setTimer T).result = s.result := rfl
@[simp] theorem setTimer_cp (s : State) (T : Timer) : (s.setTimer T).cp = s.cp := rfl
@[simp] theorem setTimer_params (s : State) (T : Timer) : (s.setTimer T).params = s.params := rfl
@[simp] theorem setTimer_cmds (s : State) (T : Timer) : (s.setTimer T).cmds = s.cmds := rfl
@[simp] theorem setTimer_sched (s : State) (T : Timer) : (s.setTimer T).sched = s.sched := rfl
@[simp] theorem setTimer_draws (s : State) (T : Timer) : (s.setTimer T).draws = s.draws := rfl
@[simp] theorem setTimer_group (s : State) (T : Timer) (j : Index) : (s.setTimer T).group j = s.group j := rfl
@[simp] theorem setTimer_gen (s : State) (T : Timer) (j : Index) : (s.setTimer T).gen j = s.gen j := rfl

@[simp] theorem setAnswer_mem (s : State) (st : Status) (r : Word) : (s.setAnswer st r).mem = s.mem := rfl
@[simp] theorem setAnswer_ie (s : State) (st : Status) (r : Word) : (s.setAnswer st r).ie = s.ie := rfl
@[simp] theorem setAnswer_groups (s : State) (st : Status) (r : Word) : (s.setAnswer st r).groups = s.groups := rfl
@[simp] theorem setAnswer_spg (s : State) (st : Status) (r : Word) : (s.setAnswer st r).spg = s.spg := rfl
@[simp] theorem setAnswer_bound (s : State) (st : Status) (r : Word) : (s.setAnswer st r).bound = s.bound := rfl
@[simp] theorem setAnswer_timer (s : State) (st : Status) (r : Word) : (s.setAnswer st r).timer = s.timer := rfl
@[simp] theorem setAnswer_status (s : State) (st : Status) (r : Word) : (s.setAnswer st r).status = st := rfl
@[simp] theorem setAnswer_result (s : State) (st : Status) (r : Word) : (s.setAnswer st r).result = r := rfl
@[simp] theorem setAnswer_cp (s : State) (st : Status) (r : Word) : (s.setAnswer st r).cp = s.cp := rfl
@[simp] theorem setAnswer_params (s : State) (st : Status) (r : Word) : (s.setAnswer st r).params = s.params := rfl
@[simp] theorem setAnswer_cmds (s : State) (st : Status) (r : Word) : (s.setAnswer st r).cmds = s.cmds := rfl
@[simp] theorem setAnswer_sched (s : State) (st : Status) (r : Word) : (s.setAnswer st r).sched = s.sched := rfl
@[simp] theorem setAnswer_draws (s : State) (st : Status) (r : Word) : (s.setAnswer st r).draws = s.draws := rfl
@[simp] theorem setAnswer_group (s : State) (st : Status) (r : Word) (j : Index) : (s.setAnswer st r).group j = s.group j := rfl
@[simp] theorem setAnswer_gen (s : State) (st : Status) (r : Word) (j : Index) : (s.setAnswer st r).gen j = s.gen j := rfl

@[simp] theorem setCp_mem (s : State) (c : Place) : (s.setCp c).mem = s.mem := rfl
@[simp] theorem setCp_ie (s : State) (c : Place) : (s.setCp c).ie = s.ie := rfl
@[simp] theorem setCp_groups (s : State) (c : Place) : (s.setCp c).groups = s.groups := rfl
@[simp] theorem setCp_spg (s : State) (c : Place) : (s.setCp c).spg = s.spg := rfl
@[simp] theorem setCp_bound (s : State) (c : Place) : (s.setCp c).bound = s.bound := rfl
@[simp] theorem setCp_timer (s : State) (c : Place) : (s.setCp c).timer = s.timer := rfl
@[simp] theorem setCp_status (s : State) (c : Place) : (s.setCp c).status = s.status := rfl
@[simp] theorem setCp_result (s : State) (c : Place) : (s.setCp c).result = s.result := rfl
@[simp] theorem setCp_cp (s : State) (c : Place) : (s.setCp c).cp = c := rfl
@[simp] theorem setCp_params (s : State) (c : Place) : (s.setCp c).params = s.params := rfl
@[simp] theorem setCp_cmds (s : State) (c : Place) : (s.setCp c).cmds = s.cmds := rfl
@[simp] theorem setCp_sched (s : State) (c : Place) : (s.setCp c).sched = s.sched := rfl
@[simp] theorem setCp_draws (s : State) (c : Place) : (s.setCp c).draws = s.draws := rfl
@[simp] theorem setCp_group (s : State) (c : Place) (j : Index) : (s.setCp c).group j = s.group j := rfl
@[simp] theorem setCp_gen (s : State) (c : Place) (j : Index) : (s.setCp c).gen j = s.gen j := rfl

@[simp] theorem setCmds_mem (s : State) (ws : List Word) : (s.setCmds ws).mem = s.mem := rfl
@[simp] theorem setCmds_ie (s : State) (ws : List Word) : (s.setCmds ws).ie = s.ie := rfl
@[simp] theorem setCmds_groups (s : State) (ws : List Word) : (s.setCmds ws).groups = s.groups := rfl
@[simp] theorem setCmds_spg (s : State) (ws : List Word) : (s.setCmds ws).spg = s.spg := rfl
@[simp] theorem setCmds_bound (s : State) (ws : List Word) : (s.setCmds ws).bound = s.bound := rfl
@[simp] theorem setCmds_timer (s : State) (ws : List Word) : (s.setCmds ws).timer = s.timer := rfl
@[simp] theorem setCmds_status (s : State) (ws : List Word) : (s.setCmds ws).status = s.status := rfl
@[simp] theorem setCmds_result (s : State) (ws : List Word) : (s.setCmds ws).result = s.result := rfl
@[simp] theorem setCmds_cp (s : State) (ws : List Word) : (s.setCmds ws).cp = s.cp := rfl
@[simp] theorem setCmds_params (s : State) (ws : List Word) : (s.setCmds ws).params = s.params := rfl
@[simp] theorem setCmds_cmds (s : State) (ws : List Word) : (s.setCmds ws).cmds = ws := rfl
@[simp] theorem setCmds_sched (s : State) (ws : List Word) : (s.setCmds ws).sched = s.sched := rfl
@[simp] theorem setCmds_draws (s : State) (ws : List Word) : (s.setCmds ws).draws = s.draws := rfl
@[simp] theorem setCmds_group (s : State) (ws : List Word) (j : Index) : (s.setCmds ws).group j = s.group j := rfl
@[simp] theorem setCmds_gen (s : State) (ws : List Word) (j : Index) : (s.setCmds ws).gen j = s.gen j := rfl

@[simp] theorem setSched_mem (s : State) (ts : List Turn) : (s.setSched ts).mem = s.mem := rfl
@[simp] theorem setSched_ie (s : State) (ts : List Turn) : (s.setSched ts).ie = s.ie := rfl
@[simp] theorem setSched_groups (s : State) (ts : List Turn) : (s.setSched ts).groups = s.groups := rfl
@[simp] theorem setSched_spg (s : State) (ts : List Turn) : (s.setSched ts).spg = s.spg := rfl
@[simp] theorem setSched_bound (s : State) (ts : List Turn) : (s.setSched ts).bound = s.bound := rfl
@[simp] theorem setSched_timer (s : State) (ts : List Turn) : (s.setSched ts).timer = s.timer := rfl
@[simp] theorem setSched_status (s : State) (ts : List Turn) : (s.setSched ts).status = s.status := rfl
@[simp] theorem setSched_result (s : State) (ts : List Turn) : (s.setSched ts).result = s.result := rfl
@[simp] theorem setSched_cp (s : State) (ts : List Turn) : (s.setSched ts).cp = s.cp := rfl
@[simp] theorem setSched_params (s : State) (ts : List Turn) : (s.setSched ts).params = s.params := rfl
@[simp] theorem setSched_cmds (s : State) (ts : List Turn) : (s.setSched ts).cmds = s.cmds := rfl
@[simp] theorem setSched_sched (s : State) (ts : List Turn) : (s.setSched ts).sched = ts := rfl
@[simp] theorem setSched_draws (s : State) (ts : List Turn) : (s.setSched ts).draws = s.draws := rfl
@[simp] theorem setSched_group (s : State) (ts : List Turn) (j : Index) : (s.setSched ts).group j = s.group j := rfl
@[simp] theorem setSched_gen (s : State) (ts : List Turn) (j : Index) : (s.setSched ts).gen j = s.gen j := rfl

@[simp] theorem setDraws_mem (s : State) (n : Nat) : (s.setDraws n).mem = s.mem := rfl
@[simp] theorem setDraws_ie (s : State) (n : Nat) : (s.setDraws n).ie = s.ie := rfl
@[simp] theorem setDraws_groups (s : State) (n : Nat) : (s.setDraws n).groups = s.groups := rfl
@[simp] theorem setDraws_spg (s : State) (n : Nat) : (s.setDraws n).spg = s.spg := rfl
@[simp] theorem setDraws_bound (s : State) (n : Nat) : (s.setDraws n).bound = s.bound := rfl
@[simp] theorem setDraws_timer (s : State) (n : Nat) : (s.setDraws n).timer = s.timer := rfl
@[simp] theorem setDraws_status (s : State) (n : Nat) : (s.setDraws n).status = s.status := rfl
@[simp] theorem setDraws_result (s : State) (n : Nat) : (s.setDraws n).result = s.result := rfl
@[simp] theorem setDraws_cp (s : State) (n : Nat) : (s.setDraws n).cp = s.cp := rfl
@[simp] theorem setDraws_params (s : State) (n : Nat) : (s.setDraws n).params = s.params := rfl
@[simp] theorem setDraws_cmds (s : State) (n : Nat) : (s.setDraws n).cmds = s.cmds := rfl
@[simp] theorem setDraws_sched (s : State) (n : Nat) : (s.setDraws n).sched = s.sched := rfl
@[simp] theorem setDraws_draws (s : State) (n : Nat) : (s.setDraws n).draws = n := rfl
@[simp] theorem setDraws_group (s : State) (n : Nat) (j : Index) : (s.setDraws n).group j = s.group j := rfl
@[simp] theorem setDraws_gen (s : State) (n : Nat) (j : Index) : (s.setDraws n).gen j = s.gen j := rfl

@[simp] theorem timerInit_mem (s : State) : (s.timerInit).mem = s.mem := rfl
@[simp] theorem timerInit_ie (s : State) : (s.timerInit).ie = s.ie := rfl
@[simp] theorem timerInit_groups (s : State) : (s.timerInit).groups = s.groups := rfl
@[simp] theorem timerInit_spg (s : State) : (s.timerInit).spg = s.spg := rfl
@[simp] theorem timerInit_bound (s : State) : (s.timerInit).bound = s.bound := rfl
@[simp] theorem timerInit_timer (s : State) : (s.timerInit).timer = { s.timer with running := Config.initRunning s.draws, period := Config.initPeriod s.draws } := rfl
@[simp] theorem timerInit_status (s : State) : (s.timerInit).status = s.status := rfl
@[simp] theorem timerInit_result (s : State) : (s.timerInit).result = s.result := rfl
@[simp] theorem timerInit_cp (s : State) : (s.timerInit).cp = s.cp := rfl
@[simp] theorem timerInit_params (s : State) : (s.timerInit).params = s.params := rfl
@[simp] theorem timerInit_cmds (s : State) : (s.timerInit).cmds = s.cmds := rfl
@[simp] theorem timerInit_sched (s : State) : (s.timerInit).sched = s.sched := rfl
@[simp] theorem timerInit_draws (s : State) : (s.timerInit).draws = s.draws + 1 := rfl
@[simp] theorem timerInit_group (s : State) (j : Index) : (s.timerInit).group j = s.group j := rfl
@[simp] theorem timerInit_gen (s : State) (j : Index) : (s.timerInit).gen j = s.gen j := rfl

@[simp] theorem timerSetPeriod_mem (s : State) (p : Word) : (s.timerSetPeriod p).mem = s.mem := rfl
@[simp] theorem timerSetPeriod_ie (s : State) (p : Word) : (s.timerSetPeriod p).ie = s.ie := rfl
@[simp] theorem timerSetPeriod_groups (s : State) (p : Word) : (s.timerSetPeriod p).groups = s.groups := rfl
@[simp] theorem timerSetPeriod_spg (s : State) (p : Word) : (s.timerSetPeriod p).spg = s.spg := rfl
@[simp] theorem timerSetPeriod_bound (s : State) (p : Word) : (s.timerSetPeriod p).bound = s.bound := rfl
@[simp] theorem timerSetPeriod_timer (s : State) (p : Word) : (s.timerSetPeriod p).timer = { s.timer with period := some p } := rfl
@[simp] theorem timerSetPeriod_status (s : State) (p : Word) : (s.timerSetPeriod p).status = s.status := rfl
@[simp] theorem timerSetPeriod_result (s : State) (p : Word) : (s.timerSetPeriod p).result = s.result := rfl
@[simp] theorem timerSetPeriod_cp (s : State) (p : Word) : (s.timerSetPeriod p).cp = s.cp := rfl
@[simp] theorem timerSetPeriod_params (s : State) (p : Word) : (s.timerSetPeriod p).params = s.params := rfl
@[simp] theorem timerSetPeriod_cmds (s : State) (p : Word) : (s.timerSetPeriod p).cmds = s.cmds := rfl
@[simp] theorem timerSetPeriod_sched (s : State) (p : Word) : (s.timerSetPeriod p).sched = s.sched := rfl
@[simp] theorem timerSetPeriod_draws (s : State) (p : Word) : (s.timerSetPeriod p).draws = s.draws := rfl
@[simp] theorem timerSetPeriod_group (s : State) (p : Word) (j : Index) : (s.timerSetPeriod p).group j = s.group j := rfl
@[simp] theorem timerSetPeriod_gen (s : State) (p : Word) (j : Index) : (s.timerSetPeriod p).gen j = s.gen j := rfl

@[simp] theorem timerAttach_mem (s : State) (h : Handler) : (s.timerAttach h).mem = s.mem := rfl
@[simp] theorem timerAttach_ie (s : State) (h : Handler) : (s.timerAttach h).ie = s.ie := rfl
@[simp] theorem timerAttach_groups (s : State) (h : Handler) : (s.timerAttach h).groups = s.groups := rfl
@[simp] theorem timerAttach_spg (s : State) (h : Handler) : (s.timerAttach h).spg = s.spg := rfl
@[simp] theorem timerAttach_bound (s : State) (h : Handler) : (s.timerAttach h).bound = s.bound := rfl
@[simp] theorem timerAttach_timer (s : State) (h : Handler) : (s.timerAttach h).timer = { s.timer with handler := some h } := rfl
@[simp] theorem timerAttach_status (s : State) (h : Handler) : (s.timerAttach h).status = s.status := rfl
@[simp] theorem timerAttach_result (s : State) (h : Handler) : (s.timerAttach h).result = s.result := rfl
@[simp] theorem timerAttach_cp (s : State) (h : Handler) : (s.timerAttach h).cp = s.cp := rfl
@[simp] theorem timerAttach_params (s : State) (h : Handler) : (s.timerAttach h).params = s.params := rfl
@[simp] theorem timerAttach_cmds (s : State) (h : Handler) : (s.timerAttach h).cmds = s.cmds := rfl
@[simp] theorem timerAttach_sched (s : State) (h : Handler) : (s.timerAttach h).sched = s.sched := rfl
@[simp] theorem timerAttach_draws (s : State) (h : Handler) : (s.timerAttach h).draws = s.draws := rfl
@[simp] theorem timerAttach_group (s : State) (h : Handler) (j : Index) : (s.timerAttach h).group j = s.group j := rfl
@[simp] theorem timerAttach_gen (s : State) (h : Handler) (j : Index) : (s.timerAttach h).gen j = s.gen j := rfl

@[simp] theorem timerStart_mem (s : State) : (s.timerStart).mem = s.mem := rfl
@[simp] theorem timerStart_ie (s : State) : (s.timerStart).ie = s.ie := rfl
@[simp] theorem timerStart_groups (s : State) : (s.timerStart).groups = s.groups := rfl
@[simp] theorem timerStart_spg (s : State) : (s.timerStart).spg = s.spg := rfl
@[simp] theorem timerStart_bound (s : State) : (s.timerStart).bound = s.bound := rfl
@[simp] theorem timerStart_timer (s : State) : (s.timerStart).timer = { s.timer with running := true } := rfl
@[simp] theorem timerStart_status (s : State) : (s.timerStart).status = s.status := rfl
@[simp] theorem timerStart_result (s : State) : (s.timerStart).result = s.result := rfl
@[simp] theorem timerStart_cp (s : State) : (s.timerStart).cp = s.cp := rfl
@[simp] theorem timerStart_params (s : State) : (s.timerStart).params = s.params := rfl
@[simp] theorem timerStart_cmds (s : State) : (s.timerStart).cmds = s.cmds := rfl
@[simp] theorem timerStart_sched (s : State) : (s.timerStart).sched = s.sched := rfl
@[simp] theorem timerStart_draws (s : State) : (s.timerStart).draws = s.draws := rfl
@[simp] theorem timerStart_group (s : State) (j : Index) : (s.timerStart).group j = s.group j := rfl
@[simp] theorem timerStart_gen (s : State) (j : Index) : (s.timerStart).gen j = s.gen j := rfl

@[simp] theorem timerStop_mem (s : State) : (s.timerStop).mem = s.mem := rfl
@[simp] theorem timerStop_ie (s : State) : (s.timerStop).ie = s.ie := rfl
@[simp] theorem timerStop_groups (s : State) : (s.timerStop).groups = s.groups := rfl
@[simp] theorem timerStop_spg (s : State) : (s.timerStop).spg = s.spg := rfl
@[simp] theorem timerStop_bound (s : State) : (s.timerStop).bound = s.bound := rfl
@[simp] theorem timerStop_timer (s : State) : (s.timerStop).timer = { s.timer with running := false } := rfl
@[simp] theorem timerStop_status (s : State) : (s.timerStop).status = s.status := rfl
@[simp] theorem timerStop_result (s : State) : (s.timerStop).result = s.result := rfl
@[simp] theorem timerStop_cp (s : State) : (s.timerStop).cp = s.cp := rfl
@[simp] theorem timerStop_params (s : State) : (s.timerStop).params = s.params := rfl
@[simp] theorem timerStop_cmds (s : State) : (s.timerStop).cmds = s.cmds := rfl
@[simp] theorem timerStop_sched (s : State) : (s.timerStop).sched = s.sched := rfl
@[simp] theorem timerStop_draws (s : State) : (s.timerStop).draws = s.draws := rfl
@[simp] theorem timerStop_group (s : State) (j : Index) : (s.timerStop).group j = s.group j := rfl
@[simp] theorem timerStop_gen (s : State) (j : Index) : (s.timerStop).gen j = s.gen j := rfl

@[simp] theorem enterHandler_mem (s : State) : (s.enterHandler).mem = s.mem := rfl
@[simp] theorem enterHandler_ie (s : State) : (s.enterHandler).ie = false := rfl
@[simp] theorem enterHandler_groups (s : State) : (s.enterHandler).groups = s.groups := rfl
@[simp] theorem enterHandler_spg (s : State) : (s.enterHandler).spg = s.spg := rfl
@[simp] theorem enterHandler_bound (s : State) : (s.enterHandler).bound = s.bound := rfl
@[simp] theorem enterHandler_timer (s : State) : (s.enterHandler).timer = { s.timer with pending := false } := rfl
@[simp] theorem enterHandler_status (s : State) : (s.enterHandler).status = s.status := rfl
@[simp] theorem enterHandler_result (s : State) : (s.enterHandler).result = s.result := rfl
@[simp] theorem enterHandler_cp (s : State) : (s.enterHandler).cp = s.cp := rfl
@[simp] theorem enterHandler_params (s : State) : (s.enterHandler).params = s.params := rfl
@[simp] theorem enterHandler_cmds (s : State) : (s.enterHandler).cmds = s.cmds := rfl
@[simp] theorem enterHandler_sched (s : State) : (s.enterHandler).sched = s.sched := rfl
@[simp] theorem enterHandler_draws (s : State) : (s.enterHandler).draws = s.draws := rfl
@[simp] theorem enterHandler_group (s : State) (j : Index) : (s.enterHandler).group j = s.group j := rfl
@[simp] theorem enterHandler_gen (s : State) (j : Index) : (s.enterHandler).gen j = s.gen j := rfl

@[simp] theorem leaveHandler_mem (s : State) : (s.leaveHandler).mem = s.mem := rfl
@[simp] theorem leaveHandler_ie (s : State) : (s.leaveHandler).ie = true := rfl
@[simp] theorem leaveHandler_groups (s : State) : (s.leaveHandler).groups = s.groups := rfl
@[simp] theorem leaveHandler_spg (s : State) : (s.leaveHandler).spg = s.spg := rfl
@[simp] theorem leaveHandler_bound (s : State) : (s.leaveHandler).bound = s.bound := rfl
@[simp] theorem leaveHandler_timer (s : State) : (s.leaveHandler).timer = s.timer := rfl
@[simp] theorem leaveHandler_status (s : State) : (s.leaveHandler).status = s.status := rfl
@[simp] theorem leaveHandler_result (s : State) : (s.leaveHandler).result = s.result := rfl
@[simp] theorem leaveHandler_cp (s : State) : (s.leaveHandler).cp = s.cp := rfl
@[simp] theorem leaveHandler_params (s : State) : (s.leaveHandler).params = s.params := rfl
@[simp] theorem leaveHandler_cmds (s : State) : (s.leaveHandler).cmds = s.cmds := rfl
@[simp] theorem leaveHandler_sched (s : State) : (s.leaveHandler).sched = s.sched := rfl
@[simp] theorem leaveHandler_draws (s : State) : (s.leaveHandler).draws = s.draws := rfl
@[simp] theorem leaveHandler_group (s : State) (j : Index) : (s.leaveHandler).group j = s.group j := rfl
@[simp] theorem leaveHandler_gen (s : State) (j : Index) : (s.leaveHandler).gen j = s.gen j := rfl

@[simp] theorem illegal_mem (s : State) : (s.illegal).mem = s.mem := rfl
@[simp] theorem illegal_ie (s : State) : (s.illegal).ie = s.ie := rfl
@[simp] theorem illegal_groups (s : State) : (s.illegal).groups = s.groups := rfl
@[simp] theorem illegal_spg (s : State) : (s.illegal).spg = s.spg := rfl
@[simp] theorem illegal_bound (s : State) : (s.illegal).bound = s.bound := rfl
@[simp] theorem illegal_timer (s : State) : (s.illegal).timer = s.timer := rfl
@[simp] theorem illegal_status (s : State) : (s.illegal).status = .illegal := rfl
@[simp] theorem illegal_result (s : State) : (s.illegal).result = 0 := rfl
@[simp] theorem illegal_cp (s : State) : (s.illegal).cp = ⟨s.cp.k + 1, 1⟩ := rfl
@[simp] theorem illegal_params (s : State) : (s.illegal).params = s.params := rfl
@[simp] theorem illegal_cmds (s : State) : (s.illegal).cmds = s.cmds := rfl
@[simp] theorem illegal_sched (s : State) : (s.illegal).sched = s.sched := rfl
@[simp] theorem illegal_draws (s : State) : (s.illegal).draws = s.draws := rfl
@[simp] theorem illegal_group (s : State) (j : Index) : (s.illegal).group j = s.group j := rfl
@[simp] theorem illegal_gen (s : State) (j : Index) : (s.illegal).gen j = s.gen j := rfl

@[simp] theorem answered_mem (s : State) (v : Word) : (s.answered v).mem = s.mem := rfl
@[simp] theorem answered_ie (s : State) (v : Word) : (s.answered v).ie = s.ie := rfl
@[simp] theorem answered_groups (s : State) (v : Word) : (s.answered v).groups = s.groups := rfl
@[simp] theorem answered_spg (s : State) (v : Word) : (s.answered v).spg = s.spg := rfl
@[simp] theorem answered_bound (s : State) (v : Word) : (s.answered v).bound = s.bound := rfl
@[simp] theorem answered_timer (s : State) (v : Word) : (s.answered v).timer = s.timer := rfl
@[simp] theorem answered_status (s : State) (v : Word) : (s.answered v).status = .ok := rfl
@[simp] theorem answered_result (s : State) (v : Word) : (s.answered v).result = v := rfl
@[simp] theorem answered_cp (s : State) (v : Word) : (s.answered v).cp = ⟨s.cp.k + 1, 1⟩ := rfl
@[simp] theorem answered_params (s : State) (v : Word) : (s.answered v).params = s.params := rfl
@[simp] theorem answered_cmds (s : State) (v : Word) : (s.answered v).cmds = s.cmds := rfl
@[simp] theorem answered_sched (s : State) (v : Word) : (s.answered v).sched = s.sched := rfl
@[simp] theorem answered_draws (s : State) (v : Word) : (s.answered v).draws = s.draws := rfl
@[simp] theorem answered_group (s : State) (v : Word) (j : Index) : (s.answered v).group j = s.group j := rfl
@[simp] theorem answered_gen (s : State) (v : Word) (j : Index) : (s.answered v).gen j = s.gen j := rfl

@[simp] theorem afterFetch_mem (s : State) (ws : List Word) : (s.afterFetch ws).mem = s.mem := rfl
@[simp] theorem afterFetch_ie (s : State) (ws : List Word) : (s.afterFetch ws).ie = s.ie := rfl
@[simp] theorem afterFetch_groups (s : State) (ws : List Word) : (s.afterFetch ws).groups = s.groups := rfl
@[simp] theorem afterFetch_spg (s : State) (ws : List Word) : (s.afterFetch ws).spg = s.spg := rfl
@[simp] theorem afterFetch_bound (s : State) (ws : List Word) : (s.afterFetch ws).bound = s.bound := rfl
@[simp] theorem afterFetch_timer (s : State) (ws : List Word) : (s.afterFetch ws).timer = s.timer := rfl
@[simp] theorem afterFetch_status (s : State) (ws : List Word) : (s.afterFetch ws).status = s.status := rfl
@[simp] theorem afterFetch_result (s : State) (ws : List Word) : (s.afterFetch ws).result = s.result := rfl
@[simp] theorem afterFetch_cp (s : State) (ws : List Word) : (s.afterFetch ws).cp = s.cp := rfl
@[simp] theorem afterFetch_params (s : State) (ws : List Word) : (s.afterFetch ws).params = s.params := rfl
@[simp] theorem afterFetch_cmds (s : State) (ws : List Word) : (s.afterFetch ws).cmds = ws := rfl
@[simp] theorem afterFetch_sched (s : State) (ws : List Word) : (s.afterFetch ws).sched = s.sched.tail := rfl
@[simp] theorem afterFetch_draws (s : State) (ws : List Word) : (s.afterFetch ws).draws = s.draws := rfl
@[simp] theorem afterFetch_group (s : State) (ws : List Word) (j : Index) : (s.afterFetch ws).group j = s.group j := rfl
@[simp] theorem afterFetch_gen (s : State) (ws : List Word) (j : Index) : (s.afterFetch ws).gen j = s.gen j := rfl

@[simp] theorem putGroup_mem (s : State) (k : Index) (G : PinGroup) : (s.putGroup k G).mem = s.mem := rfl
@[simp] theorem putGroup_ie (s : State) (k : Index) (G : PinGroup) : (s.putGroup k G).ie = s.ie := rfl
@[simp] theorem putGroup_spg (s : State) (k : Index) (G : PinGroup) : (s.putGroup k G).spg = s.spg := rfl
@[simp] theorem putGroup_bound (s : State) (k : Index) (G : PinGroup) : (s.putGroup k G).bound = s.bound := rfl
@[simp] theorem putGroup_timer (s : State) (k : Index) (G : PinGroup) : (s.putGroup k G).timer = s.timer := rfl
@[simp] theorem putGroup_status (s : State) (k : Index) (G : PinGroup) : (s.putGroup k G).status = s.status := rfl
@[simp] theorem putGroup_result (s : State) (k : Index) (G : PinGroup) : (s.putGroup k G).result = s.result := rfl
@[simp] theorem putGroup_cp (s : State) (k : Index) (G : PinGroup) : (s.putGroup k G).cp = s.cp := rfl
@[simp] theorem putGroup_params (s : State) (k : Index) (G : PinGroup) : (s.putGroup k G).params = s.params := rfl
@[simp] theorem putGroup_cmds (s : State) (k : Index) (G : PinGroup) : (s.putGroup k G).cmds = s.cmds := rfl
@[simp] theorem putGroup_sched (s : State) (k : Index) (G : PinGroup) : (s.putGroup k G).sched = s.sched := rfl
@[simp] theorem putGroup_draws (s : State) (k : Index) (G : PinGroup) : (s.putGroup k G).draws = s.draws := rfl
@[simp] theorem putGroup_gen (s : State) (k : Index) (G : PinGroup) (j : Index) : (s.putGroup k G).gen j = s.gen j := rfl

@[simp] theorem putGen_mem (s : State) (k : Index) (S : Generator) : (s.putGen k S).mem = s.mem := rfl
@[simp] theorem putGen_ie (s : State) (k : Index) (S : Generator) : (s.putGen k S).ie = s.ie := rfl
@[simp] theorem putGen_groups (s : State) (k : Index) (S : Generator) : (s.putGen k S).groups = s.groups := rfl
@[simp] theorem putGen_bound (s : State) (k : Index) (S : Generator) : (s.putGen k S).bound = s.bound := rfl
@[simp] theorem putGen_timer (s : State) (k : Index) (S : Generator) : (s.putGen k S).timer = s.timer := rfl
@[simp] theorem putGen_status (s : State) (k : Index) (S : Generator) : (s.putGen k S).status = s.status := rfl
@[simp] theorem putGen_result (s : State) (k : Index) (S : Generator) : (s.putGen k S).result = s.result := rfl
@[simp] theorem putGen_cp (s : State) (k : Index) (S : Generator) : (s.putGen k S).cp = s.cp := rfl
@[simp] theorem putGen_params (s : State) (k : Index) (S : Generator) : (s.putGen k S).params = s.params := rfl
@[simp] theorem putGen_cmds (s : State) (k : Index) (S : Generator) : (s.putGen k S).cmds = s.cmds := rfl
@[simp] theorem putGen_sched (s : State) (k : Index) (S : Generator) : (s.putGen k S).sched = s.sched := rfl
@[simp] theorem putGen_draws (s : State) (k : Index) (S : Generator) : (s.putGen k S).draws = s.draws := rfl
@[simp] theorem putGen_group (s : State) (k : Index) (S : Generator) (j : Index) : (s.putGen k S).group j = s.group j := rfl

@[simp] theorem updateSpg_mem (s : State) (k : Index) (f : Generator → Generator) : (s.updateSpg k f).mem = s.mem := rfl
@[simp] theorem updateSpg_ie (s : State) (k : Index) (f : Generator → Generator) : (s.updateSpg k f).ie = s.ie := rfl
@[simp] theorem updateSpg_groups (s : State) (k : Index) (f : Generator → Generator) : (s.updateSpg k f).groups = s.groups := rfl
@[simp] theorem updateSpg_bound (s : State) (k : Index) (f : Generator → Generator) : (s.updateSpg k f).bound = s.bound := rfl
@[simp] theorem updateSpg_timer (s : State) (k : Index) (f : Generator → Generator) : (s.updateSpg k f).timer = s.timer := rfl
@[simp] theorem updateSpg_status (s : State) (k : Index) (f : Generator → Generator) : (s.updateSpg k f).status = s.status := rfl
@[simp] theorem updateSpg_result (s : State) (k : Index) (f : Generator → Generator) : (s.updateSpg k f).result = s.result := rfl
@[simp] theorem updateSpg_cp (s : State) (k : Index) (f : Generator → Generator) : (s.updateSpg k f).cp = s.cp := rfl
@[simp] theorem updateSpg_params (s : State) (k : Index) (f : Generator → Generator) : (s.updateSpg k f).params = s.params := rfl
@[simp] theorem updateSpg_cmds (s : State) (k : Index) (f : Generator → Generator) : (s.updateSpg k f).cmds = s.cmds := rfl
@[simp] theorem updateSpg_sched (s : State) (k : Index) (f : Generator → Generator) : (s.updateSpg k f).sched = s.sched := rfl
@[simp] theorem updateSpg_draws (s : State) (k : Index) (f : Generator → Generator) : (s.updateSpg k f).draws = s.draws := rfl
@[simp] theorem updateSpg_group (s : State) (k : Index) (f : Generator → Generator) (j : Index) : (s.updateSpg k f).group j = s.group j := rfl

@[simp] theorem setTicks_mem (s : State) (k : Index) (r : Word) : (s.setTicks k r).mem = s.mem := rfl
@[simp] theorem setTicks_ie (s : State) (k : Index) (r : Word) : (s.setTicks k r).ie = s.ie := rfl
@[simp] theorem setTicks_groups (s : State) (k : Index) (r : Word) : (s.setTicks k r).groups = s.groups := rfl
@[simp] theorem setTicks_bound (s : State) (k : Index) (r : Word) : (s.setTicks k r).bound = s.bound := rfl
@[simp] theorem setTicks_timer (s : State) (k : Index) (r : Word) : (s.setTicks k r).timer = s.timer := rfl
@[simp] theorem setTicks_status (s : State) (k : Index) (r : Word) : (s.setTicks k r).status = s.status := rfl
@[simp] theorem setTicks_result (s : State) (k : Index) (r : Word) : (s.setTicks k r).result = s.result := rfl
@[simp] theorem setTicks_cp (s : State) (k : Index) (r : Word) : (s.setTicks k r).cp = s.cp := rfl
@[simp] theorem setTicks_params (s : State) (k : Index) (r : Word) : (s.setTicks k r).params = s.params := rfl
@[simp] theorem setTicks_cmds (s : State) (k : Index) (r : Word) : (s.setTicks k r).cmds = s.cmds := rfl
@[simp] theorem setTicks_sched (s : State) (k : Index) (r : Word) : (s.setTicks k r).sched = s.sched := rfl
@[simp] theorem setTicks_draws (s : State) (k : Index) (r : Word) : (s.setTicks k r).draws = s.draws := rfl
@[simp] theorem setTicks_group (s : State) (k : Index) (r : Word) (j : Index) : (s.setTicks k r).group j = s.group j := rfl

@[simp] theorem setPaused_mem (s : State) (k : Index) (b : Bool) : (s.setPaused k b).mem = s.mem := rfl
@[simp] theorem setPaused_ie (s : State) (k : Index) (b : Bool) : (s.setPaused k b).ie = s.ie := rfl
@[simp] theorem setPaused_groups (s : State) (k : Index) (b : Bool) : (s.setPaused k b).groups = s.groups := rfl
@[simp] theorem setPaused_bound (s : State) (k : Index) (b : Bool) : (s.setPaused k b).bound = s.bound := rfl
@[simp] theorem setPaused_timer (s : State) (k : Index) (b : Bool) : (s.setPaused k b).timer = s.timer := rfl
@[simp] theorem setPaused_status (s : State) (k : Index) (b : Bool) : (s.setPaused k b).status = s.status := rfl
@[simp] theorem setPaused_result (s : State) (k : Index) (b : Bool) : (s.setPaused k b).result = s.result := rfl
@[simp] theorem setPaused_cp (s : State) (k : Index) (b : Bool) : (s.setPaused k b).cp = s.cp := rfl
@[simp] theorem setPaused_params (s : State) (k : Index) (b : Bool) : (s.setPaused k b).params = s.params := rfl
@[simp] theorem setPaused_cmds (s : State) (k : Index) (b : Bool) : (s.setPaused k b).cmds = s.cmds := rfl
@[simp] theorem setPaused_sched (s : State) (k : Index) (b : Bool) : (s.setPaused k b).sched = s.sched := rfl
@[simp] theorem setPaused_draws (s : State) (k : Index) (b : Bool) : (s.setPaused k b).draws = s.draws := rfl
@[simp] theorem setPaused_group (s : State) (k : Index) (b : Bool) (j : Index) : (s.setPaused k b).group j = s.group j := rfl

@[simp] theorem setPeriod_mem (s : State) (k : Index) (p : Word) : (s.setPeriod k p).mem = s.mem := rfl
@[simp] theorem setPeriod_ie (s : State) (k : Index) (p : Word) : (s.setPeriod k p).ie = s.ie := rfl
@[simp] theorem setPeriod_groups (s : State) (k : Index) (p : Word) : (s.setPeriod k p).groups = s.groups := rfl
@[simp] theorem setPeriod_bound (s : State) (k : Index) (p : Word) : (s.setPeriod k p).bound = s.bound := rfl
@[simp] theorem setPeriod_timer (s : State) (k : Index) (p : Word) : (s.setPeriod k p).timer = s.timer := rfl
@[simp] theorem setPeriod_status (s : State) (k : Index) (p : Word) : (s.setPeriod k p).status = s.status := rfl
@[simp] theorem setPeriod_result (s : State) (k : Index) (p : Word) : (s.setPeriod k p).result = s.result := rfl
@[simp] theorem setPeriod_cp (s : State) (k : Index) (p : Word) : (s.setPeriod k p).cp = s.cp := rfl
@[simp] theorem setPeriod_params (s : State) (k : Index) (p : Word) : (s.setPeriod k p).params = s.params := rfl
@[simp] theorem setPeriod_cmds (s : State) (k : Index) (p : Word) : (s.setPeriod k p).cmds = s.cmds := rfl
@[simp] theorem setPeriod_sched (s : State) (k : Index) (p : Word) : (s.setPeriod k p).sched = s.sched := rfl
@[simp] theorem setPeriod_draws (s : State) (k : Index) (p : Word) : (s.setPeriod k p).draws = s.draws := rfl
@[simp] theorem setPeriod_group (s : State) (k : Index) (p : Word) (j : Index) : (s.setPeriod k p).group j = s.group j := rfl

theorem putGroup_group (s : State) (k : Index) (G : PinGroup) (j : Index) :
    (s.putGroup k G).group j = if k = j then some G else s.group j := get_set ..

theorem putGen_gen (s : State) (k : Index) (S : Generator) (j : Index) :
    (s.putGen k S).gen j = if k = j then some S else s.gen j := get_set ..

theorem updateSpg_gen (s : State) (k : Index) (f : Generator → Generator) (j : Index) :
    (s.updateSpg k f).gen j = if k = j then (s.gen j).map f else s.gen j := by
  rw [show (s.updateSpg k f).gen j = if k = j then (s.gen k).map f else s.gen j from get_set ..]
  by_cases h : k = j
  · subst h; rfl
  · simp [h]

theorem setTicks_gen (s : State) (k : Index) (r : Word) (j : Index) :
    (s.setTicks k r).gen j = if k = j then (s.gen j).map fun S => { S with remainingTicks := r } else s.gen j :=
  updateSpg_gen ..

theorem setPaused_gen (s : State) (k : Index) (b : Bool) (j : Index) :
    (s.setPaused k b).gen j = if k = j then (s.gen j).map fun S => { S with paused := b } else s.gen j :=
  updateSpg_gen ..

theorem setPeriod_gen (s : State) (k : Index) (p : Word) (j : Index) :
    (s.setPeriod k p).gen j = if k = j then (s.gen j).map fun S => { S with period := some p } else s.gen j :=
  updateSpg_gen ..

end State

end Sys2Proof.Machine
end

