-- ==== Sys2Proof/Laws/Ops.lean ====
section
/-! SUPPORT. What the shared operations can do: sequencing, instances, registers, preconditions. -/

namespace Sys2Proof

@[simp] theorem PinCap.narrow_bit (w : Nat) (c : PinCap) : (c.narrow w).bit = c.bit := rfl

/-- Every address of a capability is an `ADDRW`-bit value (R31). -/
theorem Params.resolve_lt (p : Params) (n : PinNo) : (p.resolve n).value < 2 ^ p.addrWidth ∧
    (p.resolve n).state < 2 ^ p.addrWidth ∧ (p.resolve n).dir < 2 ^ p.addrWidth :=
  ⟨Nat.mod_lt _ (Nat.two_pow_pos _), Nat.mod_lt _ (Nat.two_pow_pos _), Nat.mod_lt _ (Nat.two_pow_pos _)⟩

/-- The capabilities are what the pin numbers resolve to. -/
theorem Params.mem_capabilities {p : Params} {c : PinCap} : c ∈ p.capabilities ↔ ∃ n, p.resolve n = c := by
  unfold Params.capabilities
  rw [List.mem_map]
  constructor
  · rintro ⟨d, hd, rfl⟩
    obtain ⟨k, hk, rfl⟩ := List.getElem_of_mem hd
    have hk' : k < 256 := by simpa using hk
    exact ⟨BitVec.ofNat 8 k, by simp [Params.resolve, Nat.mod_eq_of_lt hk']⟩
  · rintro ⟨n, rfl⟩
    exact ⟨p.platform[n.toNat]'n.isLt, by simp, rfl⟩

theorem Params.isStorage_state (p : Params) (n : PinNo) : p.isStorage (p.resolve n).state = true :=
  List.any_eq_true.mpr ⟨_, Params.mem_capabilities.mpr ⟨n, rfl⟩, by simp⟩

theorem Params.isStorage_dir (p : Params) (n : PinNo) : p.isStorage (p.resolve n).dir = true :=
  List.any_eq_true.mpr ⟨_, Params.mem_capabilities.mpr ⟨n, rfl⟩, by simp⟩

theorem Params.isValueReg_value (p : Params) (n : PinNo) : p.isValueReg (p.resolve n).value = true :=
  List.any_eq_true.mpr ⟨_, Params.mem_capabilities.mpr ⟨n, rfl⟩, by simp⟩

theorem Params.exists_of_isStorage {p : Params} {a : Addr} (h : p.isStorage a = true) :
    ∃ n, (p.resolve n).state = a ∨ (p.resolve n).dir = a := by
  obtain ⟨c, hc, h⟩ := List.any_eq_true.mp h
  obtain ⟨n, rfl⟩ := Params.mem_capabilities.mp hc
  exact ⟨n, by simpa using h⟩

/-- On a well-formed platform a STATE address is that of one port only (D7). -/
theorem Params.WfPlatform.state_eq_iff {p : Params} (h : p.WfPlatform) (m n : PinNo) :
    (p.resolve m).state = (p.resolve n).state ↔ (p.resolve m).dir = (p.resolve n).dir :=
  ⟨fun e => by_contra fun d => (h.portsApart m n d).1 e, fun e => (h.samePort m n e).1⟩

/-- On a well-formed platform a VALUE address is that of one port only (D7). -/
theorem Params.WfPlatform.value_eq_iff {p : Params} (h : p.WfPlatform) (m n : PinNo) :
    (p.resolve m).value = (p.resolve n).value ↔ (p.resolve m).dir = (p.resolve n).dir :=
  ⟨fun e => by_contra fun d => (h.portsApart m n d).2 e, fun e => (h.samePort m n e).2⟩

/-- No register stands at an address wider than `ADDRW`. -/
theorem Params.isStorage_lt {p : Params} {a : Addr} (h : p.isStorage a = true) : a < 2 ^ p.addrWidth := by
  obtain ⟨n, rfl | rfl⟩ := Params.exists_of_isStorage h
  · exact (p.resolve_lt n).2.1
  · exact (p.resolve_lt n).2.2

namespace Machine

@[simp] theorem Res.andThen_next (s : State) (f : State → Res) : Res.andThen (.next s) f = f s := rfl
@[simp] theorem Res.andThen_fault (e : Fault) (f : State → Res) : Res.andThen (.fault e) f = .fault e := rfl
@[simp] theorem Res.andThen_refused (e : Refusal) (f : State → Res) : Res.andThen (.refused e) f = .refused e := rfl

/-- From a completed sequence, its two parts. -/
theorem Res.andThen_eq_next {r : Res} {f : State → Res} {t : State} :
    r.andThen f = .next t ↔ ∃ s, r = .next s ∧ f s = .next t := by
  cases r <;> simp [Res.andThen]

theorem Res.andThen_assoc (r : Res) (f g : State → Res) :
    (r.andThen f).andThen g = r.andThen fun s => (f s).andThen g := by
  cases r <;> rfl

namespace State

theorem readReg_next {s : State} {a : Addr} (h : s.params.isStorage a = true) (k : Byte → Res) :
    s.readReg a k = k (s.mem.read a) := if_pos h

theorem writeReg_next {s : State} {a : Addr} (h : s.params.isStorage a = true) (v : Byte) :
    s.writeReg a v = .next (s.setMem (s.mem.write a v)) := if_pos h

theorem readReg_eq_next {s t : State} {a : Addr} {k : Byte → Res} :
    s.readReg a k = .next t ↔ s.params.isStorage a = true ∧ k (s.mem.read a) = .next t := by
  unfold readReg; split <;> simp_all

theorem writeReg_eq_next {s t : State} {a : Addr} {v : Byte} :
    s.writeReg a v = .next t ↔ s.params.isStorage a = true ∧ t = s.setMem (s.mem.write a v) := by
  by_cases h : s.params.isStorage a = true
  · rw [writeReg_next h]; simp only [Host.Outcome.next.injEq, h, true_and]; exact eq_comm
  · simp [writeReg, h]

theorem readValue_eq_next {s t : State} {a : Addr} {k : Byte → State → Res} :
    s.readValue a k = .next t ↔
      s.params.isValueReg a = true ∧ k (Config.valueDraw a s.draws) (s.setDraws (s.draws + 1)) = .next t := by
  unfold readValue; split <;> simp_all

theorem withGroup_eq_next {s t : State} {g : Index} {k : PinGroup → Res} :
    s.withGroup g k = .next t ↔ ∃ G, s.group g = some G ∧ k G = .next t := by
  unfold withGroup; split <;> simp_all

theorem withValidGroup_eq_next {s t : State} {g : Index} {k : PinGroup → Res} :
    s.withValidGroup g k = .next t ↔ ∃ G, s.group g = some G ∧ G.valid = true ∧ k G = .next t := by
  unfold withValidGroup
  rw [withGroup_eq_next]
  refine exists_congr fun G => ?_
  cases G.valid <;> simp

theorem withSpg_eq_next {s t : State} {i : Index} {k : Generator → Res} :
    s.withSpg i k = .next t ↔ ∃ S, s.gen i = some S ∧ k S = .next t := by
  unfold withSpg; split <;> simp_all

theorem withInitialised_eq_next {s t : State} {i : Index} {k : Generator → Res} :
    s.withInitialised i k = .next t ↔ ∃ S, s.gen i = some S ∧ S.initialised = true ∧ k S = .next t := by
  unfold withInitialised
  rw [withSpg_eq_next]
  refine exists_congr fun S => ?_
  cases S.initialised <;> simp

theorem withValidGroup_some {s : State} {g : Index} {G : PinGroup} (h : s.group g = some G) (hv : G.valid = true)
    (k : PinGroup → Res) : s.withValidGroup g k = k G := by simp [withValidGroup, withGroup, h, hv]

theorem withSpg_some {s : State} {i : Index} {S : Generator} (h : s.gen i = some S) (k : Generator → Res) :
    s.withSpg i k = k S := by simp [withSpg, h]

theorem withInitialised_some {s : State} {i : Index} {S : Generator} (h : s.gen i = some S)
    (hi : S.initialised = true) (k : Generator → Res) : s.withInitialised i k = k S := by
  simp [withInitialised, withSpg, h, hi]

theorem done_eq (s : State) (v : Word) : s.done v = .next (s.answered v) := rfl

theorem done_eq_next {s t : State} {v : Word} : s.done v = .next t ↔ t = s.answered v := by
  rw [done_eq, Host.Outcome.next.injEq]; exact eq_comm

end State

theorem whenStepsFit_eq_next {steps : Word} {k : Res} {t : State} :
    whenStepsFit steps k = .next t ↔ stepsFit steps = true ∧ k = .next t := by
  unfold whenStepsFit; split <;> simp_all

end Machine

end Sys2Proof
end

