-- ==== Sys2Proof/Laws/Interrupts.lean ====
section
/-! SUPPORT. What the events at a micro-step boundary can do: at most handler runs, the latch, and the schedule used up. -/

namespace Sys2Proof.Machine

/-! ## The counter -/

theorem isStepping_iff {r : Word} : isStepping r = true ↔ 0 < r.toInt := by simp [isStepping]

/-- One tick less is one less while the counter is positive (R171). -/
theorem toInt_oneTickLess {r : Word} (h : isStepping r = true) : (oneTickLess r).toInt = r.toInt - 1 := by
  rw [isStepping_iff] at h
  have := BitVec.toInt_lt (x := r)
  rw [oneTickLess, BitVec.toInt_ofInt_eq_self] <;> omega

namespace Generator

@[simp] theorem lowered_zero (S : Generator) : S.lowered 0 = S := rfl

@[simp] theorem map_lowered_zero (o : Option Generator) : o.map (Generator.lowered 0) = o := by cases o <;> rfl

theorem lowered_succ (n : Nat) (S : Generator) : S.lowered (n + 1) =
    if isStepping S.remainingTicks then
      Generator.lowered n { S with remainingTicks := oneTickLess S.remainingTicks }
    else S := rfl

/-- Handler runs touch the counter only. -/
theorem lowered_eq (n : Nat) (S : Generator) : S.lowered n = { S with remainingTicks := (S.lowered n).remainingTicks } := by
  induction n generalizing S with
  | zero => rfl
  | succ n ih =>
    rw [lowered_succ]
    split
    · rw [ih]
    · rfl

@[simp] theorem lowered_initialised (n : Nat) (S : Generator) : (S.lowered n).initialised = S.initialised := by
  rw [lowered_eq]

@[simp] theorem lowered_dirCap (n : Nat) (S : Generator) : (S.lowered n).dirCap = S.dirCap := by rw [lowered_eq]

@[simp] theorem lowered_stepCap (n : Nat) (S : Generator) : (S.lowered n).stepCap = S.stepCap := by rw [lowered_eq]

@[simp] theorem lowered_paused (n : Nat) (S : Generator) : (S.lowered n).paused = S.paused := by rw [lowered_eq]

@[simp] theorem lowered_period (n : Nat) (S : Generator) : (S.lowered n).period = S.period := by rw [lowered_eq]

theorem lowered_of_not_stepping (n : Nat) {S : Generator} (h : isStepping S.remainingTicks = false) :
    S.lowered n = S := by
  cases n with
  | zero => rfl
  | succ n => simp [lowered_succ, h]

/-- What n handler runs leave in the counter (R171, R181). -/
theorem lowered_toInt (n : Nat) (S : Generator) : (S.lowered n).remainingTicks.toInt =
    if 0 < S.remainingTicks.toInt then max (S.remainingTicks.toInt - n) 0 else S.remainingTicks.toInt := by
  induction n generalizing S with
  | zero => simp; omega
  | succ n ih =>
    rw [lowered_succ]
    by_cases h : isStepping S.remainingTicks = true
    · rw [if_pos h, ih]
      have h' := isStepping_iff.mp h
      simp only [toInt_oneTickLess h, h', if_true]
      split <;> push_cast <;> omega
    · rw [if_neg h]
      rw [isStepping_iff] at h
      rw [if_neg h]

theorem lowered_isStepping {n : Nat} {S : Generator} (h : isStepping (S.lowered n).remainingTicks = true) :
    isStepping S.remainingTicks = true := by
  by_contra hs
  rw [lowered_of_not_stepping n (by simpa using hs)] at h
  exact hs h

end Generator

namespace State

/-! ## One handler run -/

theorem afterTick_cases (s : State) : s.afterTick = s ∨ ∃ b B, s.bound = some b ∧ s.gen b = some B ∧
    isStepping B.remainingTicks = true ∧
    s.afterTick = (s.setMem (s.mem.write B.stepCap.state (toggleBits B.stepCap.mask (s.mem.read B.stepCap.state)))).setTicks
      b (oneTickLess B.remainingTicks) := by
  unfold afterTick
  cases hb : s.bound with
  | none => exact .inl rfl
  | some b =>
    cases hB : s.gen b with
    | none => simp [hB]
    | some B =>
      by_cases h : isStepping B.remainingTicks = true
      · exact .inr ⟨b, B, rfl, hB, h, by simp [hB, h]⟩
      · exact .inl (by simp [hB, h])

/-- A completed dispatch is one handler run. -/
theorem dispatch_eq_next {s t : State} (h : s.dispatch = .next t) : t = s.afterTick := by
  unfold dispatch at h
  unfold afterTick
  cases hb : s.bound with
  | none => simp_all
  | some b =>
    simp only [hb, tick, withSpg_eq_next] at h
    obtain ⟨B, hB, h⟩ := h
    simp only [hB]
    split at h
    · rename_i hs
      obtain ⟨u, hu, h⟩ := Res.andThen_eq_next.mp h
      obtain ⟨-, hu⟩ := readReg_eq_next.mp hu
      obtain ⟨-, rfl⟩ := writeReg_eq_next.mp hu
      simp only [Host.Outcome.next.injEq] at h
      rw [if_pos hs, h]
    · rename_i hs
      simp only [Host.Outcome.next.injEq] at h
      rw [if_neg hs, h]

/-- With the bound instance ready, its handler runs. -/
theorem dispatch_next {s : State} (h : s.HandlerReady) : s.dispatch = .next s.afterTick := by
  unfold dispatch afterTick
  cases hb : s.bound with
  | none => rfl
  | some b =>
    obtain ⟨B, hB, hr⟩ := h b hb
    simp only [hB, tick, withSpg_some hB, pinToggle, readReg_next hr, writeReg_next hr]
    split <;> rfl

/-- A handler run writes memory and the bound instance's counter only. -/
theorem afterTick_frame (s : State) :
    ∃ m v, s.afterTick = (s.setMem m).setSpg v := by
  rcases s.afterTick_cases with h | ⟨b, B, -, -, -, h⟩
  · exact ⟨s.mem, s.spg, h⟩
  · exact ⟨_, _, h⟩

@[simp] theorem afterTick_ie (s : State) : s.afterTick.ie = s.ie := by
  obtain ⟨m, v, h⟩ := s.afterTick_frame; simp [h]
@[simp] theorem afterTick_groups (s : State) : s.afterTick.groups = s.groups := by
  obtain ⟨m, v, h⟩ := s.afterTick_frame; simp [h]
@[simp] theorem afterTick_bound (s : State) : s.afterTick.bound = s.bound := by
  obtain ⟨m, v, h⟩ := s.afterTick_frame; simp [h]
@[simp] theorem afterTick_timer (s : State) : s.afterTick.timer = s.timer := by
  obtain ⟨m, v, h⟩ := s.afterTick_frame; simp [h]
@[simp] theorem afterTick_status (s : State) : s.afterTick.status = s.status := by
  obtain ⟨m, v, h⟩ := s.afterTick_frame; simp [h]
@[simp] theorem afterTick_result (s : State) : s.afterTick.result = s.result := by
  obtain ⟨m, v, h⟩ := s.afterTick_frame; simp [h]
@[simp] theorem afterTick_cp (s : State) : s.afterTick.cp = s.cp := by
  obtain ⟨m, v, h⟩ := s.afterTick_frame; simp [h]
@[simp] theorem afterTick_params (s : State) : s.afterTick.params = s.params := by
  obtain ⟨m, v, h⟩ := s.afterTick_frame; simp [h]
@[simp] theorem afterTick_cmds (s : State) : s.afterTick.cmds = s.cmds := by
  obtain ⟨m, v, h⟩ := s.afterTick_frame; simp [h]
@[simp] theorem afterTick_sched (s : State) : s.afterTick.sched = s.sched := by
  obtain ⟨m, v, h⟩ := s.afterTick_frame; simp [h]
@[simp] theorem afterTick_draws (s : State) : s.afterTick.draws = s.draws := by
  obtain ⟨m, v, h⟩ := s.afterTick_frame; simp [h]

theorem afterTick_gen (s : State) (i : Index) :
    s.afterTick.gen i = if s.bound = some i then (s.gen i).map (Generator.lowered 1) else s.gen i := by
  unfold afterTick
  cases hb : s.bound with
  | none => simp
  | some b =>
    by_cases hbi : b = i
    · subst hbi
      cases hB : s.gen b with
      | none => simp [hB]
      | some B =>
        by_cases h : isStepping B.remainingTicks = true
        · simp [h, setTicks_gen, hB, Generator.lowered_succ]
        · simp [h, hB, Generator.lowered_succ]
    · have hne : (some b = some i) ↔ False := by simp [hbi]
      simp only [hne, if_false]
      cases hB : s.gen b with
      | none => rfl
      | some B =>
        by_cases h : isStepping B.remainingTicks = true
        · simp [h, setTicks_gen, hbi]
        · simp [h]

/-- A handler run changes one bit of one register at most: the bound step pin's STATE bit (R163). -/
theorem afterTick_bit_other {s : State} {a : Addr} {k : Nat}
    (h : ∀ b B, s.bound = some b → s.gen b = some B → isStepping B.remainingTicks = true →
      ¬(B.stepCap.state = a ∧ B.stepCap.bit.val = k)) :
    (s.afterTick.mem.read a).getLsbD k = (s.mem.read a).getLsbD k := by
  rcases s.afterTick_cases with e | ⟨b, B, hb, hB, hs, e⟩
  · rw [e]
  · rw [e, setTicks_mem, setMem_mem, Memory.read_write]
    split
    · subst a
      have hk : B.stepCap.bit.val ≠ k := fun e => h b B hb hB hs ⟨rfl, e⟩
      simp [toggleBits, PinCap.mask, BitVec.getLsbD_twoPow, hk]
    · rfl

theorem afterTick_memory {s : State} (hr : s.HandlerReady) (h : s.MemoryBuilt) : s.afterTick.MemoryBuilt := by
  rcases s.afterTick_cases with e | ⟨b, B, hb, hB, -, e⟩
  · rw [e]; exact h
  · obtain ⟨B', hB', hs⟩ := hr b hb
    obtain rfl : B' = B := by simpa [hB] using hB'.symm
    unfold MemoryBuilt
    simp only [e, setTicks_mem, setMem_mem, setTicks_params, setMem_params]
    refine ⟨Memory.wf_write h.1 _ _, fun c hc => ?_⟩
    rcases Memory.mem_write hc with hc | hc
    · rw [hc]; exact hs
    · exact h.2 c hc

/-! ## What a boundary can do -/

/-- From s to t only events have happened, with n handler runs. -/
structure Cut (s t : State) (n : Nat) : Prop where
  params : t.params = s.params
  ie : t.ie = s.ie
  groups : t.groups = s.groups
  bound : t.bound = s.bound
  status : t.status = s.status
  result : t.result = s.result
  cmds : t.cmds = s.cmds
  draws : t.draws = s.draws
  place : t.cp.k = s.cp.k
  running : t.timer.running = s.timer.running
  period : t.timer.period = s.timer.period
  handler : t.timer.handler = s.timer.handler
  gen : ∀ i, t.gen i = if s.bound = some i then (s.gen i).map (Generator.lowered n) else s.gen i
  bit : ∀ a k, (∀ b B, s.bound = some b → s.gen b = some B → isStepping B.remainingTicks = true →
    ¬(B.stepCap.state = a ∧ B.stepCap.bit.val = k)) → (t.mem.read a).getLsbD k = (s.mem.read a).getLsbD k
  idle : n = 0 → t.mem = s.mem ∧ t.spg = s.spg
  memory : s.HandlerReady → s.MemoryBuilt → t.MemoryBuilt
  masked : s.ie = false → n = 0 ∧ (s.timer.pending = true → t.timer.pending = true)
  stopped : s.timer.running = false →
    n ≤ 1 ∧ (s.timer.pending = false → n = 0 ∧ t.timer.pending = false) ∧ (n = 1 → t.timer.pending = false)
  latch : t.timer.pending = true → s.timer.pending = true ∨ s.timer.handler = some .dispatch
  unattached : s.timer.handler = none → n = 0 ∧ t.timer.pending = s.timer.pending

/-- A register no handler run writes. -/
theorem Cut.read {s t : State} {n : Nat} (c : Cut s t n) (a : Addr)
    (h : ∀ b B, s.bound = some b → s.gen b = some B → isStepping B.remainingTicks = true → B.stepCap.state ≠ a) :
    t.mem.read a = s.mem.read a :=
  BitVec.eq_of_getLsbD_eq fun k _ => c.bit a k fun b B hb hB hs e => h b B hb hB hs e.1

theorem Cut.group {s t : State} {n : Nat} (c : Cut s t n) (g : Index) : t.group g = s.group g := by
  unfold State.group; rw [c.groups]

/-- The bound instance stays ready. -/
theorem Cut.ready {s t : State} {n : Nat} (c : Cut s t n) (h : s.HandlerReady) : t.HandlerReady := by
  intro b hb
  rw [c.bound] at hb
  obtain ⟨B, hB, hs⟩ := h b hb
  refine ⟨B.lowered n, ?_, ?_⟩
  · rw [c.gen, if_pos hb, hB]; rfl
  · rw [c.params]; simpa using hs

theorem Cut.gen_some {s t : State} {n : Nat} (c : Cut s t n) {i : Index} {S : Generator} (h : s.gen i = some S) :
    ∃ k, t.gen i = some (S.lowered k) ∧ (s.bound ≠ some i → k = 0) ∧ (s.bound = some i → k = n) := by
  by_cases hb : s.bound = some i
  · exact ⟨n, by rw [c.gen, if_pos hb, h]; rfl, fun e => absurd hb e, fun _ => rfl⟩
  · exact ⟨0, by rw [c.gen, if_neg hb, h]; rfl, fun _ => rfl, fun e => absurd e hb⟩

theorem Cut.gen_none {s t : State} {n : Nat} (c : Cut s t n) {i : Index} (h : s.gen i = none) : t.gen i = none := by
  rw [c.gen]; split <;> simp [h]

theorem Generator.lowered_lowered (m n : Nat) (S : Generator) : (S.lowered m).lowered n = S.lowered (m + n) := by
  induction m generalizing S with
  | zero => simp
  | succ m ih =>
    rw [Nat.succ_add, Generator.lowered_succ, Generator.lowered_succ]
    by_cases h : isStepping S.remainingTicks = true
    · rw [if_pos h, if_pos h, ih]
    · rw [if_neg h, if_neg h, Generator.lowered_of_not_stepping]
      simpa using h

theorem cut_refl (s : State) (ts : List Turn) (c : Place) (h : c.k = s.cp.k) :
    Cut s ((s.setCp c).setSched ts) 0 := by
  constructor
  case gen => intro i; simp
  case memory => exact fun _ h => h
  case place => exact h
  case masked => exact fun _ => ⟨rfl, id⟩
  case stopped => exact fun _ => ⟨by omega, fun hp => ⟨rfl, hp⟩, by simp⟩
  all_goals intros; simp_all

theorem Cut.trans {s t u : State} {m n : Nat} (c : Cut s t m) (d : Cut t u n) : Cut s u (m + n) where
  params := d.params.trans c.params
  ie := d.ie.trans c.ie
  groups := d.groups.trans c.groups
  bound := d.bound.trans c.bound
  status := d.status.trans c.status
  result := d.result.trans c.result
  cmds := d.cmds.trans c.cmds
  draws := d.draws.trans c.draws
  place := d.place.trans c.place
  running := d.running.trans c.running
  period := d.period.trans c.period
  handler := d.handler.trans c.handler
  gen i := by
    rw [d.gen, c.gen, c.bound]
    split
    · rw [Option.map_map]; congr 1; funext S; exact Generator.lowered_lowered m n S
    · rfl
  bit a k h := by
    rw [d.bit a k, c.bit a k h]
    intro b B hb hB hs
    rw [c.bound] at hb
    rw [c.gen, if_pos hb] at hB
    obtain ⟨B', hB', rfl⟩ := Option.map_eq_some_iff.mp hB
    simpa using h b B' hb hB' (Generator.lowered_isStepping hs)
  idle h := by
    obtain ⟨rfl, rfl⟩ : m = 0 ∧ n = 0 := by omega
    exact ⟨(d.idle rfl).1.trans (c.idle rfl).1, (d.idle rfl).2.trans (c.idle rfl).2⟩
  memory hr h := d.memory (c.ready hr) (c.memory hr h)
  masked h := by
    have h1 := c.masked h
    have h2 := d.masked (c.ie.trans h)
    exact ⟨by omega, fun hp => h2.2 (h1.2 hp)⟩
  stopped h := by
    have h1 := c.stopped h
    have h2 := d.stopped (c.running.trans h)
    refine ⟨?_, fun hp => ?_, fun e => ?_⟩
    · by_cases hm : m = 1
      · have := h2.2.1 (h1.2.2 hm); omega
      · omega
    · have h3 := h1.2.1 hp
      have h4 := h2.2.1 h3.2
      exact ⟨by omega, h4.2⟩
    · by_cases hm : m = 1
      · exact (h2.2.1 (h1.2.2 hm)).2
      · exact h2.2.2 (by omega)
  latch h := by
    rcases d.latch h with h | h
    · exact c.latch h
    · exact .inr (c.handler ▸ h)
  unattached h := by
    have h1 := c.unattached h
    have h2 := d.unattached (c.handler.trans h)
    exact ⟨by omega, h2.2.trans h1.2⟩

theorem fire_cut (s : State) : Cut s s.fire 0 := by
  unfold fire
  split
  · rename_i h
    simp only [Timer.canFire, Bool.and_eq_true] at h
    have hh : s.timer.handler = some .dispatch := by
      cases e : s.timer.handler with
      | none => simp [e] at h
      | some x => cases x; rfl
    constructor
    case memory => exact fun _ h => h
    case gen => intro i; simp
    all_goals intros; simp_all
  · exact cut_refl s s.sched s.cp rfl

/-- A delivered tick: entry, one handler run, return. -/
theorem deliver_cut {s t : State} (h : s.deliver = .next t) : ∃ n, Cut s t n := by
  unfold deliver at h
  split at h
  · obtain rfl : s = t := by simpa using h
    exact ⟨0, cut_refl s s.sched s.cp rfl⟩
  · rename_i hd hh
    split at h
    · rename_i he
      simp only [Bool.and_eq_true] at he
      obtain ⟨u, hu, h⟩ := Res.andThen_eq_next.mp h
      obtain rfl := dispatch_eq_next hu
      obtain rfl : _ = t := by simpa using h
      refine ⟨1, ?_⟩
      constructor
      case gen => exact fun i => afterTick_gen s.enterHandler i
      case bit => intro a k ha; simpa using afterTick_bit_other (s := s.enterHandler) (a := a) (k := k) (by simpa using ha)
      case memory =>
        intro hr hm
        have := afterTick_memory (s := s.enterHandler) hr hm
        exact this
      all_goals intros; simp_all
    · obtain rfl : s = t := by simpa using h
      exact ⟨0, cut_refl s s.sched s.cp rfl⟩

theorem setSched_cut (s : State) (ts : List Turn) : Cut s (s.setSched ts) 0 := cut_refl s ts s.cp rfl

/-- The events of a boundary. -/
theorem runTurns_cut {ts : List Turn} {s t : State} (h : runTurns ts s = .next t) : ∃ n, Cut s t n := by
  induction ts generalizing s with
  | nil =>
    obtain rfl : _ = t := by simpa [runTurns] using h
    exact ⟨0, setSched_cut ..⟩
  | cons x ts ih =>
    cases x with
    | main =>
      obtain rfl : _ = t := by simpa [runTurns] using h
      exact ⟨0, setSched_cut ..⟩
    | fire =>
      obtain ⟨n, hn⟩ := ih h
      exact ⟨_, (fire_cut s).trans hn⟩
    | deliver =>
      obtain ⟨u, hu, h⟩ := Res.andThen_eq_next.mp h
      obtain ⟨m, hm⟩ := deliver_cut hu
      obtain ⟨n, hn⟩ := ih h
      exact ⟨_, hm.trans hn⟩

theorem setCp_cut (s : State) (c : Place) (h : c.k = s.cp.k) : Cut s (s.setCp c) 0 := cut_refl s s.sched c h

theorem nextMicro_cut {s t : State} (h : s.nextMicro = .next t) : ∃ n, Cut s t n := by
  obtain ⟨n, hn⟩ := runTurns_cut h
  exact ⟨_, (setCp_cut s ⟨s.cp.k, s.cp.j + 1⟩ rfl).trans hn⟩

theorem jumpMicro_cut {s t : State} {j : Nat} (h : s.jumpMicro j = .next t) : ∃ n, Cut s t n := by
  obtain ⟨n, hn⟩ := runTurns_cut h
  exact ⟨_, (setCp_cut s ⟨s.cp.k, j⟩ rfl).trans hn⟩

/-! ## A boundary completes -/

theorem deliver_next {s : State} (h : s.HandlerReady) : ∃ t, s.deliver = .next t := by
  unfold deliver
  split
  · exact ⟨_, rfl⟩
  · rename_i hd _
    cases hd
    split
    · have hr : s.enterHandler.HandlerReady := h
      simp only [runHandler, dispatch_next hr, Res.andThen_next]
      exact ⟨_, rfl⟩
    · exact ⟨_, rfl⟩

theorem runTurns_next (ts : List Turn) {s : State} (h : s.HandlerReady) : ∃ t, runTurns ts s = .next t := by
  induction ts generalizing s with
  | nil => exact ⟨_, rfl⟩
  | cons x ts ih =>
    cases x with
    | main => exact ⟨_, rfl⟩
    | fire => exact ih ((fire_cut s).ready h)
    | deliver =>
      obtain ⟨u, hu⟩ := deliver_next h
      obtain ⟨m, hm⟩ := deliver_cut hu
      obtain ⟨t, ht⟩ := ih (hm.ready h)
      exact ⟨t, by simp [runTurns, hu, ht]⟩

/-- A boundary completes where the bound instance is ready, and only events happen there. -/
theorem nextMicro_next {s : State} (h : s.HandlerReady) : ∃ t n, s.nextMicro = .next t ∧ Cut s t n ∧ t.HandlerReady := by
  obtain ⟨t, ht⟩ := runTurns_next s.sched (s := s.setCp ⟨s.cp.k, s.cp.j + 1⟩) h
  obtain ⟨n, hn⟩ := nextMicro_cut ht
  exact ⟨t, n, ht, hn, hn.ready h⟩

theorem jumpMicro_next (j : Nat) {s : State} (h : s.HandlerReady) :
    ∃ t n, s.jumpMicro j = .next t ∧ Cut s t n ∧ t.HandlerReady := by
  obtain ⟨t, ht⟩ := runTurns_next s.sched (s := s.setCp ⟨s.cp.k, j⟩) h
  obtain ⟨n, hn⟩ := jumpMicro_cut ht
  exact ⟨t, n, ht, hn, hn.ready h⟩

/-! ## A quiet boundary -/

theorem runTurns_quiet {s : State} {ts : List Turn} (h : ∀ t ∈ ts.take 1, t = .main) :
    runTurns ts s = .next (s.setSched ts.tail) := by
  cases ts with
  | nil => rfl
  | cons x ts =>
    obtain rfl : x = .main := h x (by simp)
    rfl

/-- Where the schedule has no event at this boundary, `cp` moves on and MAIN's turn is used up. -/
theorem nextMicro_quiet {s : State} {n : Nat} (h : s.Quiet (n + 1)) :
    s.nextMicro = .next ((s.setCp ⟨s.cp.k, s.cp.j + 1⟩).setSched s.sched.tail) := by
  refine runTurns_quiet fun t ht => h t ?_
  cases hs : s.sched with
  | nil => simp [hs] at ht
  | cons x ts => rw [hs] at ht; simp at ht; simp [ht]

theorem jumpMicro_quiet {s : State} {n j : Nat} (h : s.Quiet (n + 1)) :
    s.jumpMicro j = .next ((s.setCp ⟨s.cp.k, j⟩).setSched s.sched.tail) := by
  refine runTurns_quiet fun t ht => h t ?_
  cases hs : s.sched with
  | nil => simp [hs] at ht
  | cons x ts => rw [hs] at ht; simp at ht; simp [ht]

/-- After a quiet boundary the rest is quiet. -/
theorem Quiet.tail {s t : State} {n : Nat} (h : s.Quiet (n + 1)) (ht : t.sched = s.sched.tail) : t.Quiet n := by
  intro x hx
  rw [ht] at hx
  cases hs : s.sched with
  | nil => simp [hs] at hx
  | cons y ts =>
    rw [hs] at hx
    refine h x ?_
    rw [hs, List.take_succ_cons]
    exact List.mem_cons_of_mem _ hx

end State

end Sys2Proof.Machine
end

