-- ==== Sys2Proof/Laws/Critical.lean ====
section
/-! SUPPORT. The critical section: no handler run between its first and last micro-step, so a masked update is one
indivisible change of one register. -/

namespace Sys2Proof.Machine.State

/-- From s to t the memory has become m; besides, only `fire` events, MAIN's place in the command and the schedule have
moved on. -/
def Updated (s t : State) (m : Memory) : Prop :=
  ∃ p c ts, t = (((s.setMem m).setTimer { s.timer with pending := p }).setCp c).setSched ts ∧ c.k = s.cp.k ∧
    (s.timer.pending = true → p = true) ∧ (p = true → s.timer.pending = true ∨ s.timer.handler = some .dispatch) ∧
    (s.timer.running = false → p = s.timer.pending) ∧ (s.timer.handler = none → p = s.timer.pending)

section
variable {s t u : State} {m m' : Memory}

theorem Updated.mem (h : Updated s t m) : t.mem = m := by obtain ⟨p, c, ts, rfl, -⟩ := h; rfl
theorem Updated.ie (h : Updated s t m) : t.ie = s.ie := by obtain ⟨p, c, ts, rfl, -⟩ := h; rfl
theorem Updated.groups (h : Updated s t m) : t.groups = s.groups := by obtain ⟨p, c, ts, rfl, -⟩ := h; rfl
theorem Updated.spg (h : Updated s t m) : t.spg = s.spg := by obtain ⟨p, c, ts, rfl, -⟩ := h; rfl
theorem Updated.bound (h : Updated s t m) : t.bound = s.bound := by obtain ⟨p, c, ts, rfl, -⟩ := h; rfl
theorem Updated.status (h : Updated s t m) : t.status = s.status := by obtain ⟨p, c, ts, rfl, -⟩ := h; rfl
theorem Updated.result (h : Updated s t m) : t.result = s.result := by obtain ⟨p, c, ts, rfl, -⟩ := h; rfl
theorem Updated.params (h : Updated s t m) : t.params = s.params := by obtain ⟨p, c, ts, rfl, -⟩ := h; rfl
theorem Updated.cmds (h : Updated s t m) : t.cmds = s.cmds := by obtain ⟨p, c, ts, rfl, -⟩ := h; rfl
theorem Updated.draws (h : Updated s t m) : t.draws = s.draws := by obtain ⟨p, c, ts, rfl, -⟩ := h; rfl
theorem Updated.place (h : Updated s t m) : t.cp.k = s.cp.k := by obtain ⟨p, c, ts, rfl, hc, -⟩ := h; exact hc
theorem Updated.running (h : Updated s t m) : t.timer.running = s.timer.running := by
  obtain ⟨p, c, ts, rfl, -⟩ := h; rfl
theorem Updated.period (h : Updated s t m) : t.timer.period = s.timer.period := by
  obtain ⟨p, c, ts, rfl, -⟩ := h; rfl
theorem Updated.handler (h : Updated s t m) : t.timer.handler = s.timer.handler := by
  obtain ⟨p, c, ts, rfl, -⟩ := h; rfl
theorem Updated.gen (h : Updated s t m) (i : Index) : t.gen i = s.gen i := by unfold State.gen; rw [h.spg]
theorem Updated.group (h : Updated s t m) (g : Index) : t.group g = s.group g := by unfold State.group; rw [h.groups]
theorem Updated.pending (h : Updated s t m) : s.timer.pending = true → t.timer.pending = true := by
  obtain ⟨p, c, ts, rfl, -, hp, -⟩ := h; exact hp
theorem Updated.latch (h : Updated s t m) :
    t.timer.pending = true → s.timer.pending = true ∨ s.timer.handler = some .dispatch := by
  obtain ⟨p, c, ts, rfl, -, -, hp, -⟩ := h; exact hp
theorem Updated.stopped (h : Updated s t m) : s.timer.running = false → t.timer.pending = s.timer.pending := by
  obtain ⟨p, c, ts, rfl, -, -, -, hp, -⟩ := h; exact hp
theorem Updated.unattached (h : Updated s t m) : s.timer.handler = none → t.timer.pending = s.timer.pending := by
  obtain ⟨p, c, ts, rfl, -, -, -, -, hp⟩ := h; exact hp

theorem Updated.ready (h : Updated s t m) (hr : s.HandlerReady) : t.HandlerReady := by
  intro b hb
  rw [h.bound] at hb
  obtain ⟨B, hB, hs⟩ := hr b hb
  exact ⟨B, by rw [h.gen, hB], by rw [h.params, hs]⟩

theorem Updated.trans (h : Updated s t m) (k : Updated t u m') : Updated s u m' := by
  obtain ⟨p, c, ts, rfl, hc, h1, h2, h3, h4⟩ := h
  obtain ⟨q, d, us, rfl, hd, k1, k2, k3, k4⟩ := k
  refine ⟨q, d, us, rfl, hd.trans hc, fun e => k1 (h1 e), fun e => ?_, fun e => (k3 e).trans (h3 e),
    fun e => (k4 e).trans (h4 e)⟩
  rcases k2 e with e | e
  · exact h2 e
  · exact .inr e

/-- A boundary without a handler run leaves everything but the latch, the place and the schedule. -/
theorem Cut.updated {n : Nat} (c : Cut s t n) (hie : s.ie = false) : Updated s t s.mem := by
  have hn : n = 0 := (c.masked hie).1
  refine ⟨t.timer.pending, t.cp, t.sched, ?_, c.place, (c.masked hie).2, c.latch, fun h => ?_, fun h => (c.unattached h).2⟩
  · have hT : t.timer = { s.timer with pending := t.timer.pending } := by
      cases ht : t.timer with
      | mk r p h q =>
        have h1 := c.running; have h2 := c.period; have h3 := c.handler
        rw [ht] at h1 h2 h3
        simp only at h1 h2 h3
        rw [h1, h2, h3]
    rw [← hT]
    cases s; cases t
    obtain ⟨e1, e2⟩ := c.idle hn
    have := c.params; have := c.ie; have := c.groups; have := c.bound; have := c.status; have := c.result
    have := c.cmds; have := c.draws
    simp only at *
    subst_vars
    rfl
  · cases hp : s.timer.pending with
    | false => exact ((c.stopped h).2.1 hp).2
    | true => exact (c.masked hie).2 hp

theorem runTurns_masked (ts : List Turn) (h : s.ie = false) : ∃ t, runTurns ts s = .next t := by
  induction ts generalizing s with
  | nil => exact ⟨_, rfl⟩
  | cons x ts ih =>
    cases x with
    | main => exact ⟨_, rfl⟩
    | fire => exact ih ((fire_cut s).ie.trans h)
    | deliver =>
      have : s.deliver = .next s := by
        unfold deliver
        cases s.timer.handler <;> simp [h]
      obtain ⟨t, ht⟩ := ih h
      exact ⟨t, by simp [runTurns, this, ht]⟩

/-- While `IE = 0` a boundary completes, and no handler runs there (R220). -/
theorem nextMicro_masked (h : s.ie = false) : ∃ t, s.nextMicro = .next t ∧ Updated s t s.mem := by
  obtain ⟨t, ht⟩ := runTurns_masked s.sched (s := s.setCp ⟨s.cp.k, s.cp.j + 1⟩) h
  obtain ⟨n, hn⟩ := nextMicro_cut ht
  exact ⟨t, ht, hn.updated h⟩

theorem rmw_masked {a : Addr} (f : Byte → Byte) (h : s.ie = false) (ha : s.params.isStorage a = true) :
    ∃ t, s.rmw a f = .next t ∧ Updated s t (s.mem.write a (f (s.mem.read a))) := by
  obtain ⟨t, ht, hu⟩ := nextMicro_masked h
  have ha' : t.params.isStorage a = true := by rw [hu.params, ha]
  refine ⟨t.setMem (t.mem.write a (f (s.mem.read a))), ?_, ?_⟩
  · simp [rmw, readReg_next ha, ht, writeReg_next ha']
  · obtain ⟨p, c, ts, rfl, hc⟩ := hu
    exact ⟨p, c, ts, rfl, hc⟩

/-- A critical section whose body, run with `IE = 0`, leaves memory m. -/
theorem critical_next {body : State → Res}
    (hb : ∀ u, Updated (s.setIe false) u s.mem → ∃ v, body u = .next v ∧ Updated u v m) :
    ∃ t, s.critical body = .next t ∧ Updated s t m := by
  obtain ⟨u, hu, hu'⟩ := nextMicro_masked (s := s.setIe false) rfl
  obtain ⟨v, hv, hv'⟩ := hb u hu'
  have hie : v.ie = false := by rw [hv'.ie, hu'.ie]; rfl
  obtain ⟨w, hw, hw'⟩ := nextMicro_masked hie
  refine ⟨w.setIe s.ie, by simp [critical, hu, hv, hw], ?_⟩
  obtain ⟨p, c, ts, rfl, hc⟩ := (hu'.trans hv').trans (hv'.mem ▸ hw')
  exact ⟨p, c, ts, rfl, hc⟩

/-- A masked update completes, as if it were one step (R74). -/
theorem maskedUpdate_next {a : Addr} (f : Byte → Byte) (ha : s.params.isStorage a = true) :
    ∃ t, s.maskedUpdate a f = .next t ∧ Updated s t (s.mem.write a (f (s.mem.read a))) := by
  refine critical_next fun u hu => ?_
  obtain ⟨v, hv, hv'⟩ := rmw_masked f hu.ie (a := a) (by rw [hu.params]; exact ha)
  exact ⟨v, hv, by rw [hu.mem] at hv'; exact hv'⟩

theorem maskedUpdate_eq_next {a : Addr} {f : Byte → Byte} (h : s.maskedUpdate a f = .next t) :
    s.params.isStorage a = true ∧ Updated s t (s.mem.write a (f (s.mem.read a))) := by
  have ha : s.params.isStorage a = true := by
    obtain ⟨u, hu, h⟩ := Res.andThen_eq_next.mp h
    obtain ⟨v, hv, -⟩ := Res.andThen_eq_next.mp h
    obtain ⟨n, hn⟩ := nextMicro_cut hu
    have := (readReg_eq_next.mp hv).1
    rwa [hn.params] at this
  obtain ⟨v, hv, hv'⟩ := maskedUpdate_next f ha
  rw [h, Host.Outcome.next.injEq] at hv
  exact ⟨ha, hv ▸ hv'⟩

/-- Both updates of `PG_SET` in one section (R130). -/
theorem doubleUpdate_next {a b : Addr} (f g : Byte → Byte) (ha : s.params.isStorage a = true)
    (hb : s.params.isStorage b = true) :
    ∃ t, (s.critical fun t => (t.rmw a f).andThen fun t => t.nextMicro.andThen fun t => t.rmw b g) = .next t ∧
      Updated s t ((s.mem.write a (f (s.mem.read a))).write b (g ((s.mem.write a (f (s.mem.read a))).read b))) := by
  refine critical_next fun u hu => ?_
  obtain ⟨v, hv, hv'⟩ := rmw_masked f hu.ie (a := a) (by rw [hu.params]; exact ha)
  rw [hu.mem] at hv'
  have hie : v.ie = false := by rw [hv'.ie, hu.ie]; rfl
  obtain ⟨w, hw, hw'⟩ := nextMicro_masked hie
  have hie' : w.ie = false := by rw [hw'.ie, hie]
  obtain ⟨x, hx, hx'⟩ := rmw_masked g hie' (a := b) (by rw [hw'.params, hv'.params, hu.params]; exact hb)
  rw [hw'.mem, hv'.mem] at hx'
  exact ⟨x, by simp [hv, hw, hx], (hv'.trans (hv'.mem ▸ hw')).trans hx'⟩

theorem doubleUpdate_eq_next {a b : Addr} {f g : Byte → Byte}
    (h : (s.critical fun t => (t.rmw a f).andThen fun t => t.nextMicro.andThen fun t => t.rmw b g) = .next t) :
    s.params.isStorage a = true ∧ s.params.isStorage b = true ∧
      Updated s t ((s.mem.write a (f (s.mem.read a))).write b (g ((s.mem.write a (f (s.mem.read a))).read b))) := by
  obtain ⟨u, hu, h'⟩ := Res.andThen_eq_next.mp h
  obtain ⟨v, hv, -⟩ := Res.andThen_eq_next.mp h'
  obtain ⟨n, hn⟩ := nextMicro_cut hu
  obtain ⟨w, hw, hv⟩ := Res.andThen_eq_next.mp hv
  obtain ⟨ha, hw2⟩ := readReg_eq_next.mp hw
  obtain ⟨w', hw', hw3⟩ := Res.andThen_eq_next.mp hw2
  obtain ⟨n2, hn2⟩ := nextMicro_cut hw'
  obtain ⟨-, rfl⟩ := writeReg_eq_next.mp hw3
  obtain ⟨x, hx, hv⟩ := Res.andThen_eq_next.mp hv
  obtain ⟨n3, hn3⟩ := nextMicro_cut hx
  have hb := (readReg_eq_next.mp hv).1
  have ha : s.params.isStorage a = true := by rwa [hn.params] at ha
  have hb : s.params.isStorage b = true := by
    rw [hn3.params, setMem_params, hn2.params, hn.params] at hb; exact hb
  obtain ⟨y, hy, hy'⟩ := doubleUpdate_next f g ha hb
  rw [h, Host.Outcome.next.injEq] at hy
  exact ⟨ha, hb, hy ▸ hy'⟩

end

end Sys2Proof.Machine.State
end

