-- ==== Sys2Proof/Laws/Frame.lean ====
section
/-! SUPPORT. What every part of a generator command keeps, and what it leaves in the counter. -/
namespace Sys2Proof.Machine.State

/-- The counter may have fallen from r to r' by handler runs of generator i. -/
structure Fallen (s : State) (i : Index) (r r' : Word) : Prop where
  le : r'.toInt ≤ r.toInt
  nonneg : 0 ≤ r.toInt → 0 ≤ r'.toInt
  stuck : r.toInt ≤ 0 → r' = r
  unbound : s.bound ≠ some i → r' = r

theorem Fallen.refl (s : State) (i : Index) (r : Word) : Fallen s i r r := ⟨le_refl _, id, fun _ => rfl, fun _ => rfl⟩

theorem Fallen.trans {s t : State} {i : Index} {a b c : Word} (h : Fallen s i a b) (k : Fallen t i b c)
    (hb : t.bound = s.bound) : Fallen s i a c where
  le := le_trans k.le h.le
  nonneg e := k.nonneg (h.nonneg e)
  stuck e := by
    have hba := h.stuck e
    rw [k.stuck (by rw [hba]; exact e), hba]
  unbound e := (k.unbound (by rw [hb]; exact e)).trans (h.unbound e)

theorem fallen_lowered (s : State) (i : Index) (S : Generator) (n : Nat) (h : s.bound ≠ some i → n = 0) :
    Fallen s i S.remainingTicks (S.lowered n).remainingTicks where
  le := by rw [Generator.lowered_toInt]; split <;> omega
  nonneg e := by rw [Generator.lowered_toInt]; split <;> omega
  stuck e := by rw [Generator.lowered_of_not_stepping]; simp [isStepping]; omega
  unbound e := by rw [h e]; rfl

theorem Cut.counter {s t : State} {n : Nat} (c : Cut s t n) {i : Index} {S : Generator} (h : s.gen i = some S) :
    ∃ r, t.gen i = some { S with remainingTicks := r } ∧ Fallen s i S.remainingTicks r := by
  obtain ⟨k, hk, h0, -⟩ := c.gen_some h
  exact ⟨_, hk.trans (congrArg some (Generator.lowered_eq k S)), fallen_lowered s i S k h0⟩

/-- What every part of a generator command keeps: all but the generator i, the timer, the registers in `written` and
the one handler runs write. -/
structure Kept (s t : State) (i : Index) (written : List Addr) : Prop where
  params : t.params = s.params
  ie : t.ie = s.ie
  groups : t.groups = s.groups
  cmds : t.cmds = s.cmds
  place : t.cp.k = s.cp.k
  bound : t.bound = s.bound
  caps : ∀ j, (t.gen j).map (fun S => (S.dirCap, S.stepCap)) = (s.gen j).map (fun S => (S.dirCap, S.stepCap))
  others : ∀ j, j ≠ i → t.gen j = s.gen j ∨ s.bound = some j ∧ ∃ n, t.gen j = (s.gen j).map (Generator.lowered n)
  bits : ∀ a, a ∉ written → s.BitsKept t a fun _ => False

section
variable {s t u : State} {i : Index} {w : List Addr}

theorem Kept.handlerWritesBit (h : Kept s t i w) (a : Addr) (k : Nat) :
    t.HandlerWritesBit a k ↔ s.HandlerWritesBit a k := by
  have key : ∀ {x y : State}, x.bound = y.bound →
      (∀ j, (x.gen j).map (fun S => (S.dirCap, S.stepCap)) = (y.gen j).map (fun S => (S.dirCap, S.stepCap))) →
      x.HandlerWritesBit a k → y.HandlerWritesBit a k := by
    rintro x y hb hc ⟨b, B, h1, h2, h3, h4⟩
    have := hc b
    rw [h2] at this
    cases hy : y.gen b with
    | none => rw [hy] at this; simp at this
    | some B' =>
      rw [hy] at this
      simp only [Option.map_some, Option.some.injEq, Prod.mk.injEq] at this
      exact ⟨b, B', hb ▸ h1, hy, this.2 ▸ h3, this.2 ▸ h4⟩
  exact ⟨key h.bound h.caps, key h.bound.symm fun j => (h.caps j).symm⟩

theorem Kept.handlerWrites (h : Kept s t i w) (a : Addr) : t.HandlerWrites a ↔ s.HandlerWrites a := by
  have key : ∀ x : State, x.HandlerWrites a ↔ ∃ k, x.HandlerWritesBit a k := fun x =>
    ⟨fun ⟨b, B, h1, h2, h3⟩ => ⟨_, b, B, h1, h2, h3, rfl⟩, fun ⟨_, b, B, h1, h2, h3, _⟩ => ⟨b, B, h1, h2, h3⟩⟩
  simp only [key, h.handlerWritesBit]

/-- Bits kept after a part that does not write the register are bits kept over both. -/
theorem Kept.bitsKept (h : Kept s t i w) {a : Addr} (ha : a ∉ w) {driven : Nat → Prop} (k : t.BitsKept u a driven) :
    s.BitsKept u a driven := fun x hx hw =>
  (k x hx (by rwa [h.handlerWritesBit])).trans (h.bits a ha x id hw)

theorem Kept.ready (k : Kept s t i w) (h : s.HandlerReady) : t.HandlerReady := by
  intro b hb
  rw [k.bound] at hb
  obtain ⟨B, hB, hs⟩ := h b hb
  have := k.caps b
  rw [hB] at this
  cases ht : t.gen b with
  | none => rw [ht] at this; simp at this
  | some B' =>
    rw [ht] at this
    simp only [Option.map_some, Option.some.injEq, Prod.mk.injEq] at this
    exact ⟨B', rfl, by rw [k.params, this.2]; exact hs⟩

theorem Kept.trans (h : Kept s t i w) (k : Kept t u i w) : Kept s u i w where
  params := k.params.trans h.params
  ie := k.ie.trans h.ie
  groups := k.groups.trans h.groups
  cmds := k.cmds.trans h.cmds
  place := k.place.trans h.place
  bound := k.bound.trans h.bound
  caps j := (k.caps j).trans (h.caps j)
  others j hj := by
    rcases h.others j hj with e | ⟨hb, n, e⟩ <;> rcases k.others j hj with e' | ⟨hb', n', e'⟩
    · exact .inl (e'.trans e)
    · exact .inr ⟨h.bound ▸ hb', n', by rw [e', e]⟩
    · exact .inr ⟨hb, n, by rw [e', e]⟩
    · refine .inr ⟨hb, n + n', ?_⟩
      rw [e', e, Option.map_map]
      congr 1
      funext S
      exact Generator.lowered_lowered n n' S
  bits a ha x hd hw := (k.bits a ha x hd (by rwa [h.handlerWritesBit])).trans (h.bits a ha x hd hw)

theorem Kept.framed (k : Kept s t i w) : s.Framed t i w := ⟨k.groups, k.others, k.bits⟩

/-- A register outside `written` that handler runs leave alone. -/
theorem Kept.read (h : Kept s t i w) (a : Addr) (ha : a ∉ w) (hw : ¬s.HandlerWrites a) : t.mem.read a = s.mem.read a :=
  BitVec.eq_of_getLsbD_eq fun k _ => h.bits a ha k id fun ⟨b, B, h1, h2, h3, _⟩ => hw ⟨b, B, h1, h2, h3⟩

/-- A larger list of written registers says less. -/
theorem Kept.mono {w' : List Addr} (h : Kept s t i w) (hw : ∀ a ∈ w, a ∈ w') : Kept s t i w' :=
  { h with bits := fun a ha => h.bits a fun e => ha (hw a e) }

theorem Kept.of_mem {m : Memory} {ti : Timer} {c : Place} {ts : List Turn} {d : Nat} {v : Vector (Option Generator) 16}
    (e : t = { s with mem := m, timer := ti, cp := c, sched := ts, draws := d, spg := v }) (hc : c.k = s.cp.k)
    (hv : ∀ j, (t.gen j).map (fun S => (S.dirCap, S.stepCap)) = (s.gen j).map (fun S => (S.dirCap, S.stepCap)))
    (ho : ∀ j, j ≠ i → t.gen j = s.gen j) (hm : ∀ a, a ∉ w → m.read a = s.mem.read a) : Kept s t i w := by
  subst e
  exact ⟨rfl, rfl, rfl, rfl, hc, rfl, hv, fun j hj => .inl (ho j hj), fun a ha k _ _ => congrArg (·.getLsbD k) (hm a ha)⟩

theorem Cut.kept {n : Nat} (c : Cut s t n) (i : Index) (w : List Addr) : Kept s t i w where
  params := c.params
  ie := c.ie
  groups := c.groups
  cmds := c.cmds
  place := c.place
  bound := c.bound
  caps j := by
    rw [c.gen]
    split
    · rw [Option.map_map]; congr 1; funext S; simp
    · rfl
  others j _ := by
    rw [c.gen]
    split
    · exact .inr ⟨‹_›, n, rfl⟩
    · exact .inl rfl
  bits a _ k _ hw := c.bit a k fun b B hb hB _ he => hw ⟨b, B, hb, hB, he⟩

theorem Updated.kept {m : Memory} (h : Updated s t m) (i : Index) (hm : ∀ a, a ∉ w → m.read a = s.mem.read a) :
    Kept s t i w := by
  refine ⟨h.params, h.ie, h.groups, h.cmds, h.place, h.bound, fun j => by rw [h.gen], fun j _ => .inl (h.gen j), ?_⟩
  intro a ha k _ _
  rw [h.mem, hm a ha]

theorem setTimer_kept (s : State) (T : Timer) (i : Index) (w : List Addr) : Kept s (s.setTimer T) i w :=
  ⟨rfl, rfl, rfl, rfl, rfl, rfl, fun _ => rfl, fun _ _ => .inl rfl, fun _ _ _ _ _ => rfl⟩

theorem setDraws_kept (s : State) (n : Nat) (i : Index) (w : List Addr) : Kept s (s.setDraws n) i w :=
  ⟨rfl, rfl, rfl, rfl, rfl, rfl, fun _ => rfl, fun _ _ => .inl rfl, fun _ _ _ _ _ => rfl⟩

theorem updateSpg_kept (s : State) (i : Index) (f : Generator → Generator) (w : List Addr)
    (hf : ∀ S, (f S).dirCap = S.dirCap ∧ (f S).stepCap = S.stepCap) : Kept s (s.updateSpg i f) i w where
  params := rfl
  ie := rfl
  groups := rfl
  cmds := rfl
  place := rfl
  bound := rfl
  caps j := by
    rw [updateSpg_gen]
    split
    · rw [Option.map_map]; congr 1; funext S; simp [hf S]
    · rfl
  others j hj := .inl (by rw [updateSpg_gen, if_neg (Ne.symm hj)])
  bits _ _ _ _ _ := rfl
end

/-! ## A boundary, for a known generator -/

theorem nextMicro_kept {s : State} (hr : s.HandlerReady) (i : Index) (w : List Addr) {S : Generator}
    (hS : s.gen i = some S) :
    ∃ t r n, s.nextMicro = .next t ∧ Cut s t n ∧ Kept s t i w ∧ t.HandlerReady ∧
      t.gen i = some { S with remainingTicks := r } ∧ Fallen s i S.remainingTicks r := by
  obtain ⟨t, n, ht, c, hr'⟩ := nextMicro_next hr
  obtain ⟨r, hg, hf⟩ := c.counter hS
  exact ⟨t, r, n, ht, c, c.kept i w, hr', hg, hf⟩

theorem updateSpg_some {s : State} {i : Index} {S : Generator} (h : s.gen i = some S) (f : Generator → Generator) :
    (s.updateSpg i f).gen i = some (f S) := by rw [updateSpg_gen, if_pos rfl, h]; rfl

/-! ## Quiet schedules -/

theorem Quiet.drop {s t : State} {m n : Nat} (h : s.Quiet (m + n)) (ht : t.sched = s.sched.drop m) : t.Quiet n := by
  intro x hx
  rw [ht] at hx
  refine h x ?_
  rw [List.take_add]
  exact List.mem_append_right _ hx

theorem Quiet.mono {s : State} {m n : Nat} (h : m ≤ n) (hq : s.Quiet n) : s.Quiet m := fun x hx =>
  hq x (List.take_subset_take_left _ h hx)

/-- A masked update no event falls into. -/
theorem maskedUpdate_quiet {s : State} {a : Addr} (f : Byte → Byte) (ha : s.params.isStorage a = true) {n : Nat}
    (h : s.Quiet (n + 3)) : s.maskedUpdate a f = .next (((s.setMem (s.mem.write a (f (s.mem.read a)))).setCp
      ⟨s.cp.k, s.cp.j + 3⟩).setSched (s.sched.drop 3)) := by
  unfold maskedUpdate critical rmw
  rw [nextMicro_quiet (s := s.setIe false) (n := n + 2) h]
  simp only [Res.andThen_next]
  rw [readReg_next (by exact ha)]
  rw [nextMicro_quiet (n := n + 1) (Quiet.drop (s := s) (m := 1) (Quiet.mono (by omega) h) (by simp))]
  simp only [Res.andThen_next]
  rw [writeReg_next (by exact ha)]
  simp only [Res.andThen_next]
  rw [nextMicro_quiet (n := n) (Quiet.drop (s := s) (m := 2) (Quiet.mono (by omega) h) (by simp [← List.drop_one, List.drop_drop]))]
  simp only [Res.andThen_next]
  simp [setSched, setCp, setIe, setMem, ← List.drop_one, List.drop_drop]

end Sys2Proof.Machine.State
end

