-- ==== Sys2Proof/Laws/Commands.lean ====
section
/-! SUPPORT. What a command can do: the pieces a generator command is made of, and the four shapes of the others. -/

namespace Sys2Proof.Machine.State

/-- One piece of a command on generator k that writes only the registers in w: the events of a boundary, a masked
update, or a change of a field of the generator or of the timer. -/
inductive Part (k : Index) (w : List Addr) : State → State → Prop
  | events {s t : State} {n : Nat} (h : Cut s t n) : Part k w s t
  | register {s t : State} {a : Addr} {f : Byte → Byte} (ha : a ∈ w) (hs : s.params.isStorage a = true)
      (h : Updated s t (s.mem.write a (f (s.mem.read a)))) : Part k w s t
  | ticks {s : State} (r : Word) (h : r.toInt < 0 → isOdd r = false) : Part k w s (s.setTicks k r)
  | paused {s : State} (b : Bool) : Part k w s (s.setPaused k b)
  | period {s : State} (p : Word) : Part k w s (s.setPeriod k p)
  | ready {s : State} (h : s.timer.handler = some .dispatch) :
      Part k w s (s.updateSpg k fun S => { S with paused := true, initialised := true })
  | timerInit {s : State} : Part k w s s.timerInit
  | timerPeriod {s : State} (p : Word) : Part k w s (s.timerSetPeriod p)
  | timerAttach {s : State} : Part k w s (s.timerAttach .dispatch)
  | timerStart {s : State} : Part k w s s.timerStart
  | timerStop {s : State} : Part k w s s.timerStop

/-- A command on generator k up to its end. -/
abbrev Parts (k : Index) (w : List Addr) : State → State → Prop := Relation.ReflTransGen (Part k w)

section
variable {k : Index} {w : List Addr} {s t u : State}

theorem Part.kept (p : Part k w s t) : Kept s t k w := by
  cases p with
  | events h => exact h.kept k w
  | register ha _ h => exact h.kept k fun b hb => by rw [Memory.read_write, if_neg (by rintro rfl; exact hb ha)]
  | ticks r h => exact updateSpg_kept _ _ _ _ fun _ => ⟨rfl, rfl⟩
  | paused b => exact updateSpg_kept _ _ _ _ fun _ => ⟨rfl, rfl⟩
  | period p => exact updateSpg_kept _ _ _ _ fun _ => ⟨rfl, rfl⟩
  | ready h => exact updateSpg_kept _ _ _ _ fun _ => ⟨rfl, rfl⟩
  | timerInit => exact (setTimer_kept s _ k w).trans (setDraws_kept _ _ k w)
  | timerPeriod p => exact setTimer_kept ..
  | timerAttach => exact setTimer_kept ..
  | timerStart => exact setTimer_kept ..
  | timerStop => exact setTimer_kept ..

theorem Kept.refl (s : State) (k : Index) (w : List Addr) : Kept s s k w := (setSched_cut s s.sched).kept k w

theorem Parts.kept (p : Parts k w s t) : Kept s t k w := by
  induction p with
  | refl => exact Kept.refl ..
  | tail _ h ih => exact ih.trans h.kept

theorem Parts.one (p : Part k w s t) : Parts k w s t := .single p

theorem nextMicro_parts (h : s.nextMicro = .next t) : Parts k w s t := by
  obtain ⟨n, c⟩ := nextMicro_cut h; exact .single (.events c)

theorem jumpMicro_parts {j : Nat} (h : s.jumpMicro j = .next t) : Parts k w s t := by
  obtain ⟨n, c⟩ := jumpMicro_cut h; exact .single (.events c)

theorem isOdd_ticksOfSteps {steps : Word} (h : stepsFit steps = true) : isOdd (ticksOfSteps steps) = false := by
  unfold stepsFit at h
  have h := of_decide_eq_true h
  have : (ticksOfSteps steps).toInt = steps.toInt * 2 := by
    unfold ticksOfSteps; rw [BitVec.toInt_ofInt_eq_self] <;> omega
  unfold isOdd; rw [this]; simp

theorem phaseTicks_nonneg (b : Bool) : ¬(phaseTicks b).toInt < 0 := by cases b <;> decide

theorem acceptStep_parts {c : PinCap} {steps : Word} {v : Level} (hc : c.state ∈ w) (hf : stepsFit steps = true)
    (h : s.acceptStep k c steps v = .next t) : ∃ u x, Parts k w s u ∧ t = u.answered x := by
  unfold acceptStep at h
  obtain ⟨a, ha, h⟩ := Res.andThen_eq_next.mp h
  obtain ⟨b, hb, h⟩ := Res.andThen_eq_next.mp h
  obtain ⟨hs, hu⟩ := maskedUpdate_eq_next hb
  refine ⟨b, 1, ?_, done_eq_next.mp h⟩
  exact (Relation.ReflTransGen.single (Part.ticks _ fun _ => isOdd_ticksOfSteps hf)).trans
    ((nextMicro_parts ha).trans (.single (.register hc hs hu)))

end

/-- Every generator command but `SPG_CONSTRUCT` is made of such pieces and ends in an answer. -/
theorem exec_parts {i : Instr} {k : Index} {s t : State} (hi : i.generator = some k)
    (hc : ∀ d p, i ≠ .spgConstruct k d p) (h : exec i s = .next t) :
    ∃ u v, Parts k (s.registersWritten i) s u ∧ t = u.answered v := by
  cases i <;> simp only [Instr.generator, Option.some.injEq, reduceCtorEq] at hi <;> subst hi
  case spgConstruct k d p => exact absurd rfl (hc d p)
  case spgInit k =>
    change execSpgInit k s = .next t at h
    unfold execSpgInit at h
    obtain ⟨S, hS, h⟩ := withSpg_eq_next.mp h
    have hw : s.registersWritten (.spgInit k) = [S.dirCap.dir, S.stepCap.dir] := by simp [registersWritten, hS]
    rw [hw]
    obtain ⟨a, ha, h⟩ := Res.andThen_eq_next.mp h
    obtain ⟨hs1, u1⟩ := maskedUpdate_eq_next ha
    obtain ⟨b, hb, h⟩ := Res.andThen_eq_next.mp h
    obtain ⟨c, hc', h⟩ := Res.andThen_eq_next.mp h
    obtain ⟨hs2, u2⟩ := maskedUpdate_eq_next hc'
    obtain ⟨d, hd, h⟩ := Res.andThen_eq_next.mp h
    obtain ⟨e, he, h⟩ := Res.andThen_eq_next.mp h
    obtain ⟨f, hf, h⟩ := Res.andThen_eq_next.mp h
    obtain ⟨g, hg, h⟩ := Res.andThen_eq_next.mp h
    have hh : g.timer.handler = some .dispatch := by
      obtain ⟨_, c1⟩ := nextMicro_cut hg
      obtain ⟨_, c2⟩ := nextMicro_cut hf
      rw [c1.handler]; show f.timer.handler = _; rw [c2.handler]; rfl
    refine ⟨_, 0, ?_, done_eq_next.mp h⟩
    refine Relation.ReflTransGen.trans (.single (.register (by simp) hs1 u1)) ?_
    refine Relation.ReflTransGen.trans (nextMicro_parts hb) ?_
    refine Relation.ReflTransGen.trans (.single (.register (by simp) hs2 u2)) ?_
    refine Relation.ReflTransGen.trans (nextMicro_parts hd) ?_
    refine Relation.ReflTransGen.trans (.single .timerInit) ?_
    refine Relation.ReflTransGen.trans (nextMicro_parts he) ?_
    refine Relation.ReflTransGen.trans (.single .timerAttach) ?_
    refine Relation.ReflTransGen.trans (nextMicro_parts hf) ?_
    refine Relation.ReflTransGen.trans (.single .timerStop) ?_
    exact Relation.ReflTransGen.trans (nextMicro_parts hg) (.single (.ready hh))
  case spgStep k steps v =>
    change execSpgStep k steps v s = .next t at h
    unfold execSpgStep at h
    obtain ⟨S, hS, -, h⟩ := withInitialised_eq_next.mp h
    obtain ⟨hf, h⟩ := whenStepsFit_eq_next.mp h
    have hw : s.registersWritten (.spgStep k steps v) = [S.dirCap.state] := by simp [registersWritten, hS]
    rw [hw]
    split at h
    · exact ⟨s, 0, .refl, done_eq_next.mp h⟩
    · obtain ⟨a, ha, h⟩ := Res.andThen_eq_next.mp h
      obtain ⟨u, x, hp, ht⟩ := acceptStep_parts (w := [S.dirCap.state]) (by simp) hf h
      exact ⟨u, x, (nextMicro_parts ha).trans hp, ht⟩
  case spgStepP k steps v p =>
    change execSpgStepP k steps v p s = .next t at h
    unfold execSpgStepP at h
    obtain ⟨S, hS, -, h⟩ := withInitialised_eq_next.mp h
    obtain ⟨hf, h⟩ := whenStepsFit_eq_next.mp h
    have hw : s.registersWritten (.spgStepP k steps v p) = [S.dirCap.state] := by simp [registersWritten, hS]
    rw [hw]
    split at h
    · exact ⟨s, 0, .refl, done_eq_next.mp h⟩
    · obtain ⟨a, ha, h⟩ := Res.andThen_eq_next.mp h
      obtain ⟨b, hb, h⟩ := Res.andThen_eq_next.mp h
      obtain ⟨c, hc', h⟩ := Res.andThen_eq_next.mp h
      obtain ⟨d, hd, h⟩ := Res.andThen_eq_next.mp h
      have hab : Parts k [S.dirCap.state] a b := by
        obtain ⟨A, hA, hb⟩ := withSpg_eq_next.mp hb
        split at hb
        · obtain ⟨x, hx, hb⟩ := Res.andThen_eq_next.mp hb
          obtain ⟨y, hy, hb⟩ := Res.andThen_eq_next.mp hb
          exact (nextMicro_parts hx).trans (Relation.ReflTransGen.trans (.single .timerStart) ((nextMicro_parts hy).trans
            (Relation.ReflTransGen.trans (.single (.paused false)) (nextMicro_parts hb))))
        · exact jumpMicro_parts hb
      have had : Parts k [S.dirCap.state] s d :=
        (nextMicro_parts ha).trans (hab.trans (Relation.ReflTransGen.trans (.single (.period p)) ((nextMicro_parts hc').trans
          (Relation.ReflTransGen.trans (.single (.timerPeriod p)) (nextMicro_parts hd)))))
      obtain ⟨D, hD, h⟩ := withSpg_eq_next.mp h
      split at h
      · exact ⟨d, 0, had, done_eq_next.mp h⟩
      · obtain ⟨e, he, h⟩ := Res.andThen_eq_next.mp h
        have hcap : D.dirCap = S.dirCap := by
          have := had.kept.caps k
          rw [hD, hS] at this
          simp only [Option.map_some, Option.some.injEq, Prod.mk.injEq] at this
          exact this.1
        obtain ⟨u, x, hp, ht⟩ := acceptStep_parts (w := [S.dirCap.state]) (by simp [hcap]) hf h
        exact ⟨u, x, had.trans ((nextMicro_parts he).trans hp), ht⟩
  case spgSetPeriod k p =>
    change execSpgSetPeriod k p s = .next t at h
    unfold execSpgSetPeriod at h
    obtain ⟨S, hS, -, h⟩ := withInitialised_eq_next.mp h
    obtain ⟨a, ha, h⟩ := Res.andThen_eq_next.mp h
    exact ⟨_, 0, (Relation.ReflTransGen.trans (.single (.period p)) ((nextMicro_parts ha).trans (.single (.timerPeriod p)))), done_eq_next.mp h⟩
  case spgStop k =>
    change execSpgStop k s = .next t at h
    unfold execSpgStop at h
    obtain ⟨S, hS, -, h⟩ := withInitialised_eq_next.mp h
    obtain ⟨a, ha, h⟩ := Res.andThen_eq_next.mp h
    have key : ∀ {x : State} {r1 r2 : Word}, x.stopRearms k r1 r2 = .next t →
        ∃ u v, Parts k (s.registersWritten (.spgStop k)) x u ∧ t = u.answered v := by
      intro x r1 r2 h
      unfold stopRearms at h
      obtain ⟨b, hb, h⟩ := Res.andThen_eq_next.mp h
      have hxb : Parts k (s.registersWritten (.spgStop k)) x b :=
        Relation.ReflTransGen.trans (.single (.ticks _ fun hn => absurd hn (phaseTicks_nonneg _))) (nextMicro_parts hb)
      split at h
      · obtain ⟨c, hc', h⟩ := Res.andThen_eq_next.mp h
        exact ⟨_, _, hxb.trans (Relation.ReflTransGen.trans (.single .timerStart) ((nextMicro_parts hc').trans (.single (.paused false)))), done_eq_next.mp h⟩
      · exact ⟨_, _, hxb.trans (.single .timerStart), done_eq_next.mp h⟩
    unfold stopReadsAgain at h
    have hsa : Parts k (s.registersWritten (.spgStop k)) s a.timerStop := (nextMicro_parts ha).trans (.single .timerStop)
    split at h
    · obtain ⟨b, hb, h⟩ := Res.andThen_eq_next.mp h
      obtain ⟨B, hB, h⟩ := withSpg_eq_next.mp h
      obtain ⟨c, hc', h⟩ := Res.andThen_eq_next.mp h
      obtain ⟨u, v, hp, ht⟩ := key h
      exact ⟨u, v, hsa.trans ((nextMicro_parts hb).trans ((nextMicro_parts hc').trans hp)), ht⟩
    · obtain ⟨b, hb, h⟩ := Res.andThen_eq_next.mp h
      obtain ⟨u, v, hp, ht⟩ := key h
      exact ⟨u, v, hsa.trans ((jumpMicro_parts hb).trans hp), ht⟩
  case spgPause k =>
    change execSpgPause k s = .next t at h
    unfold execSpgPause at h
    obtain ⟨S, hS, -, h⟩ := withInitialised_eq_next.mp h
    obtain ⟨a, ha, h⟩ := Res.andThen_eq_next.mp h
    exact ⟨_, 0, (Relation.ReflTransGen.trans (.single .timerStop) ((nextMicro_parts ha).trans (.single (.paused true)))), done_eq_next.mp h⟩
  case spgResume k =>
    change execSpgResume k s = .next t at h
    unfold execSpgResume at h
    obtain ⟨S, hS, -, h⟩ := withInitialised_eq_next.mp h
    split at h
    · obtain ⟨a, ha, h⟩ := Res.andThen_eq_next.mp h
      obtain ⟨b, hb, h⟩ := Res.andThen_eq_next.mp h
      exact ⟨_, 0, (nextMicro_parts ha).trans (Relation.ReflTransGen.trans (.single .timerStart) ((nextMicro_parts hb).trans (.single (.paused false)))), done_eq_next.mp h⟩
    · exact ⟨s, 0, .refl, done_eq_next.mp h⟩
  all_goals
    simp only [exec, execSpgIsStepping, execSpgIsStopped, execSpgIsPaused, execSpgGetRemainingSteps] at h
    obtain ⟨S, hS, -, h⟩ := withInitialised_eq_next.mp h
    exact ⟨s, _, .refl, done_eq_next.mp h⟩

/-- A PinGroup or system command: its construction, a read, a masked update, or the enable. -/
theorem exec_group_eq_next {i : Instr} {s t : State} (hi : i.generator = none) (h : exec i s = .next t) :
    (∃ g first rest, i = .pgConstruct g first rest ∧ s.group g = none ∧
      t = (s.putGroup g (PinGroup.build s.params first rest)).answered 0) ∨
    (i = .sysIrqDisable ∧ t = (s.setIe false).answered 0) ∨ (i = .sysIrqEnable ∧ t = (s.setIe true).answered 0) ∨
    (∃ n v, t = (s.setDraws n).answered v) ∨
    ∃ u m, Updated s u m ∧ t = u.answered 0 ∧ (s.MemoryBuilt → m.wf = true ∧ ∀ c ∈ m, s.params.isStorage c.1 = true) ∧
      ∀ a, a ∉ s.registersWritten i → m.read a = s.mem.read a := by
  have self : s = s.setDraws s.draws := rfl
  have one : ∀ {a : Addr} {f : Byte → Byte}, a ∈ s.registersWritten i →
      (s.maskedUpdate a f).andThen (State.done 0) = .next t →
      ∃ u m, Updated s u m ∧ t = u.answered 0 ∧ (s.MemoryBuilt → m.wf = true ∧ ∀ c ∈ m, s.params.isStorage c.1 = true) ∧
        ∀ a, a ∉ s.registersWritten i → m.read a = s.mem.read a := by
    intro a f ha h
    obtain ⟨u, hu, h⟩ := Res.andThen_eq_next.mp h
    obtain ⟨hs, hU⟩ := maskedUpdate_eq_next hu
    refine ⟨u, _, hU, done_eq_next.mp h, fun hm => ⟨Memory.wf_write hm.1 _ _, fun c hc => ?_⟩, fun b hb => ?_⟩
    · rcases Memory.mem_write hc with e | e
      · rw [e]; exact hs
      · exact hm.2 c e
    · exact Memory.read_write_other _ _ (by rintro rfl; exact hb ha)
  cases i <;> simp only [Instr.generator, reduceCtorEq] at hi
  case pgConstruct g first rest =>
    change execPgConstruct g first rest s = .next t at h
    unfold execPgConstruct at h
    split at h
    · simp at h
    · rename_i hn
      exact .inl ⟨g, first, rest, rfl, hn, done_eq_next.mp h⟩
  case pgIsValid g =>
    change execPgIsValid g s = .next t at h
    unfold execPgIsValid at h
    obtain ⟨G, -, h⟩ := withGroup_eq_next.mp h
    exact .inr (.inr (.inr (.inl ⟨_, _, (done_eq_next.mp h).trans (congrArg (State.answered · _) self)⟩)))
  case pgSet g m v =>
    change execPgSet g m v s = .next t at h
    unfold execPgSet at h
    obtain ⟨G, hG, -, h⟩ := withValidGroup_eq_next.mp h
    obtain ⟨u, hu, h⟩ := Res.andThen_eq_next.mp h
    obtain ⟨hs1, hs2, hU⟩ := doubleUpdate_eq_next hu
    refine .inr (.inr (.inr (.inr ⟨u, _, hU, done_eq_next.mp h, fun hm => ⟨Memory.wf_write (Memory.wf_write hm.1 _ _) _ _, fun c hc => ?_⟩, fun b hb => ?_⟩)))
    · rcases Memory.mem_write hc with e | e
      · rw [e]; exact hs2
      · rcases Memory.mem_write e with e | e
        · rw [e]; exact hs1
        · exact hm.2 c e
    · simp only [registersWritten, hG, Option.toList_some, List.flatMap_cons, List.flatMap_nil, List.append_nil, List.mem_cons, List.not_mem_nil, or_false, not_or] at hb
      rw [Memory.read_write_other _ _ hb.2, Memory.read_write_other _ _ hb.1]
  case sysIrqDisable => exact .inr (.inl ⟨rfl, done_eq_next.mp h⟩)
  case sysIrqEnable => exact .inr (.inr (.inl ⟨rfl, done_eq_next.mp h⟩))
  all_goals
    simp only [exec, execPgGetState, execPgGetMode, execPgGetValue, execPgEq, execPgNe, execPgSetMode, execPgSetState, execPgSetHigh, execPgSetLow,
      execPgToggleState, execPgSetOutput, execPgSetInput, execPgToggleMode, updateState, updateMode, readForEquality] at h
    obtain ⟨G, hG, -, h⟩ := withValidGroup_eq_next.mp h
    first
    | exact .inr (.inr (.inr (.inr (one (by simp [registersWritten, hG]) h))))
    | (obtain ⟨-, h⟩ := readReg_eq_next.mp h
       exact .inr (.inr (.inr (.inl ⟨_, _, (done_eq_next.mp h).trans (congrArg (State.answered · _) self)⟩))))
    | (obtain ⟨-, h⟩ := readValue_eq_next.mp h
       exact .inr (.inr (.inr (.inl ⟨_, _, done_eq_next.mp h⟩))))
    | (split at h
       · obtain ⟨-, h⟩ := readValue_eq_next.mp h
         exact .inr (.inr (.inr (.inl ⟨_, _, done_eq_next.mp h⟩)))
       · obtain ⟨-, h⟩ := readReg_eq_next.mp h
         exact .inr (.inr (.inr (.inl ⟨_, _, (done_eq_next.mp h).trans (congrArg (State.answered · _) self)⟩))))

/-- `SPG_CONSTRUCT`: the record, the events of one boundary, the target. -/
theorem exec_spgConstruct_eq_next {k : Index} {d p : PinNo} {s t : State} (h : exec (.spgConstruct k d p) s = .next t) :
    s.gen k = none ∧ ∃ u n, Cut (s.putGen k (Generator.build s.params d p)) u n ∧
      t = (u.setBound (s.bound.orElse fun _ => some k)).answered 0 := by
  change execSpgConstruct k d p s = .next t at h
  unfold execSpgConstruct at h
  split at h
  · simp at h
  · rename_i hn
    obtain ⟨u, hu, h⟩ := Res.andThen_eq_next.mp h
    obtain ⟨n, c⟩ := nextMicro_cut hu
    refine ⟨hn, u, n, c, ?_⟩
    have hb : u.bound = s.bound := c.bound
    rw [← hb]
    exact done_eq_next.mp h

end Sys2Proof.Machine.State
end

