-- ==== Sys2Proof/Laws/Decode.lean ====
section
/-! SUPPORT. What the fields of an encoded command word are, and what each format's decoder reads from it. -/

namespace Sys2Proof

theorem opcodeOf_commandWord (op : Byte) (k : Index) (imm : BitVec 16) : opcodeOf (commandWord op k imm) = op := by
  unfold opcodeOf commandWord
  apply BitVec.eq_of_getLsbD_eq
  intro i hi
  simp only [BitVec.getLsbD_extractLsb', BitVec.getLsbD_append]
  rw [if_neg (by omega), if_neg (by omega), if_neg (by omega)]
  simp only [hi, decide_true, Bool.true_and]
  congr 1; omega

theorem instOf_commandWord (op : Byte) (k : Index) (imm : BitVec 16) : instOf (commandWord op k imm) = k := by
  unfold instOf commandWord
  have h : BitVec.extractLsb' 20 4 (op ++ (BitVec.ofFin k : BitVec 4) ++ (0 : BitVec 4) ++ imm : BitVec 32) =
      (BitVec.ofFin k : BitVec 4) := by
    apply BitVec.eq_of_getLsbD_eq
    intro i hi
    simp only [BitVec.getLsbD_extractLsb', BitVec.getLsbD_append]
    rw [if_neg (by omega), if_neg (by omega), if_pos (by omega)]
    simp only [hi, decide_true, Bool.true_and]
    congr 1; omega
  rw [h]

theorem rsvdOf_commandWord (op : Byte) (k : Index) (imm : BitVec 16) : rsvdOf (commandWord op k imm) = 0 := by
  unfold rsvdOf commandWord
  apply BitVec.eq_of_getLsbD_eq
  intro i hi
  simp only [BitVec.getLsbD_extractLsb', BitVec.getLsbD_append]
  rw [if_neg (by omega), if_pos (by omega)]
  simp

theorem commandWord_getLsbD (op : Byte) (k : Index) (imm : BitVec 16) {i : Nat} (h : i < 16) :
    (commandWord op k imm).getLsbD i = imm.getLsbD i := by
  unfold commandWord
  simp only [BitVec.getLsbD_append]
  rw [if_pos h]

theorem commandWord_extract (op : Byte) (k : Index) (imm : BitVec 16) {a n : Nat} (h : a + n ≤ 16) :
    (commandWord op k imm).extractLsb' a n = imm.extractLsb' a n := by
  apply BitVec.eq_of_getLsbD_eq
  intro i hi
  simp only [BitVec.getLsbD_extractLsb']
  rw [commandWord_getLsbD _ _ _ (by omega)]

theorem immOf_commandWord (op : Byte) (k : Index) (imm : BitVec 16) : immOf (commandWord op k imm) = imm := by
  unfold immOf
  rw [commandWord_extract _ _ _ (by omega)]
  apply BitVec.eq_of_getLsbD_eq
  intro i hi
  simp only [BitVec.getLsbD_extractLsb', hi, decide_true, Bool.true_and, Nat.zero_add]

theorem formatZ_commandWord (op : Byte) (k : Index) (i : Instr) : formatZ (commandWord op k 0) i = .ok i := by
  unfold formatZ; rw [immOf_commandWord, if_pos rfl]

theorem formatV_commandWord (op : Byte) (k : Index) (v : Bool) (i : Bool → Instr) :
    formatV (commandWord op k (immV v)) i = .ok (i v) := by
  unfold formatV
  rw [commandWord_extract _ _ _ (by omega), commandWord_getLsbD _ _ _ (by omega)]
  cases v <;> rfl

theorem formatM_commandWord (op : Byte) (k : Index) (m v : Bool) (i : Bool → Bool → Instr) :
    formatM (commandWord op k (immM m v)) i = .ok (i m v) := by
  unfold formatM
  rw [commandWord_extract _ _ _ (by omega), commandWord_getLsbD _ _ _ (by omega), commandWord_getLsbD _ _ _ (by omega)]
  cases m <;> cases v <;> rfl

theorem formatP_commandWord (op : Byte) (k : Index) (d p : PinNo) (i : PinNo → PinNo → Instr) :
    formatP (commandWord op k (p ++ d)) i = .ok (i d p) := by
  unfold formatP
  rw [commandWord_extract _ _ _ (by omega), commandWord_extract _ _ _ (by omega)]
  have h1 : BitVec.extractLsb' 0 8 (p ++ d : BitVec 16) = d := by
    apply BitVec.eq_of_getLsbD_eq
    intro i hi
    simp only [BitVec.getLsbD_extractLsb', BitVec.getLsbD_append, hi, decide_true, Bool.true_and]
    rw [if_pos (by omega)]; congr 1; omega
  have h2 : BitVec.extractLsb' 8 8 (p ++ d : BitVec 16) = p := by
    apply BitVec.eq_of_getLsbD_eq
    intro i hi
    simp only [BitVec.getLsbD_extractLsb', BitVec.getLsbD_append, hi, decide_true, Bool.true_and]
    rw [if_neg (by omega)]; congr 1; omega
  rw [h1, h2]

/-- The operand words of a pin list carry its slots in order. -/
theorem pinSlots_pinWord (pins : List PinNo) (k : Nat) :
    pinSlots (pinWord pins k) = [pins.getD k 0, pins.getD (k + 1) 0, pins.getD (k + 2) 0, pins.getD (k + 3) 0] := by
  unfold pinSlots pinWord
  congr 1
  · apply BitVec.eq_of_getLsbD_eq
    intro i hi
    simp only [BitVec.getLsbD_extractLsb', BitVec.getLsbD_append, hi, decide_true, Bool.true_and]
    rw [if_pos (by omega)]; congr 1; omega
  congr 1
  · apply BitVec.eq_of_getLsbD_eq
    intro i hi
    simp only [BitVec.getLsbD_extractLsb', BitVec.getLsbD_append, hi, decide_true, Bool.true_and]
    rw [if_neg (by omega), if_pos (by omega)]; congr 1; omega
  congr 1
  · apply BitVec.eq_of_getLsbD_eq
    intro i hi
    simp only [BitVec.getLsbD_extractLsb', BitVec.getLsbD_append, hi, decide_true, Bool.true_and]
    rw [if_neg (by omega), if_neg (by omega), if_pos (by omega)]; congr 1; omega
  congr 1
  · apply BitVec.eq_of_getLsbD_eq
    intro i hi
    simp only [BitVec.getLsbD_extractLsb', BitVec.getLsbD_append, hi, decide_true, Bool.true_and]
    rw [if_neg (by omega), if_neg (by omega), if_neg (by omega)]; congr 1; omega

/-- The eight slots of a list of at most eight pins: the pins, then zeros. -/
theorem slots_of_pins (pins : List PinNo) (h : pins.length ≤ 8) :
    (([pinWord pins 0, pinWord pins 4].flatMap pinSlots).take pins.length = pins) ∧
    (([pinWord pins 0, pinWord pins 4].flatMap pinSlots).drop pins.length).all (· == 0) = true := by
  simp only [List.flatMap_cons, List.flatMap_nil, pinSlots_pinWord]
  match pins, h with
  | [], _ => decide
  | [a], _ => simp
  | [a, b], _ => simp
  | [a, b, c], _ => simp
  | [a, b, c, d], _ => simp
  | [a, b, c, d, e], _ => simp
  | [a, b, c, d, e, f], _ => simp
  | [a, b, c, d, e, f, g], _ => simp
  | [a, b, c, d, e, f, g, i], _ => simp
  | a :: b :: c :: d :: e :: f :: g :: i :: j :: l, h => simp at h; omega

theorem formatG_encoded (k : Index) (first : PinNo) (rest : List PinNo) (h : rest.length + 1 ≤ maxPins)
    (i : PinNo → List PinNo → Instr) :
    formatG (commandWord 0x00 k (BitVec.ofNat 16 (rest.length + 1)))
      [pinWord (first :: rest) 0, pinWord (first :: rest) 4] i = .ok (i first rest) := by
  have h8 : rest.length + 1 ≤ 8 := h
  have hn : ((commandWord 0x00 k (BitVec.ofNat 16 (rest.length + 1))).extractLsb' 0 4).toNat = rest.length + 1 := by
    rw [commandWord_extract _ _ _ (by omega)]
    simp [BitVec.extractLsb'_toNat]; omega
  have hz : (commandWord 0x00 k (BitVec.ofNat 16 (rest.length + 1))).extractLsb' 4 12 = 0 := by
    rw [commandWord_extract _ _ _ (by omega)]
    apply BitVec.eq_of_toNat_eq
    simp [BitVec.extractLsb'_toNat, Nat.shiftRight_eq_div_pow]
    omega
  obtain ⟨ht, hd⟩ := slots_of_pins (first :: rest) (by simpa using h8)
  simp only [List.length_cons] at ht hd
  unfold formatG
  simp only [hn, hz, ne_eq, not_true_eq_false, if_false, ht, hd, if_true]
  rw [if_neg (by simp only [maxPins]; omega)]

end Sys2Proof
end

