-- ==== Sys2Proof/Laws/PerInstr.lean ====
section
/-! SUPPORT. A law for each command as syntax: its encoding has as many words as its opcode asks for (R100). -/

namespace Sys2Proof.Laws.EncodeLength

/-- The encoding is a command word and the operand words that the command word's opcode asks for. -/
def Statement (i : Instr) : Prop := ∃ w0 ws, encode i = w0 :: ws ∧ ws.length + 1 = commandLength w0

theorem pgConstruct (g : Index) (first : PinNo) (rest : List PinNo) : Statement (.pgConstruct g first rest) :=
  ⟨_, _, rfl, by unfold commandLength; rw [opcodeOf_commandWord]; rfl⟩

theorem pgIsValid (g : Index) : Statement (.pgIsValid g) :=
  ⟨_, _, rfl, by unfold commandLength; rw [opcodeOf_commandWord]; rfl⟩

theorem pgGetState (g : Index) : Statement (.pgGetState g) :=
  ⟨_, _, rfl, by unfold commandLength; rw [opcodeOf_commandWord]; rfl⟩

theorem pgGetValue (g : Index) : Statement (.pgGetValue g) :=
  ⟨_, _, rfl, by unfold commandLength; rw [opcodeOf_commandWord]; rfl⟩

theorem pgGetMode (g : Index) : Statement (.pgGetMode g) :=
  ⟨_, _, rfl, by unfold commandLength; rw [opcodeOf_commandWord]; rfl⟩

theorem pgEq (g : Index) (v : Level) : Statement (.pgEq g v) :=
  ⟨_, _, rfl, by unfold commandLength; rw [opcodeOf_commandWord]; rfl⟩

theorem pgNe (g : Index) (v : Level) : Statement (.pgNe g v) :=
  ⟨_, _, rfl, by unfold commandLength; rw [opcodeOf_commandWord]; rfl⟩

theorem pgSet (g : Index) (m : Mode) (v : Level) : Statement (.pgSet g m v) :=
  ⟨_, _, rfl, by unfold commandLength; rw [opcodeOf_commandWord]; rfl⟩

theorem pgSetMode (g : Index) (m : Mode) : Statement (.pgSetMode g m) :=
  ⟨_, _, rfl, by unfold commandLength; rw [opcodeOf_commandWord]; rfl⟩

theorem pgSetState (g : Index) (v : Level) : Statement (.pgSetState g v) :=
  ⟨_, _, rfl, by unfold commandLength; rw [opcodeOf_commandWord]; rfl⟩

theorem pgSetHigh (g : Index) : Statement (.pgSetHigh g) :=
  ⟨_, _, rfl, by unfold commandLength; rw [opcodeOf_commandWord]; rfl⟩

theorem pgSetLow (g : Index) : Statement (.pgSetLow g) :=
  ⟨_, _, rfl, by unfold commandLength; rw [opcodeOf_commandWord]; rfl⟩

theorem pgToggleState (g : Index) : Statement (.pgToggleState g) :=
  ⟨_, _, rfl, by unfold commandLength; rw [opcodeOf_commandWord]; rfl⟩

theorem pgSetOutput (g : Index) : Statement (.pgSetOutput g) :=
  ⟨_, _, rfl, by unfold commandLength; rw [opcodeOf_commandWord]; rfl⟩

theorem pgSetInput (g : Index) : Statement (.pgSetInput g) :=
  ⟨_, _, rfl, by unfold commandLength; rw [opcodeOf_commandWord]; rfl⟩

theorem pgToggleMode (g : Index) : Statement (.pgToggleMode g) :=
  ⟨_, _, rfl, by unfold commandLength; rw [opcodeOf_commandWord]; rfl⟩

theorem spgConstruct (i : Index) (dirPin stepPin : PinNo) : Statement (.spgConstruct i dirPin stepPin) :=
  ⟨_, _, rfl, by unfold commandLength; rw [opcodeOf_commandWord]; rfl⟩

theorem spgInit (i : Index) : Statement (.spgInit i) :=
  ⟨_, _, rfl, by unfold commandLength; rw [opcodeOf_commandWord]; rfl⟩

theorem spgStep (i : Index) (steps : Word) (v : Level) : Statement (.spgStep i steps v) :=
  ⟨_, _, rfl, by unfold commandLength; rw [opcodeOf_commandWord]; rfl⟩

theorem spgStepP (i : Index) (steps : Word) (v : Level) (period : Word) : Statement (.spgStepP i steps v period) :=
  ⟨_, _, rfl, by unfold commandLength; rw [opcodeOf_commandWord]; rfl⟩

theorem spgSetPeriod (i : Index) (period : Word) : Statement (.spgSetPeriod i period) :=
  ⟨_, _, rfl, by unfold commandLength; rw [opcodeOf_commandWord]; rfl⟩

theorem spgStop (i : Index) : Statement (.spgStop i) :=
  ⟨_, _, rfl, by unfold commandLength; rw [opcodeOf_commandWord]; rfl⟩

theorem spgPause (i : Index) : Statement (.spgPause i) :=
  ⟨_, _, rfl, by unfold commandLength; rw [opcodeOf_commandWord]; rfl⟩

theorem spgResume (i : Index) : Statement (.spgResume i) :=
  ⟨_, _, rfl, by unfold commandLength; rw [opcodeOf_commandWord]; rfl⟩

theorem spgIsStepping (i : Index) : Statement (.spgIsStepping i) :=
  ⟨_, _, rfl, by unfold commandLength; rw [opcodeOf_commandWord]; rfl⟩

theorem spgIsStopped (i : Index) : Statement (.spgIsStopped i) :=
  ⟨_, _, rfl, by unfold commandLength; rw [opcodeOf_commandWord]; rfl⟩

theorem spgIsPaused (i : Index) : Statement (.spgIsPaused i) :=
  ⟨_, _, rfl, by unfold commandLength; rw [opcodeOf_commandWord]; rfl⟩

theorem spgGetRemainingSteps (i : Index) : Statement (.spgGetRemainingSteps i) :=
  ⟨_, _, rfl, by unfold commandLength; rw [opcodeOf_commandWord]; rfl⟩

theorem sysIrqDisable : Statement .sysIrqDisable :=
  ⟨_, _, rfl, by unfold commandLength; rw [opcodeOf_commandWord]; rfl⟩

theorem sysIrqEnable : Statement .sysIrqEnable :=
  ⟨_, _, rfl, by unfold commandLength; rw [opcodeOf_commandWord]; rfl⟩

end Sys2Proof.Laws.EncodeLength
end

