-- ==== Sys2Proof/Laws/Step.lean ====
section
/-! SUPPORT. What a step can be, and a run as steps. -/

namespace Sys2Proof.Machine

/-- What a step can be: an event or nothing, an ILLEGAL command, or a command's meaning. -/
theorem step_eq_next {s t : State} (h : step s = .next t) :
    (∃ n, s.Cut t n ∧ t.cp = s.cp) ∨
    (s.MainsTurn ∧ ∃ w0 operands rest, fetch s.cmds = .command w0 operands rest ∧ t = (s.afterFetch rest).illegal) ∨
    (s.MainsTurn ∧ ∃ w0 operands rest i, fetch s.cmds = .command w0 operands rest ∧ decodeCommand w0 operands = .ok i ∧
      i.present s.params = true ∧ exec i (s.afterFetch rest) = .next t) := by
  have main : ∀ u : State, s.MainsTurn → u = s.setSched s.sched.tail → runMain u = .next t →
      (∃ n, s.Cut t n ∧ t.cp = s.cp) ∨
      (s.MainsTurn ∧ ∃ w0 operands rest, fetch s.cmds = .command w0 operands rest ∧ t = (s.afterFetch rest).illegal) ∨
      (s.MainsTurn ∧ ∃ w0 operands rest i, fetch s.cmds = .command w0 operands rest ∧
        decodeCommand w0 operands = .ok i ∧ i.present s.params = true ∧ exec i (s.afterFetch rest) = .next t) := by
    rintro u hm rfl h
    unfold runMain at h
    simp only [State.setSched_cmds] at h
    split at h
    · simp only [Host.Outcome.next.injEq] at h
      exact .inl ⟨0, h ▸ State.setSched_cut .., h ▸ rfl⟩
    · simp at h
    · rename_i w0 ops rest hf
      split at h
      · simp only [Host.Outcome.next.injEq] at h
        exact .inr (.inl ⟨hm, w0, ops, rest, hf, h.symm⟩)
      · rename_i i hd
        by_cases hp : i.present (s.setSched s.sched.tail).params = true
        · rw [if_pos hp] at h
          exact .inr (.inr ⟨hm, w0, ops, rest, i, hf, hd, hp, h⟩)
        · rw [if_neg hp, Host.Outcome.next.injEq] at h
          exact .inr (.inl ⟨hm, w0, ops, rest, hf, h.symm⟩)
  unfold step takeTurn at h
  split at h
  · rename_i hs
    exact main s ⟨by simp [hs], by simp [hs]⟩ (by cases s; simp only at hs; subst hs; rfl) h
  · rename_i rest hs
    exact main _ ⟨by simp [hs], by simp [hs]⟩ (by rw [hs]; rfl) h
  · rename_i rest hs
    simp only [Host.Outcome.next.injEq] at h
    subst h
    refine .inl ⟨_, (State.setSched_cut s rest).trans (State.fire_cut _), ?_⟩
    unfold State.fire; split <;> rfl
  · rename_i rest hs
    obtain ⟨n, c⟩ := State.deliver_cut h
    refine .inl ⟨_, (State.setSched_cut s rest).trans c, ?_⟩
    unfold State.deliver at h
    split at h
    · simp only [Host.Outcome.next.injEq] at h; subst h; rfl
    · rename_i hd hh
      split at h
      · obtain ⟨u, hu, h⟩ := Res.andThen_eq_next.mp h
        cases hd
        obtain rfl := State.dispatch_eq_next hu
        simp only [Host.Outcome.next.injEq] at h
        subst h
        show (State.afterTick _).cp = _
        rw [State.afterTick_cp]; rfl
      · simp only [Host.Outcome.next.injEq] at h; subst h; rfl

/-! ## Runs -/

theorem run_succ {n : Nat} {s t : State} (h : Host.Core.run Sys2Proof.core (n + 1) s = .next t) :
    ∃ u, step s = .next u ∧ Host.Core.run Sys2Proof.core n u = .next t := by
  simp only [Host.Core.run] at h
  have e : Sys2Proof.core.step s = step s := rfl
  cases hs : step s with
  | next u => simp only [e, hs] at h; exact ⟨u, rfl, h⟩
  | fault f => simp only [e, hs] at h; exact absurd h (by simp)
  | refused f => simp only [e, hs] at h; exact absurd h (by simp)

theorem run_next {n : Nat} {s u : State} (h : step s = .next u) :
    Host.Core.run Sys2Proof.core (n + 1) s = Host.Core.run Sys2Proof.core n u := by
  have e : Sys2Proof.core.step s = step s := rfl
  simp only [Host.Core.run, e, h]

/-- A run that has a meaning is a run. -/
theorem State.MeaningfulRun.run_eq {n : Nat} {s t : State} (h : s.MeaningfulRun n t) :
    Host.Core.run Sys2Proof.core n s = .next t := by
  induction n generalizing s with
  | zero => exact congrArg Host.Outcome.next h.symm
  | succ n ih =>
    obtain ⟨-, u, hu, h⟩ := h
    rw [run_next hu, ih h]

/-- Two runs that have a meaning, one after the other. -/
theorem State.MeaningfulRun.append {n m : Nat} {r s t : State} (h : r.MeaningfulRun n s) (k : s.MeaningfulRun m t) :
    r.MeaningfulRun (n + m) t := by
  induction n generalizing r with
  | zero => rw [show r = s from h.symm, Nat.zero_add]; exact k
  | succ n ih =>
    obtain ⟨h1, u, h2, h3⟩ := h
    rw [Nat.succ_add]
    exact ⟨h1, u, h2, ih h3⟩

/-- What every step keeps holds at the end of a run. -/
theorem State.MeaningfulRun.induction {P : State → Prop} (hP : ∀ s t, P s → step s = .next t → P t) {n : Nat} {s t : State}
    (hs : P s) (h : s.MeaningfulRun n t) : P t := by
  induction n generalizing s with
  | zero => rw [show t = s from h]; exact hs
  | succ n ih =>
    obtain ⟨-, u, hu, h⟩ := h
    exact ih (hP s u hs hu) h

end Sys2Proof.Machine
end

