-- ==== Sys2Proof/Tests/Slice0.lean ====
section
/-! SUPPORT. Tests of single operations, with results from spec/95_test_vectors.md, and for every obligation with
hypotheses a witness that meets them. -/

namespace Sys2Proof.Tests

set_option Elab.async false

open Sys2Proof Sys2Proof.Machine Sys2Proof.Machine.State

/-! ## Fixtures (95_test_vectors.md section 0) -/

/-- The platform EX1. -/
def ex1Platform : Vector PinCap 256 :=
  Vector.ofFn fun p => ⟨0x20 + 3 * (p.val / 8), 0x21 + 3 * (p.val / 8), 0x22 + 3 * (p.val / 8),
    ⟨p.val % 8, Nat.mod_lt _ (by decide)⟩⟩

/-- EX1's parameters: four groups, two generators. -/
def ex1 : Params :=
  { platform := ex1Platform, addrWidth := 16, periodUnit := 1, lastGroup := 3, lastSpg := 1,
    eqSource := .state, ieReset := true, hasGetRemainingSteps := true, stopReadsTwice := true, stopClearsPaused := true }

/-- One generator only. -/
def ex1One : Params := { ex1 with lastSpg := 0 }

/-- The machine at launch. -/
def launched (mem : Memory) : State := State.launch ex1 mem true

/-- The group g0 = [1, 2, 4] and the invalid g1 = [7, 8] (S3). -/
def grouped (mem : Memory) : State :=
  ((launched mem).putGroup 0 (PinGroup.build ex1 1 [2, 4])).putGroup 1 (PinGroup.build ex1 7 [8])

/-- The generator s0 on pins 8 and 9. -/
def spg0 (ticks : Word) (paused : Bool) : Generator :=
  { initialised := true, dirCap := ex1.resolve 8, stepCap := ex1.resolve 9, remainingTicks := ticks, paused := paused,
    period := none }

/-- s0 initialised and bound, with STATE_B = 0x43 and DIR_B = 0x03. -/
def pulsing (p : Params) (ticks : Word) (paused running pending : Bool) : State :=
  (((State.launch p [(0x24, 0x43), (0x25, 0x03)] true).setTimer
    { running := running, period := none, handler := some .dispatch, pending := pending }).setBound (some 0)).putGen 0
    (spg0 ticks paused)

/-- s0 with the counter at 13 and the timer running. -/
def running13 : State := pulsing ex1 13 false true false

/-- s0 in Idle. -/
def idle0 : State := pulsing ex1 0 false true false

/-! ## Looking at an outcome -/

def holds (r : Res) (p : State → Bool) : Bool :=
  match r with
  | .next t => p t
  | .fault _ => false
  | .refused _ => false

/-- The words are one whole command, and it is i. -/
def decodesTo (ws : List Word) (i : Instr) : Bool :=
  match decode ws with
  | .ok (j, rest) => j == i && rest.isEmpty
  | .error _ => false

def refusedWith (r : Res) (e : Refusal) : Bool :=
  match r with
  | .next _ => false
  | .fault _ => false
  | .refused e' => e == e'

theorem exists_next {r : Res} (h : holds r (fun _ => true) = true) : ∃ t, r = .next t := by
  cases r with
  | next t => exact ⟨t, rfl⟩
  | fault e => cases h
  | refused e => cases h

theorem next_with {r : Res} {p : State → Bool} (h : holds r p = true) : ∃ t, r = .next t ∧ p t = true := by
  cases r with
  | next t => exact ⟨t, rfl, h⟩
  | fault e => cases h
  | refused e => cases h

theorem refused_of {r : Res} {e : Refusal} (h : refusedWith r e = true) : r = .refused e := by
  cases r with
  | next t => cases h
  | fault e => cases h
  | refused e' => simp only [refusedWith, beq_iff_eq] at h; rw [h]

/-- Counter, paused flag, and the timer's running bit. -/
def spgIs (t : State) (ticks : Word) (paused running : Bool) : Bool :=
  (t.gen 0).map (·.remainingTicks) == some ticks && (t.gen 0).map (·.paused) == some paused && t.timer.running == running

/-! ## WellFormed and presence -/

/-- R112: nine pins are no command. -/
theorem test_nine_pins_refused : (Instr.pgConstruct 0 0 [1, 2, 3, 4, 5, 6, 7, 8]).wellFormed = false := by decide

/-- V2: an index at `NGROUPS` or `NSPG`, and the optional query, are not there. -/
theorem test_absent_refused :
    (Instr.pgIsValid 4).present ex1 = false ∧ (Instr.pgIsValid 3).present ex1 = true ∧
    (Instr.spgInit 2).present ex1 = false ∧ (Instr.spgInit 1).present ex1 = true ∧
    (Instr.spgGetRemainingSteps 0).present { ex1 with hasGetRemainingSteps := false } = false := by decide +kernel

/-! ## Decoding: V1, V2, V3 -/

theorem test_decode_pinGroup :
    decodesTo [0x00000003, 0x00040201, 0x00000000] (.pgConstruct 0 1 [2, 4]) = true ∧
    decodesTo [0x00200008, 0x03020100, 0x07060504] (.pgConstruct 2 0 [1, 2, 3, 4, 5, 6, 7]) = true ∧
    decodesTo [0x01100000] (.pgIsValid 1) = true ∧ decodesTo [0x02000000] (.pgGetState 0) = true ∧
    decodesTo [0x03200000] (.pgGetValue 2) = true ∧ decodesTo [0x04000000] (.pgGetMode 0) = true ∧
    decodesTo [0x05000001] (.pgEq 0 .high) = true ∧ decodesTo [0x06300000] (.pgNe 3 .low) = true ∧
    decodesTo [0x08000002] (.pgSet 0 .output .low) = true ∧ decodesTo [0x08000001] (.pgSet 0 .input .high) = true ∧
    decodesTo [0x09000001] (.pgSetMode 0 .output) = true ∧ decodesTo [0x0A000001] (.pgSetState 0 .high) = true ∧
    decodesTo [0x0B000000] (.pgSetHigh 0) = true ∧ decodesTo [0x0C000000] (.pgSetLow 0) = true ∧
    decodesTo [0x0D000000] (.pgToggleState 0) = true ∧ decodesTo [0x0E000000] (.pgSetOutput 0) = true ∧
    decodesTo [0x0F000000] (.pgSetInput 0) = true ∧ decodesTo [0x10000000] (.pgToggleMode 0) = true := by decide +kernel

theorem test_decode_stepPulse :
    decodesTo [0x80000908] (.spgConstruct 0 8 9) = true ∧ decodesTo [0x80100B0A] (.spgConstruct 1 10 11) = true ∧
    decodesTo [0x81000000] (.spgInit 0) = true ∧ decodesTo [0x82000001, 0x0000000A] (.spgStep 0 10 .high) = true ∧
    decodesTo [0x82000000, 0xFFFFFFFE] (.spgStep 0 (-2) .low) = true ∧
    decodesTo [0x83000001, 0x0000000A, 0x000001F4] (.spgStepP 0 10 .high 500) = true ∧
    decodesTo [0x84000000, 0x000001F4] (.spgSetPeriod 0 500) = true ∧ decodesTo [0x85000000] (.spgStop 0) = true ∧
    decodesTo [0x86000000] (.spgPause 0) = true ∧ decodesTo [0x87000000] (.spgResume 0) = true ∧
    decodesTo [0x88000000] (.spgIsStepping 0) = true ∧ decodesTo [0x89000000] (.spgIsStopped 0) = true ∧
    decodesTo [0x8A000000] (.spgIsPaused 0) = true ∧ decodesTo [0x8B000000] (.spgGetRemainingSteps 0) = true := by decide +kernel

theorem test_decode_system :
    decodesTo [0xF0000000] .sysIrqDisable = true ∧ decodesTo [0xF1000000] .sysIrqEnable = true := by decide +kernel

/-- V2: no word of these decodes. -/
theorem test_decode_illegal :
    ([[0x07000000], [0x11000000], [0x7F000000], [0x8C000000], [0xEF000000], [0xF2000000], [0xFF000000], [0x02010000],
      [0x02000001], [0x05000002], [0x08000004], [0x80010908], [0, 0, 0], [0x00000009, 0x03020100, 0x07060504],
      [0x00000002, 0x00030201, 0], [0x00000013, 0x00040201, 0], [0xF0100000], [0x82000002, 0x0000000A],
      [0x84000001, 0x000001F4]] : List (List Word)).all
      (fun ws => match decode ws with | .ok _ => false | .error _ => true) = true := by decide

/-- The table's numbering: the second word is bits 63 to 32; operand words beyond nbits are zero. -/
theorem test_decodeTableWord :
    decodeTableWord 64 (0x82000001 + 2 ^ 32 * 0x0000000A) = some (.spgStep 0 10 .high) ∧
    decodeTableWord 32 0x83000000 = some (.spgStepP 0 0 .low 0) ∧ decodeTableWord 32 0x07000000 = none := by decide

/-- The very next step runs the word, also where the schedule had events in front. -/
theorem test_withFetchWord :
    holds (step ((idle0.setSched [.fire, .main]).withFetchWord 32 0xF0000000)) (fun t => !t.ie && t.cp == ⟨1, 1⟩) =
      true := by decide +kernel

/-- R31: an address has `ADDRW` bits; at 16 bits EX1's addresses are those of its table. -/
theorem test_address_width : (ex1.resolve 8).state = 0x24 ∧ (({ ex1 with addrWidth := 5 } : Params).resolve 8).state = 0x04 ∧
    ({ ex1 with addrWidth := 5 } : Params).isStorage 0x24 = false := by decide +kernel

theorem ex1_resolve (n : PinNo) : (ex1.resolve n).value = 0x20 + 3 * (n.toNat / 8) ∧
    (ex1.resolve n).state = 0x21 + 3 * (n.toNat / 8) ∧ (ex1.resolve n).dir = 0x22 + 3 * (n.toNat / 8) := by
  have hn := n.isLt
  simp only [Params.resolve, PinCap.narrow, ex1, ex1Platform, Vector.getElem_ofFn]
  refine ⟨Nat.mod_eq_of_lt ?_, Nat.mod_eq_of_lt ?_, Nat.mod_eq_of_lt ?_⟩ <;> omega

/-- 95_test_vectors.md section 0: 'EX1 satisfies WF_PLATFORM'. -/
theorem test_ex1_wfPlatform : ex1.WfPlatform := by
  have port : ∀ x y : Nat,
      (0x22 + 3 * x = 0x22 + 3 * y → 0x21 + 3 * x = 0x21 + 3 * y ∧ 0x20 + 3 * x = 0x20 + 3 * y) ∧
      (0x20 + 3 * x ≠ 0x21 + 3 * y ∧ 0x20 + 3 * x ≠ 0x22 + 3 * y ∧ 0x21 + 3 * x ≠ 0x22 + 3 * y) ∧
      (0x22 + 3 * x ≠ 0x22 + 3 * y → 0x21 + 3 * x ≠ 0x21 + 3 * y ∧ 0x20 + 3 * x ≠ 0x20 + 3 * y) := by omega
  have at_pins : ∀ m n : PinNo, _ := fun m n => port (m.toNat / 8) (n.toNat / 8)
  simp only [← (ex1_resolve _).1, ← (ex1_resolve _).2.1, ← (ex1_resolve _).2.2] at at_pins
  exact ⟨fun m n => (at_pins m n).1, fun n => (at_pins n n).2.1, fun m n => (at_pins m n).2.1,
    fun m n => (at_pins m n).2.2⟩

/-- EX1 with pin 8 moved to a port of its own that keeps port B's STATE address. -/
def sharedState : Params :=
  { ex1 with platform := ex1Platform.set 8 ⟨0x80, 0x24, 0x82, 0⟩ }

/-- D7: 'different ports share no address'. -/
theorem test_shared_state_is_no_platform : ¬sharedState.WfPlatform := fun h =>
  (h.portsApart 8 9 (by decide +kernel)).1 (by decide +kernel)

/-! ## PinGroup: S1 to S4, V11, V15, V16, V22 -/

theorem test_pgConstruct : holds (exec (.pgConstruct 3 8 [9, 15]) (launched [])) (fun t =>
    t.group 3 == some ⟨[8, 9, 15], 0x83, 0x7C, 0x23, 0x24, 0x25, true⟩ && t.result == 0) = true := by decide +kernel

theorem test_pgConstruct_repeated_pin : holds (exec (.pgConstruct 0 3 [3]) (launched [])) (fun t =>
    (t.group 0).map (fun G => (G.offset, G.valid)) == some (0x08, true)) = true := by decide +kernel

theorem test_pgIsValid : holds (exec (.pgIsValid 0) (grouped [])) (fun t => t.result == 1) = true ∧
    holds (exec (.pgIsValid 1) (grouped [])) (fun t => t.result == 0) = true := by decide +kernel

theorem test_pgGetState : holds (exec (.pgGetState 0) (grouped [(0x21, 0xA5)])) (fun t => t.result == 0xFFFFFFFF) = true ∧
    holds (exec (.pgGetState 0) (grouped [(0x21, 0xB7)])) (fun t => t.result == 1) = true := by decide +kernel

theorem test_pgGetMode : holds (exec (.pgGetMode 0) (grouped [(0x22, 0x81)])) (fun t => t.result == 0) = true := by
  decide +kernel

theorem getValue_next {s : State} {G : PinGroup} (hG : s.group 0 = some G) (hv : G.valid = true)
    (hr : s.params.isValueReg G.valueAddr = true) : exec (.pgGetValue 0) s =
      .next ((s.setDraws (s.draws + 1)).answered (classify (Config.valueDraw G.valueAddr s.draws) G.offset).result) := by
  refine (withValidGroup_some hG hv _).trans ?_
  unfold readValue
  rw [if_pos hr]
  exact done_eq ..

/-- V15: the answer is the class of the byte drawn for `0x0020`, and one draw is used up. -/
theorem test_pgGetValue : ∃ t, exec (.pgGetValue 0) (grouped []) = .next t ∧
    t.result = (classify (Config.valueDraw 0x20 0) 0x16).result ∧ t.draws = 1 :=
  ⟨_, getValue_next (G := ⟨[1, 2, 4], 0x16, 0xE9, 0x20, 0x21, 0x22, true⟩) (by decide +kernel) rfl (by decide +kernel),
    rfl, rfl⟩

theorem test_pgEq : holds (exec (.pgEq 0 .high) (grouped [(0x21, 0xB7)])) (fun t => t.result == 1) = true ∧
    holds (exec (.pgEq 0 .high) (grouped [(0x21, 0x12)])) (fun t => t.result == 0) = true := by decide +kernel

theorem test_pgNe : holds (exec (.pgNe 0 .high) (grouped [(0x21, 0xA1)])) (fun t => t.result == 1) = true ∧
    holds (exec (.pgNe 0 .low) (grouped [(0x21, 0x06)])) (fun t => t.result == 0) = true := by decide +kernel

/-- V22: DIRECTION by the mode, STATE by the level. -/
theorem test_pgSet : holds (exec (.pgSet 0 .output .low) (grouped [(0x21, 0xB7), (0x22, 0x81)])) (fun t =>
    t.mem == [(0x21, 0xA1), (0x22, 0x97)] && t.ie && t.result == 0) = true := by decide +kernel

theorem test_pgSetMode : holds (exec (.pgSetMode 0 .input) (grouped [(0x21, 0xA5), (0x22, 0xA5)])) (fun t =>
    t.mem == [(0x21, 0xA5), (0x22, 0xA1)]) = true := by decide +kernel

theorem test_pgSetState : holds (exec (.pgSetState 0 .high) (grouped [(0x21, 0xA5), (0x22, 0xA5)])) (fun t =>
    t.mem == [(0x21, 0xB7), (0x22, 0xA5)]) = true := by decide +kernel

theorem test_pgSetHigh : holds (exec (.pgSetHigh 0) (grouped [(0x21, 0xA5)])) (fun t => t.mem == [(0x21, 0xB7)]) = true := by
  decide +kernel

/-- S2: from 0x16 the clear leaves 0x00, which is not listed. -/
theorem test_pgSetLow : holds (exec (.pgSetLow 0) (grouped [(0x21, 0x16)])) (fun t => t.mem == []) = true := by
  decide +kernel

theorem test_pgToggleState : holds (exec (.pgToggleState 0) (grouped [(0x21, 0xA5)])) (fun t =>
    t.mem == [(0x21, 0xB3)]) = true := by decide +kernel

theorem test_pgSetOutput : holds (exec (.pgSetOutput 0) (grouped [(0x22, 0x81)])) (fun t => t.mem == [(0x22, 0x97)]) = true := by
  decide +kernel

theorem test_pgSetInput : holds (exec (.pgSetInput 0) (grouped [(0x22, 0x97)])) (fun t => t.mem == [(0x22, 0x81)]) = true := by
  decide +kernel

theorem test_pgToggleMode : holds (exec (.pgToggleMode 0) (grouped [(0x22, 0x83)])) (fun t =>
    t.mem == [(0x22, 0x95)]) = true := by decide +kernel

/-- V17, V44: no next state. -/
theorem test_refusals : refusedWith (exec (.pgGetState 1) (grouped [])) .invalidGroup = true ∧
    refusedWith (exec (.pgGetState 3) (grouped [])) .notConstructed = true ∧
    refusedWith (exec (.pgConstruct 0 5 []) (grouped [])) .alreadyConstructed = true ∧
    refusedWith (exec (.spgInit 0) (grouped [])) .notConstructed = true ∧
    refusedWith (exec (.spgStep 0 0x40000000 .high) idle0) .stepsOutOfRange = true := by decide +kernel

/-! ## The critical section against the tick: V23 -/

/-- A tick fired inside the section is delivered after it: both updates land. -/
theorem test_section_holds_the_tick :
    holds (Host.Core.run Sys2Proof.core 2 (((pulsing ex1 3 false true false).setMem [(0x24, 0x02)]).putGroup 0
      (PinGroup.build ex1 10 [11]) |>.setCmds [0x0A000001] |>.setSched
        [.main, .fire, .deliver, .main, .main, .main, .deliver])) (fun t => t.mem == [(0x24, 0x0C)] && spgIs t 2 false true) =
      true := by decide +kernel

/-! ## StepPulseGenerator: V30 to V44 -/

theorem test_spgConstruct : holds (exec (.spgConstruct 1 10 11) ((launched []).setBound (some 0))) (fun t =>
    t.gen 1 == some ⟨false, ⟨0x23, 0x24, 0x25, 2⟩, ⟨0x23, 0x24, 0x25, 3⟩, 0, false, none⟩ && t.bound == some 0) = true ∧
    holds (exec (.spgConstruct 1 10 11) (launched [])) (fun t => t.bound == some 1) = true := by decide +kernel

/-- V31. -/
theorem test_spgInit : holds (exec (.spgInit 0) ((launched [(0x25, 0xF0)]).putGen 0 (Generator.build ex1 8 9))) (fun t =>
    t.mem == [(0x25, 0xF3)] && spgIs t 0 true false && t.timer.handler == some .dispatch &&
    (t.gen 0).map (·.initialised) == some true) = true := by decide +kernel

/-- S6 and S5. -/
theorem test_spgStep : holds (exec (.spgStep 0 10 .low) idle0) (fun t =>
    t.result == 1 && spgIs t 20 false true && t.mem == [(0x24, 0x42), (0x25, 0x03)]) = true ∧
    holds (exec (.spgStep 0 3 .low) running13) (fun t =>
      t.result == 0 && spgIs t 13 false true && t.mem == running13.mem) = true := by decide +kernel

/-- V32: the corners of the range. -/
theorem test_spgStep_range : holds (exec (.spgStep 0 0xC0000000 .low) idle0) (fun t => spgIs t 0x80000000 false true) = true ∧
    holds (exec (.spgStep 0 0x3FFFFFFF .low) idle0) (fun t => spgIs t 0x7FFFFFFE false true) = true := by decide +kernel

/-- V34: from Paused. -/
theorem test_spgStepP : holds (exec (.spgStepP 0 10 .low 500) (pulsing ex1 0 true false false)) (fun t =>
    t.result == 1 && spgIs t 20 false true && t.timer.period == some 500 && (t.gen 0).map (·.period) == some (some 500) &&
    t.mem == [(0x24, 0x42), (0x25, 0x03)]) = true := by decide +kernel

/-- V35: a tick between micro-steps (2) and (3) sees the old direction. -/
theorem test_spgStep_first_edge : holds (exec (.spgStep 0 1 .high) (((idle0.setMem [(0x24, 0x40)])).setSched
    [.main, .fire, .deliver, .main])) (fun t => spgIs t 1 false true && t.mem == [(0x24, 0x43)]) = true := by decide +kernel

theorem test_spgSetPeriod : holds (exec (.spgSetPeriod 0 0xFFFFFFFF) running13) (fun t =>
    spgIs t 13 false true && t.timer.period == some 0xFFFFFFFF && (t.gen 0).map (·.period) == some (some 0xFFFFFFFF)) =
      true := by decide +kernel

/-- V37: Paused with an even count, and an odd count. -/
theorem test_spgStop : holds (exec (.spgStop 0) (pulsing ex1 14 true false false)) (fun t =>
    t.result == 7 && spgIs t 0 false true) = true ∧
    holds (exec (.spgStop 0) running13) (fun t => t.result == 6 && spgIs t 1 false true) = true := by decide +kernel

/-- V39: a latched tick between micro-steps (3) and (4). -/
theorem test_spgStop_latched : holds (exec (.spgStop 0) ((pulsing ex1 13 false true true).setSched
    [.main, .main, .deliver, .main])) (fun t => t.result == 6 && spgIs t 1 false true && t.mem == [(0x24, 0x41), (0x25, 0x03)]) =
      true := by decide +kernel

/-- V40, V41: the latched tick is delivered between the two micro-steps. -/
theorem test_spgPause : holds (exec (.spgPause 0) running13) (fun t => spgIs t 13 true false) = true ∧
    holds (exec (.spgPause 0) ((pulsing ex1 13 false true true).setSched [.deliver, .fire, .deliver, .main])) (fun t =>
      spgIs t 12 true false && t.mem == [(0x24, 0x41), (0x25, 0x03)]) = true := by decide +kernel

theorem test_spgResume : holds (exec (.spgResume 0) (pulsing ex1 13 true false false)) (fun t => spgIs t 13 false true) = true ∧
    holds (exec (.spgResume 0) running13) (fun t =>
      t.result == 0 && spgIs t 13 false true && t.mem == running13.mem) = true := by decide +kernel

/-- V4, V32, V37: the queries at 13, at 0 and at -4. -/
theorem test_queries : holds (exec (.spgIsStepping 0) running13) (fun t => t.result == 1) = true ∧
    holds (exec (.spgIsStopped 0) (pulsing ex1 (-4) false true false)) (fun t => t.result == 1) = true ∧
    holds (exec (.spgIsPaused 0) (pulsing ex1 0 true false false)) (fun t => t.result == 1) = true ∧
    holds (exec (.spgGetRemainingSteps 0) running13) (fun t => t.result == 6) = true ∧
    holds (exec (.spgGetRemainingSteps 0) (pulsing ex1 (-4) false true false)) (fun t => t.result == 0xFFFFFFFE) = true := by
  decide +kernel

/-! ## Events and system commands: V42, V51 to V53 -/

theorem test_deliver : holds ((pulsing ex1 1 false true true).deliver) (fun t =>
    spgIs t 0 false true && t.mem == [(0x24, 0x41), (0x25, 0x03)] && t.ie && !t.timer.pending) = true ∧
    holds ((pulsing ex1 (-4) false true true).deliver) (fun t => spgIs t (-4) false true &&
      t.mem == [(0x24, 0x43), (0x25, 0x03)]) = true := by decide +kernel

theorem test_fire : (running13.fire.fire).timer.pending = true ∧ (pulsing ex1 1 false false false).fire.timer.pending = false ∧
    (launched []).fire.timer.pending = false := by decide +kernel

theorem test_sysIrq : holds (exec .sysIrqDisable (launched [])) (fun t => !t.ie) = true ∧
    holds (exec .sysIrqEnable ((launched []).setIe false)) (fun t => t.ie) = true := by decide +kernel

/-- V2: an undefined opcode. -/
theorem test_illegal : holds (step ((launched []).setCmds [0x07000000])) (fun t =>
    t.status == .illegal && t.result == 0 && t.cp == ⟨1, 1⟩ && t.cmds == []) = true := by decide +kernel


/-! ## Witnesses: states and operands that meet the hypotheses of each obligation -/

/-- s with the words and the schedule given. -/
def fed (s : State) (words : List Word) (turns : List Turn) : State := (s.setCmds words).setSched turns

theorem pulsing_gen (p : Params) (r : Word) (pa ru pe : Bool) : (pulsing p r pa ru pe).gen 0 = some (spg0 r pa) := by
  unfold pulsing; rw [putGen_gen, if_pos rfl]

theorem pulsing_gen_other (p : Params) (r : Word) (pa ru pe : Bool) {j : Index} (h : 0 ≠ j) :
    (pulsing p r pa ru pe).gen j = none := by
  unfold pulsing; rw [putGen_gen, if_neg h]; simp [State.gen, State.launch, setBound, setTimer]

theorem pulsing_group (p : Params) (r : Word) (pa ru pe : Bool) (g : Index) : (pulsing p r pa ru pe).group g = none := by
  simp [State.group, pulsing, putGen, setSpg, setBound, setTimer, State.launch]

theorem storage_ex1 : ex1.isStorage 0x24 = true ∧ ex1.isStorage 0x25 = true ∧ ex1.isStorage 0x21 = true ∧
    ex1.isStorage 0x22 = true ∧ ex1.isValueReg 0x20 = true ∧ (ex1.resolve 8).state = 0x24 ∧ (ex1.resolve 8).dir = 0x25 ∧
    (ex1.resolve 9).state = 0x24 ∧ (ex1.resolve 9).dir = 0x25 := by decide +kernel

theorem pulsing_ready (r : Word) (pa ru pe : Bool) : (pulsing ex1 r pa ru pe).HandlerReady := by
  intro b hb
  obtain rfl : 0 = b := Option.some.inj hb
  exact ⟨_, pulsing_gen .., Params.isStorage_state ex1 9⟩

theorem pulsing_inv (p : Params) (hp : p.platform = ex1.platform) (hw : p.addrWidth = ex1.addrWidth) (r : Word) (pa ru pe : Bool)
    (hr : r.toInt < 0 → isOdd r = false) : (pulsing p r pa ru pe).Inv := by
  have hres : ∀ n, ex1.resolve n = p.resolve n := fun n => by unfold Params.resolve; rw [hw]; simp only [hp]
  have hst : ∀ a, p.isStorage a = ex1.isStorage a := fun a => by unfold Params.isStorage Params.capabilities; rw [hp, hw]
  refine ⟨⟨show Memory.wf [(0x24, 0x43), (0x25, 0x03)] = true by decide, ?_⟩, ?_, ?_, ⟨?_, ?_⟩, ⟨?_, ?_⟩, fun _ => rfl, rfl⟩
  · intro c hc
    have hc : c ∈ ([(0x24, 0x43), (0x25, 0x03)] : Memory) := hc
    show p.isStorage c.1 = true
    rw [hst]
    simp only [List.mem_cons, List.not_mem_nil, or_false] at hc
    rcases hc with rfl | rfl
    · exact storage_ex1.1
    · exact storage_ex1.2.1
  · intro g G hG; rw [pulsing_group] at hG; simp at hG
  · intro i S hS
    by_cases hi : 0 = i
    · subst hi
      rw [pulsing_gen] at hS
      cases hS
      exact ⟨⟨8, 9, hres 8, hres 9⟩, fun _ => rfl, hr⟩
    · rw [pulsing_gen_other _ _ _ _ _ hi] at hS; simp at hS
  · intro b hb
    obtain rfl : 0 = b := Option.some.inj hb
    rw [pulsing_gen]; rfl
  · intro hn; exact absurd hn (by simp [pulsing, putGen, setSpg, setBound])
  · intro g hg; rw [pulsing_group] at hg; simp at hg
  · intro i hi
    by_cases h0 : 0 = i
    · subst h0; rfl
    · rw [pulsing_gen_other _ _ _ _ _ h0] at hi; simp at hi

theorem fed_inv {s : State} (h : s.Inv) (words : List Word) (turns : List Turn) : (fed s words turns).Inv :=
  ⟨h.memory, h.groups, h.generators, h.target, h.indexes, h.latch, h.place⟩

/-- The group g0 as `PG_CONSTRUCT` stores it (S3). -/
abbrev g0 : PinGroup := ⟨[1, 2, 4], 0x16, 0xE9, 0x20, 0x21, 0x22, true⟩

theorem grouped_g0 (m : Memory) : (grouped m).group 0 = some g0 := by
  have h : PinGroup.build ex1 1 [2, 4] = g0 := by decide +kernel
  unfold grouped
  rw [putGroup_group, if_neg (by decide), putGroup_group, if_pos rfl, h]

theorem witness_DecodeEncodeRoundTrip : (Instr.pgConstruct 15 255 [1, 2, 3, 4, 5, 6, 7]).wellFormed = true := by decide

theorem witness_DecodedWordSelectsExactlyItsRow : decodeCommand 0x8000FFFF [] = .ok (.spgConstruct 0 0xFF 0xFF) := rfl

theorem witness_CommandLengthFromOpcode : ([7, 9] : List Word).length + 1 = commandLength 0x83000000 ∧
    ([] : List Word).length + 1 = commandLength 0xFF000000 := by decide

theorem witness_BadPinListDecodesToNothing :
    (opcodeOf 0x00000000 = 0x00 ∧ ((0x00000000 : Word).extractLsb' 0 4).toNat = 0) ∧
    (opcodeOf 0x00000009 = 0x00 ∧ 8 < ((0x00000009 : Word).extractLsb' 0 4).toNat) ∧
    (opcodeOf 0x00000007 = 0x00 ∧ ((0x00000007 : Word).extractLsb' 0 4).toNat ≤ 7 ∧
      ((0x01000000 : Word) ++ (0 : Word)).extractLsb' (8 * 7) 8 ≠ 0) := by decide

theorem witness_InstanceIndexBounds : (opcodeOf 0xF1F00000 = 0xF1 ∧ instOf 0xF1F00000 ≠ 0) ∧
    (ex1.hasGroup 3 = true ∧ ex1.hasGroup 4 = false) ∧ (ex1.hasSpg 1 = true ∧ ex1.hasSpg 2 = false) := by decide +kernel

theorem witness_StepRunsDecodedCommand : (fed running13 [0x86000000, 7] [.main]).MainsTurn ∧
    fetch (fed running13 [0x86000000, 7] [.main]).cmds = .command 0x86000000 [] [7] ∧
    decodeCommand 0x86000000 [] = .ok (.spgPause 0) ∧
    (Instr.spgPause 0).present (fed running13 [0x86000000, 7] [.main]).params = true :=
  ⟨⟨by decide +kernel, by decide +kernel⟩, by decide +kernel, rfl, by decide +kernel⟩

theorem witness_StepRunsEncodedCommand : (fed running13 (encode (.spgStepP 0 3 .high 9) ++ [7]) []).MainsTurn ∧
    (Instr.spgStepP 0 3 .high 9).wellFormed = true ∧
    (Instr.spgStepP 0 3 .high 9).present (fed running13 (encode (.spgStepP 0 3 .high 9) ++ [7]) []).params = true :=
  ⟨⟨by decide +kernel, by decide +kernel⟩, rfl, by decide +kernel⟩

/-- One for each of the three reasons. -/
theorem witness_IllegalCommandOnlyAnswers :
    ((fed running13 [0x07000000] [.main]).MainsTurn ∧
      fetch (fed running13 [0x07000000] [.main]).cmds = .command 0x07000000 [] [] ∧
      ∀ r ∈ opcodeRows, r.selects 0x07000000 = false) ∧
    (fetch (fed running13 [0, 0, 0] [.main]).cmds = .command 0 [0, 0] [] ∧ decodeCommand 0 [0, 0] = .error .pinCount) ∧
    (fetch (fed running13 [0x81200000] [.main]).cmds = .command 0x81200000 [] [] ∧
      decodeCommand 0x81200000 [] = .ok (.spgInit 2) ∧ (Instr.spgInit 2).present running13.params = false) :=
  ⟨⟨⟨by decide +kernel, by decide +kernel⟩, by decide +kernel, by decide +kernel⟩, ⟨by decide +kernel, rfl⟩,
    by decide +kernel, rfl, by decide +kernel⟩

theorem witness_StepWithoutCommand : (fed running13 [] [.fire, .main]).sched = .fire :: [.main] ∧
    (fed running13 [] [.deliver]).sched = .deliver :: [] ∧
    ((fed running13 [] []).MainsTurn ∧ (fed running13 [] []).cmds = []) := ⟨rfl, rfl, ⟨nofun, nofun⟩, rfl⟩

theorem witness_RepeatedWriteChangesNothing : Memory.wf [(0x21, 0xA5), (0x24, 0x43)] = true := by decide

theorem witness_CanonicalMemoriesAreEqual : Memory.wf (Memory.write [(0x24, 0x43)] 0x21 0xA5) = true ∧
    Memory.wf [(0x21, 0xA5), (0x24, 0x43)] = true ∧
    ∀ a, Memory.read (Memory.write [(0x24, 0x43)] 0x21 0xA5) a = Memory.read [(0x21, 0xA5), (0x24, 0x43)] a :=
  ⟨by decide, by decide, fun _ => rfl⟩

theorem witness_InterruptEnableIsRestored : ∃ t, exec (.spgStop 0) running13 = .next t :=
  exists_next (by decide +kernel)

theorem witness_PendingTickIsHeldWhileMasked : ∃ t, ((pulsing ex1 13 false true true).setIe false).ie = false ∧
    exec (.spgStop 0) ((pulsing ex1 13 false true true).setIe false) = .next t := by
  obtain ⟨t, ht⟩ := exists_next (r := exec (.spgStop 0) ((pulsing ex1 13 false true true).setIe false)) (by decide +kernel)
  exact ⟨t, rfl, ht⟩

theorem witness_CompletedCommandAnswersOk : ∃ t, exec (.spgInit 0) running13 = .next t := exists_next (by decide +kernel)

theorem witness_CommandsWriteOnlyTheirRegisters : ∃ t, exec (.pgSet 0 .output .low) (grouped [(0x21, 0xB7)]) = .next t ∧
    0x24 ∉ (grouped [(0x21, 0xB7)]).registersWritten (.pgSet 0 .output .low) ∧ ¬(grouped [(0x21, 0xB7)]).HandlerWrites 0x24 := by
  obtain ⟨t, ht⟩ := exists_next (r := exec (.pgSet 0 .output .low) (grouped [(0x21, 0xB7)])) (by decide +kernel)
  refine ⟨t, ht, by decide +kernel, ?_⟩
  rintro ⟨b, B, hb, -⟩
  exact absurd hb (by simp [grouped, putGroup, setGroups, launched, State.launch])

theorem witness_ClassifyIsThreeWay : (0x12 : Byte) ≠ 0 ∧ (0x16 : Byte) &&& 0x12 = 0xFB &&& 0x12 ∧
    (0x80 : Byte) ≠ 0 ∧ (0x80 : Byte) = BitVec.twoPow 8 7 := by
  decide

theorem witness_PgConstructStoresTheGroup : (launched []).group 0 = none := by decide +kernel

theorem witness_UnusableGroupIsRefused : (Instr.pgToggleMode 1).needsValidGroup = some 1 ∧ (launched []).group 1 = none ∧
    ((grouped []).group 1).map (·.valid) = some false ∧ (grouped []).group 0 = some g0 :=
  ⟨rfl, by decide +kernel, by decide +kernel, grouped_g0 _⟩

theorem witness_IsValidAnswersTheFlag : (grouped []).group 0 = some g0 ∧ ((grouped []).group 1).isSome = true :=
  ⟨grouped_g0 _, by decide +kernel⟩

theorem witness_ClassifiedReadsAnswer : (grouped []).group 0 = some g0 ∧ g0.valid = true ∧
    (grouped []).params.isStorage g0.stateAddr = true ∧ (grouped []).params.isStorage g0.dirAddr = true ∧
    (grouped []).params.isValueReg g0.valueAddr = true :=
  ⟨grouped_g0 _, rfl, storage_ex1.2.2.1, storage_ex1.2.2.2.1, storage_ex1.2.2.2.2.1⟩

theorem witness_EqualityOperatorsAnswer : ((grouped []).group 0 = some g0 ∧ g0.valid = true ∧
      (grouped []).params.eqSource = .state ∧ (grouped []).params.isStorage g0.stateAddr = true) ∧
    (((State.launch { ex1 with eqSource := .value } [] true).putGroup 0 g0).group 0 = some g0 ∧
      (State.launch { ex1 with eqSource := .value } [] true).params.eqSource = .value ∧
      (State.launch { ex1 with eqSource := .value } [] true).params.isValueReg g0.valueAddr = true) :=
  ⟨⟨grouped_g0 _, rfl, rfl, storage_ex1.2.2.1⟩, ⟨by rw [putGroup_group, if_pos rfl], rfl, storage_ex1.2.2.2.2.1⟩⟩

/-- A mixed group and a uniform one. -/
theorem witness_MixedGroupIsNeitherEqualNorDifferent :
    (∃ t u, exec (.pgEq 0 .high) (grouped [(0x21, 0xA5)]) = .next t ∧ exec (.pgNe 0 .high) (grouped [(0x21, 0xA5)]) = .next u ∧
      classify (Memory.read [(0x21, 0xA5)] 0x21) 0x16 = .mixed) ∧
    ∃ t u, exec (.pgEq 0 .low) (grouped [(0x21, 0xB7)]) = .next t ∧ exec (.pgNe 0 .low) (grouped [(0x21, 0xB7)]) = .next u ∧
      classify (Memory.read [(0x21, 0xB7)] 0x21) 0x16 ≠ .mixed := by
  obtain ⟨t, ht⟩ := exists_next (r := exec (.pgEq 0 .high) (grouped [(0x21, 0xA5)])) (by decide +kernel)
  obtain ⟨u, hu⟩ := exists_next (r := exec (.pgNe 0 .high) (grouped [(0x21, 0xA5)])) (by decide +kernel)
  obtain ⟨t', ht'⟩ := exists_next (r := exec (.pgEq 0 .low) (grouped [(0x21, 0xB7)])) (by decide +kernel)
  obtain ⟨u', hu'⟩ := exists_next (r := exec (.pgNe 0 .low) (grouped [(0x21, 0xB7)])) (by decide +kernel)
  exact ⟨⟨t, u, ht, hu, by decide⟩, t', u', ht', hu', by decide⟩

theorem witness_StateWritesUpdateOneRegister : (grouped []).group 0 = some g0 ∧ g0.valid = true ∧
    (grouped []).params.isStorage g0.stateAddr = true := ⟨grouped_g0 _, rfl, storage_ex1.2.2.1⟩

theorem witness_ModeWritesUpdateOneRegister : (grouped []).group 0 = some g0 ∧ g0.valid = true ∧
    (grouped []).params.isStorage g0.dirAddr = true := ⟨grouped_g0 _, rfl, storage_ex1.2.2.2.1⟩

theorem witness_SetWritesModeThenLevel : (grouped []).group 0 = some g0 ∧ g0.valid = true ∧
    (grouped []).params.isStorage g0.dirAddr = true ∧ (grouped []).params.isStorage g0.stateAddr = true :=
  ⟨grouped_g0 _, rfl, storage_ex1.2.2.2.1, storage_ex1.2.2.1⟩

theorem witness_ForeignBitsAreKept : ∃ t, (Instr.pgToggleState 0).writesGroup = some 0 ∧
    (grouped [(0x21, 0xA5)]).group 0 = some g0 ∧ g0.inverseOffset = ~~~g0.offset ∧
    exec (.pgToggleState 0) (grouped [(0x21, 0xA5)]) = .next t := by
  obtain ⟨t, ht⟩ := exists_next (r := exec (.pgToggleState 0) (grouped [(0x21, 0xA5)])) (by decide +kernel)
  exact ⟨t, rfl, grouped_g0 _, by decide, ht⟩

/-- Two commands one after the other. -/
def two (i j : Instr) (s : State) : Bool := holds (exec i s) fun t => holds (exec j t) fun _ => true

theorem exists_two {i j : Instr} {s : State} (h : two i j s = true) : ∃ t u, exec i s = .next t ∧ exec j t = .next u := by
  unfold two at h
  cases e : exec i s with
  | next t =>
    rw [e] at h
    obtain ⟨u, hu⟩ := exists_next (r := exec j t) h
    exact ⟨t, u, rfl, hu⟩
  | fault f => rw [e] at h; cases h
  | refused f => rw [e] at h; cases h

theorem witness_WritesReadBack : (grouped []).group 0 = some g0 ∧ g0.inverseOffset = ~~~g0.offset ∧ g0.offset ≠ 0 ∧
    (grouped []).params.eqSource = .state ∧
    (∃ t u, exec (.pgSetState 0 .high) (grouped []) = .next t ∧ exec (.pgGetState 0) t = .next u) ∧
    (∃ t u, exec (.pgSetMode 0 .input) (grouped []) = .next t ∧ exec (.pgGetMode 0) t = .next u) ∧
    (∃ t u, exec (.pgSetHigh 0) (grouped []) = .next t ∧ exec (.pgGetState 0) t = .next u) ∧
    (∃ t u, exec (.pgSetLow 0) (grouped []) = .next t ∧ exec (.pgGetState 0) t = .next u) ∧
    (∃ t u, exec (.pgSetOutput 0) (grouped []) = .next t ∧ exec (.pgGetMode 0) t = .next u) ∧
    (∃ t u, exec (.pgSetInput 0) (grouped []) = .next t ∧ exec (.pgGetMode 0) t = .next u) ∧
    (∃ t u, exec (.pgSetState 0 .low) (grouped []) = .next t ∧ exec (.pgEq 0 .low) t = .next u) ∧
    ∃ t u, exec (.pgSetState 0 .low) (grouped []) = .next t ∧ exec (.pgNe 0 .low) t = .next u :=
  ⟨grouped_g0 _, by decide, by decide, rfl, exists_two (by decide +kernel), exists_two (by decide +kernel),
    exists_two (by decide +kernel), exists_two (by decide +kernel), exists_two (by decide +kernel),
    exists_two (by decide +kernel), exists_two (by decide +kernel), exists_two (by decide +kernel)⟩

theorem witness_ToggleTwiceRestores : (grouped [(0x21, 0xA5), (0x22, 0x83)]).group 0 = some g0 ∧
    (∃ t u, exec (.pgToggleState 0) (grouped [(0x21, 0xA5), (0x22, 0x83)]) = .next t ∧ exec (.pgToggleState 0) t = .next u) ∧
    (∃ t u, exec (.pgToggleMode 0) (grouped [(0x21, 0xA5), (0x22, 0x83)]) = .next t ∧ exec (.pgToggleMode 0) t = .next u) ∧
    classify (Memory.read [(0x21, 0xA5), (0x22, 0x83)] 0x21) 0x16 = .mixed ∧
    classify (Memory.read [(0x21, 0xA5), (0x22, 0x83)] 0x22) 0x16 = .mixed :=
  ⟨grouped_g0 _, exists_two (by decide +kernel), exists_two (by decide +kernel), by decide, by decide⟩

theorem witness_TimerOperationsWriteOneField : running13.timer.running = true ∧
    (pulsing ex1 13 true false false).timer.running = false := ⟨rfl, rfl⟩

theorem witness_FireSetsTheLatch : (running13.timer.running = true ∧ running13.timer.handler = some .dispatch) ∧
    (pulsing ex1 13 false true true).timer.pending = true ∧ (pulsing ex1 13 true false false).timer.running = false ∧
    (launched []).timer.handler = none := ⟨⟨rfl, rfl⟩, rfl, rfl, rfl⟩

/-- With ticks left, and at the boundary 0. -/
theorem witness_DeliveredTickRunsTheHandler : ∀ r : Word, (pulsing ex1 r false true true).timer.handler = some .dispatch ∧
    (pulsing ex1 r false true true).timer.pending = true ∧ (pulsing ex1 r false true true).ie = true ∧
    (pulsing ex1 r false true true).bound = some 0 ∧ (pulsing ex1 r false true true).gen 0 = some (spg0 r false) ∧
    (pulsing ex1 r false true true).params.isStorage (spg0 r false).stepCap.state = true := fun _ =>
  ⟨rfl, rfl, rfl, rfl, pulsing_gen .., Params.isStorage_state ex1 9⟩

theorem witness_DeliveryNeedsAllThreeGates : running13.timer.pending = false ∧
    ((pulsing ex1 13 false true true).setIe false).ie = false ∧ (launched []).timer.handler = none := ⟨rfl, rfl, rfl⟩

theorem witness_AtMostOneHandlerRunAfterStop : ∃ t, (pulsing ex1 13 true false true).timer.running = false ∧
    State.runTurns [.deliver, .fire, .deliver, .main] (pulsing ex1 13 true false true) = .next t ∧
    (pulsing ex1 13 true false true).gen 0 = some (spg0 13 true) := by
  obtain ⟨t, ht⟩ := exists_next (r := State.runTurns [.deliver, .fire, .deliver, .main] (pulsing ex1 13 true false true))
    (by decide +kernel)
  exact ⟨t, rfl, ht, pulsing_gen ..⟩

theorem witness_CounterOnlyFalls : ∃ t, State.runTurns [.fire, .deliver] running13 = .next t ∧
    running13.gen 0 = some (spg0 13 false) := by
  obtain ⟨t, ht⟩ := exists_next (r := State.runTurns [.fire, .deliver] running13) (by decide +kernel)
  exact ⟨t, ht, pulsing_gen ..⟩

/-- Both ends of the range, and the values just outside. -/
theorem witness_TicksAreTwiceTheSteps : (-(2 ^ 30) ≤ (0xC0000000 : Word).toInt ∧ (0x3FFFFFFF : Word).toInt < 2 ^ 30) ∧
    (0xBFFFFFFF : Word).toInt < -(2 ^ 30) ∧ 2 ^ 30 ≤ (0x40000000 : Word).toInt ∧ idle0.gen 0 = some (spg0 0 false) ∧
    (spg0 0 false).initialised = true := ⟨by decide, by decide, by decide, pulsing_gen .., rfl⟩

theorem witness_StepsAreHalfTheTicks : 0 ≤ (0x7FFFFFFF : Word).toInt := by decide

theorem witness_UnusableGeneratorIsRefused : (Instr.spgStop 0).needsInitialised = some 0 ∧ (launched []).gen 0 = none ∧
    ((launched []).putGen 0 (Generator.build ex1 8 9)).gen 0 = some (Generator.build ex1 8 9) ∧
    (Generator.build ex1 8 9).initialised = false :=
  ⟨rfl, by decide +kernel, by rw [putGen_gen, if_pos rfl], rfl⟩

/-- One with a target bound, one without. -/
theorem witness_SpgConstructBindsTheFirst : (running13.HandlerReady ∧ running13.gen 1 = none) ∧
    (launched []).HandlerReady ∧ (launched []).gen 1 = none :=
  ⟨⟨pulsing_ready _ _ _ _, pulsing_gen_other _ _ _ _ _ (by decide)⟩, nofun, by decide +kernel⟩

theorem witness_SpgInitLeavesPaused : running13.HandlerReady ∧ running13.gen 0 = some (spg0 13 false) ∧
    running13.params.isStorage (spg0 13 false).dirCap.dir = true ∧
    running13.params.isStorage (spg0 13 false).stepCap.dir = true ∧
    ¬running13.HandlerWrites (spg0 13 false).dirCap.dir ∧ ¬running13.HandlerWrites (spg0 13 false).stepCap.dir := by
  have key : ∀ a : Addr, a = 0x25 → ¬running13.HandlerWrites a := by
    rintro a rfl ⟨b, B, hb, hB, h⟩
    obtain rfl : 0 = b := Option.some.inj hb
    obtain rfl : spg0 13 false = B := Option.some.inj ((pulsing_gen ..).symm.trans hB)
    have h : (ex1.resolve 9).state = 0x25 := h
    rw [storage_ex1.2.2.2.2.2.2.2.1] at h
    exact absurd h (by decide)
  exact ⟨pulsing_ready _ _ _ _, pulsing_gen .., Params.isStorage_dir ex1 8, Params.isStorage_dir ex1 9,
    key _ storage_ex1.2.2.2.2.2.2.1, key _ storage_ex1.2.2.2.2.2.2.2.2⟩

theorem witness_BusyStepRequestIsRejected : running13.gen 0 = some (spg0 13 false) ∧ (spg0 13 false).initialised = true ∧
    0 < (spg0 13 false).remainingTicks.toInt ∧ -(2 ^ 30) ≤ (3 : Word).toInt ∧ (3 : Word).toInt < 2 ^ 30 :=
  ⟨pulsing_gen .., rfl, show 0 < (13 : Word).toInt by decide, by decide, by decide⟩

theorem quiet_nil (p : Params) (r : Word) (pa ru pe : Bool) (n : Nat) : (pulsing p r pa ru pe).Quiet n := by
  intro t ht
  have ht : t ∈ ([] : List Turn).take n := ht
  simp at ht

/-- At the boundary 0, and below it. -/
theorem witness_SpgStepLoadsTheCounter : ∀ r : Word, r = 0 ∨ r = -4 → (pulsing ex1 r false true false).gen 0 = some (spg0 r false) ∧
    (spg0 r false).initialised = true ∧ (spg0 r false).remainingTicks.toInt ≤ 0 ∧ -(2 ^ 30) ≤ (0xC0000000 : Word).toInt ∧
    (0xC0000000 : Word).toInt < 2 ^ 30 ∧
    (pulsing ex1 r false true false).params.isStorage (spg0 r false).dirCap.state = true ∧
    (pulsing ex1 r false true false).HandlerReady ∧ (pulsing ex1 r false true false).Quiet 5 := by
  rintro r (rfl | rfl)
  · exact ⟨pulsing_gen .., rfl, show (0 : Word).toInt ≤ 0 by decide, by decide, by decide, Params.isStorage_state ex1 8,
      pulsing_ready _ _ _ _, quiet_nil _ _ _ _ _ _⟩
  · exact ⟨pulsing_gen .., rfl, show (-4 : Word).toInt ≤ 0 by decide, by decide, by decide, Params.isStorage_state ex1 8,
      pulsing_ready _ _ _ _, quiet_nil _ _ _ _ _ _⟩

theorem witness_SpgStepPResumesAndLoads : (pulsing ex1 0 true false false).gen 0 = some (spg0 0 true) ∧
    (spg0 0 true).initialised = true ∧ (spg0 0 true).remainingTicks.toInt ≤ 0 ∧ -(2 ^ 30) ≤ (0x3FFFFFFF : Word).toInt ∧
    (0x3FFFFFFF : Word).toInt < 2 ^ 30 ∧
    (pulsing ex1 0 true false false).params.isStorage (spg0 0 true).dirCap.state = true ∧
    (pulsing ex1 0 true false false).HandlerReady ∧ (pulsing ex1 0 true false false).Quiet 11 :=
  ⟨pulsing_gen .., rfl, show (0 : Word).toInt ≤ 0 by decide, by decide, by decide, Params.isStorage_state ex1 8,
    pulsing_ready _ _ _ _, quiet_nil _ _ _ _ _ _⟩

theorem witness_SetPeriodWritesBothPeriods : running13.HandlerReady ∧ running13.gen 0 = some (spg0 13 false) ∧
    (spg0 13 false).initialised = true ∧ running13.Quiet 1 := ⟨pulsing_ready _ _ _ _, pulsing_gen .., rfl, quiet_nil _ _ _ _ _ _⟩

theorem witness_SpgStopKeepsOnlyThePhase : running13.gen 0 = some (spg0 13 false) ∧ (spg0 13 false).initialised = true ∧
    running13.HandlerReady ∧ running13.Quiet 5 ∧ running13.params.stopReadsTwice = true ∧
    running13.params.stopClearsPaused = true := ⟨pulsing_gen .., rfl, pulsing_ready _ _ _ _, quiet_nil _ _ _ _ _ _, rfl, rfl⟩

/-- A second, paused generator that is not the interrupt target: the clause on an unbound generator in SpgInitLeavesPaused,
SpgStepLoadsTheCounter, SpgStepPResumesAndLoads, SetPeriodWritesBothPeriods, SpgStopKeepsOnlyThePhase and
ResumeStartsTheTimer. -/
theorem witness_unbound_clauses : ∀ r : Word, r = 13 ∨ r = 0 → (running13.putGen 1 (spg0 r true)).HandlerReady ∧
    (running13.putGen 1 (spg0 r true)).gen 1 = some (spg0 r true) ∧ (spg0 r true).initialised = true ∧
    (running13.putGen 1 (spg0 r true)).bound ≠ some 1 ∧ 0 ≤ (spg0 r true).remainingTicks.toInt := by
  refine fun r hr => ⟨fun b hb => ?_, by rw [putGen_gen, if_pos rfl], rfl, ?_, ?_⟩
  · obtain rfl : 0 = b := Option.some.inj hb
    exact ⟨spg0 13 false, by rw [putGen_gen, if_neg (by decide)]; exact pulsing_gen .., Params.isStorage_state ex1 9⟩
  · show some (0 : Index) ≠ some 1
    decide
  · rcases hr with rfl | rfl
    · show 0 ≤ (13 : Word).toInt
      decide
    · show 0 ≤ (0 : Word).toInt
      decide

theorem witness_PauseStopsTheTimer : (pulsing ex1 13 false true true).HandlerReady ∧
    (pulsing ex1 13 false true true).gen 0 = some (spg0 13 false) ∧ (spg0 13 false).initialised = true ∧
    running13.timer.pending = false := ⟨pulsing_ready _ _ _ _, pulsing_gen .., rfl, rfl⟩

theorem witness_ResumeStartsTheTimer : (running13.gen 0 = some (spg0 13 false) ∧ (spg0 13 false).initialised = true ∧
      (spg0 13 false).paused = false) ∧
    ((pulsing ex1 13 true false false).gen 0 = some (spg0 13 true) ∧ (spg0 13 true).paused = true ∧
      (pulsing ex1 13 true false false).HandlerReady ∧ (pulsing ex1 13 true false false).Quiet 2) :=
  ⟨⟨pulsing_gen .., rfl, rfl⟩, pulsing_gen .., rfl, pulsing_ready _ _ _ _, quiet_nil _ _ _ _ _ _⟩

theorem witness_QueriesAnswer : running13.gen 0 = some (spg0 13 false) ∧ (spg0 13 false).initialised = true :=
  ⟨pulsing_gen .., rfl⟩

theorem moves {s : State} {i : Instr} (h : holds (exec i s) (fun t => (t.gen 0).isSome) = true) :
    ∃ t S', exec i s = .next t ∧ t.gen 0 = some S' := by
  cases e : exec i s with
  | next t =>
    rw [e] at h
    obtain ⟨S', hS'⟩ := Option.isSome_iff_exists.mp (show (t.gen 0).isSome = true from h)
    exact ⟨t, S', rfl, hS'⟩
  | fault f => rw [e] at h; cases h
  | refused f => rw [e] at h; cases h

theorem witness_CommandsMoveBetweenPhases : running13.gen 0 = some (spg0 13 false) ∧ running13.Quiet 11 ∧
    running13.params.stopReadsTwice = true ∧ running13.params.stopClearsPaused = true ∧
    (∃ t S', exec (.spgInit 0) running13 = .next t ∧ t.gen 0 = some S') ∧
    (∃ t S', exec (.spgPause 0) running13 = .next t ∧ t.gen 0 = some S') ∧
    (∃ t S', exec (.spgResume 0) running13 = .next t ∧ t.gen 0 = some S') ∧
    (∃ t S', exec (.spgStop 0) running13 = .next t ∧ t.gen 0 = some S') ∧
    (∃ t S', exec (.spgStep 0 3 .low) running13 = .next t ∧ t.gen 0 = some S') ∧
    (∃ t S', exec (.spgStepP 0 3 .low 5) running13 = .next t ∧ t.gen 0 = some S') ∧
    ∃ t S', exec (.spgSetPeriod 0 5) running13 = .next t ∧ t.gen 0 = some S' :=
  ⟨pulsing_gen .., quiet_nil _ _ _ _ _ _, rfl, rfl, moves (by decide +kernel), moves (by decide +kernel), moves (by decide +kernel),
    moves (by decide +kernel), moves (by decide +kernel), moves (by decide +kernel), moves (by decide +kernel)⟩

/-- A train of three ticks, longer than the counter. -/
theorem witness_TicksRunTheTrain :
    let s := (pulsing ex1 2 false true false).setSched ((List.replicate 3 [Turn.fire, Turn.deliver]).flatten ++ [.main])
    s.bound = some 0 ∧ s.gen 0 = some (spg0 2 false) ∧ s.params.isStorage (spg0 2 false).stepCap.state = true ∧
    s.timer.running = true ∧ s.timer.handler = some .dispatch ∧ s.ie = true ∧
    s.sched = (List.replicate 3 [Turn.fire, Turn.deliver]).flatten ++ [.main] ∧ 0 ≤ (spg0 2 false).remainingTicks.toInt :=
  ⟨rfl, pulsing_gen .., Params.isStorage_state ex1 9, rfl, rfl, rfl, rfl, show 0 ≤ (2 : Word).toInt by decide⟩

theorem witness_OddStopClosesThePulse : ∃ t, running13.gen 0 = some (spg0 13 false) ∧ running13.bound = some 0 ∧
    running13.Quiet 5 ∧ running13.params.stopReadsTwice = true ∧ running13.params.stopClearsPaused = true ∧
    running13.timer.handler = some .dispatch ∧ running13.ie = true ∧
    running13.params.isStorage (spg0 13 false).stepCap.state = true ∧ (spg0 13 false).remainingTicks.toInt % 2 ≠ 0 ∧
    exec (.spgStop 0) running13 = .next t := by
  obtain ⟨t, ht⟩ := exists_next (r := exec (.spgStop 0) running13) (by decide +kernel)
  exact ⟨t, pulsing_gen .., rfl, quiet_nil _ _ _ _ _ _, rfl, rfl, rfl, rfl, Params.isStorage_state ex1 9,
    show (13 : Word).toInt % 2 ≠ 0 by decide, ht⟩

theorem witness_UnboundGeneratorNeverTicks : ∃ t, step (fed running13 [0x86000000] [.main, .fire, .deliver]) = .next t ∧
    (fed running13 [0x86000000] [.main, .fire, .deliver]).bound ≠ some 1 := by
  obtain ⟨t, ht⟩ := exists_next (r := step (fed running13 [0x86000000] [.main, .fire, .deliver])) (by decide +kernel)
  exact ⟨t, ht, by decide +kernel⟩

theorem witness_ConstructedRecordsStay : ∃ t, step (fed running13 [0x81000000] [.main]) = .next t ∧
    (fed running13 [0x81000000] [.main]).bound = some 0 ∧ (fed running13 [0x81000000] [.main]).gen 0 = some (spg0 13 false) ∧
    (spg0 13 false).initialised = true ∧
    (∃ u, step (fed (grouped []) [0x0B000000] []) = .next u) ∧ (fed (grouped []) [0x0B000000] []).group 0 = some g0 := by
  obtain ⟨t, ht⟩ := exists_next (r := step (fed running13 [0x81000000] [.main])) (by decide +kernel)
  exact ⟨t, ht, rfl, pulsing_gen .., rfl, exists_next (by decide +kernel), grouped_g0 _⟩

theorem witness_InvariantHoldsAtReset : Memory.wf [(0x24, 0x43), (0x25, 0x03)] = true ∧
    ∀ c ∈ ([(0x24, 0x43), (0x25, 0x03)] : Memory), ex1.isStorage c.1 = true := by decide +kernel

theorem witness_EveryStepKeepsTheInvariant : ∃ t, (fed running13 [0x80100B0A] [.fire, .deliver]).Inv ∧
    step (fed running13 [0x80100B0A] [.fire, .deliver]) = .next t := by
  obtain ⟨t, ht⟩ := exists_next (r := step (fed running13 [0x80100B0A] [.fire, .deliver])) (by decide +kernel)
  exact ⟨t, fed_inv (pulsing_inv _ rfl rfl _ _ _ _ (by decide)) _ _, ht⟩

/-- One state whose step completes, and one whose step is refused. -/
theorem witness_NoStepFaults : ((fed running13 [0x85000000] []).Inv ∧ ∃ t, step (fed running13 [0x85000000] []) = .next t) ∧
    (fed running13 [0x85100000] []).Inv ∧ step (fed running13 [0x85100000] []) = .refused .notConstructed :=
  ⟨⟨fed_inv (pulsing_inv _ rfl rfl _ _ _ _ (by decide)) _ _, exists_next (by decide +kernel)⟩,
    fed_inv (pulsing_inv _ rfl rfl _ _ _ _ (by decide)) _ _, refused_of (by decide +kernel)⟩

/-- Generator 0 is the only one constructed. -/
def onlyFirst (t : State) : Bool := decide (∀ j : Index, j ≠ 0 → (t.gen j).isNone = true)

theorem onlyGenerator {t : State} (h : onlyFirst t = true) : t.OnlyGenerator 0 := fun j hj =>
  Option.isNone_iff_eq_none.mp (of_decide_eq_true h j hj)

/-- One constructed generator on a machine with two, and on a machine with one: running and not paused, with a command
that stops the timer. -/
theorem witness_PausedStaysStopped : ∀ p : Params, p = ex1 ∨ p = ex1One →
    ∃ t, (fed (pulsing p 13 false true false) [0x86000000] []).Inv ∧
      (fed (pulsing p 13 false true false) [0x86000000] []).params.stopClearsPaused = true ∧ t.OnlyGenerator 0 ∧
      (fed (pulsing p 13 false true false) [0x86000000] []).PausedMeansStopped 0 ∧
      step (fed (pulsing p 13 false true false) [0x86000000] []) = .next t := by
  have h13 : (13 : Word).toInt < 0 → isOdd 13 = false := by decide
  have pms : ∀ p, (fed (pulsing p 13 false true false) [0x86000000] []).PausedMeansStopped 0 := by
    intro p S hS _
    obtain rfl : spg0 13 false = S := Option.some.inj ((pulsing_gen ..).symm.trans hS)
    exact ⟨nofun, nofun⟩
  rintro p (rfl | rfl)
  · obtain ⟨t, ht, h⟩ := next_with (p := onlyFirst) (r := step (fed (pulsing ex1 13 false true false) [0x86000000] []))
      (by decide +kernel)
    exact ⟨t, fed_inv (pulsing_inv ex1 rfl rfl _ _ _ _ h13) _ _, rfl, onlyGenerator h, pms _, ht⟩
  · obtain ⟨t, ht, h⟩ := next_with (p := onlyFirst) (r := step (fed (pulsing ex1One 13 false true false) [0x86000000] []))
      (by decide +kernel)
    exact ⟨t, fed_inv (pulsing_inv ex1One rfl rfl _ _ _ _ h13) _ _, rfl, onlyGenerator h, pms _, ht⟩

/-- A run of one query, after which the timer still runs with nothing left to count; a state that takes an ILLEGAL command,
and one whose command is refused. -/
theorem witness_RunThatIsOverStaysOver :
    (∃ s t, (fed idle0 [0x88000000] [.main, .fire]).Inv ∧ (fed idle0 [0x88000000] [.main, .fire]).RunOver 1 s ∧
      Host.Core.run Sys2Proof.core 2 s = .next t) ∧
    (Host.Core.run Sys2Proof.core 0 (fed running13 [0x07000000] []) = .next (fed running13 [0x07000000] []) ∧
      (fed running13 [0x07000000] []).TakesIllegal) ∧
    Host.Core.run Sys2Proof.core 0 (fed running13 [0x85100000] []) = .next (fed running13 [0x85100000] []) ∧
      step (fed running13 [0x85100000] []) = .refused .notConstructed := by
  refine ⟨?_, ⟨rfl, ⟨nofun, nofun⟩, 0x07000000, [], [], by decide +kernel, .inl ⟨_, rfl⟩⟩, rfl,
    refused_of (by decide +kernel)⟩
  obtain ⟨s, hs, h⟩ := next_with (r := step (fed idle0 [0x88000000] [.main, .fire])) (p := fun u =>
    u.cmds.isEmpty && !u.timer.pending && u.bound == some 0 && (u.gen 0).map (·.remainingTicks) == some 0 &&
    holds (Host.Core.run Sys2Proof.core 2 u) (fun _ => true)) (by decide +kernel)
  simp only [Bool.and_eq_true, List.isEmpty_iff, Bool.not_eq_true', beq_iff_eq] at h
  obtain ⟨⟨⟨⟨hc, hp⟩, hb⟩, hg⟩, hr⟩ := h
  obtain ⟨t, ht⟩ := exists_next hr
  refine ⟨s, t, fed_inv (pulsing_inv _ rfl rfl _ _ _ _ (by decide)) _ _, ⟨⟨?_, s, hs, rfl⟩, hc, by simp [hp], .inr ?_⟩, ht⟩
  · rintro ⟨-, w0, operands, rest, hf, h⟩
    have e : fetch (fed idle0 [0x88000000] [.main, .fire]).cmds = .command 0x88000000 [] [] := by decide +kernel
    injection e.symm.trans hf with h0 h1 h2
    subst h0 h1 h2
    have d : decodeCommand 0x88000000 [] = .ok (.spgIsStepping 0) := rfl
    rcases h with ⟨x, h⟩ | ⟨i, h, hi⟩
    · exact absurd (d.symm.trans h) (by simp)
    · injection d.symm.trans h with e
      subst e
      exact absurd hi (by decide +kernel)
  · intro b B h1 h2
    obtain rfl : 0 = b := Option.some.inj (hb.symm.trans h1)
    rw [h2] at hg
    rw [show B.remainingTicks = 0 by simpa using hg]
    decide

end Sys2Proof.Tests
end

section
/-! PROOF. The laws of the encoding's length, over all commands (30_encoding.md R100). -/

namespace Sys2Proof.Laws.EncodeLength

/-- Every command's encoding is a command word and the operand words its opcode asks for. -/
theorem statement_of_instr : ∀ i : Instr, Statement i
  | .pgConstruct g first rest => pgConstruct g first rest
  | .pgIsValid g => pgIsValid g
  | .pgGetState g => pgGetState g
  | .pgGetValue g => pgGetValue g
  | .pgGetMode g => pgGetMode g
  | .pgEq g v => pgEq g v
  | .pgNe g v => pgNe g v
  | .pgSet g m v => pgSet g m v
  | .pgSetMode g m => pgSetMode g m
  | .pgSetState g v => pgSetState g v
  | .pgSetHigh g => pgSetHigh g
  | .pgSetLow g => pgSetLow g
  | .pgToggleState g => pgToggleState g
  | .pgSetOutput g => pgSetOutput g
  | .pgSetInput g => pgSetInput g
  | .pgToggleMode g => pgToggleMode g
  | .spgConstruct i dirPin stepPin => spgConstruct i dirPin stepPin
  | .spgInit i => spgInit i
  | .spgStep i steps v => spgStep i steps v
  | .spgStepP i steps v period => spgStepP i steps v period
  | .spgSetPeriod i period => spgSetPeriod i period
  | .spgStop i => spgStop i
  | .spgPause i => spgPause i
  | .spgResume i => spgResume i
  | .spgIsStepping i => spgIsStepping i
  | .spgIsStopped i => spgIsStopped i
  | .spgIsPaused i => spgIsPaused i
  | .spgGetRemainingSteps i => spgGetRemainingSteps i
  | .sysIrqDisable => sysIrqDisable
  | .sysIrqEnable => sysIrqEnable

end Sys2Proof.Laws.EncodeLength
end

section
/-! PROOF. The decoder gives an encoded command back (30_encoding.md R90 to R111). -/

namespace Sys2Proof

@[simp] theorem Level.ofBit_bit (v : Level) : Level.ofBit v.bit = v := by cases v <;> rfl
@[simp] theorem Mode.ofBit_bit (m : Mode) : Mode.ofBit m.bit = m := by cases m <;> rfl

theorem formatSystem_commandWord (op : Byte) (i : Instr) : formatSystem (commandWord op 0 0) i = .ok i := by
  unfold formatSystem
  rw [instOf_commandWord, if_pos rfl, formatZ_commandWord]

/-- An encoded command word passes the check of `rsvd`, so that its opcode selects the operation. -/
theorem decodeCommand_commandWord (op : Byte) (k : Index) (imm : BitVec 16) (operands : List Word) :
    decodeCommand (commandWord op k imm) operands = decodeOpcode (commandWord op k imm) operands := by
  unfold decodeCommand
  rw [rsvdOf_commandWord, if_pos rfl]

/-- R100: a head word with exactly its opcode's operand words after it is fetched whole, whatever words follow. -/
theorem fetch_cons_append {w0 : Word} {operands : List Word} (rest : List Word)
    (h : operands.length + 1 = commandLength w0) :
    fetch (w0 :: (operands ++ rest)) = .command w0 operands rest := by
  have hn : commandLength w0 - 1 = operands.length := by omega
  simp only [fetch, hn, List.length_append, List.take_left, List.drop_left]
  rw [if_neg (by omega)]

/-- The decoder inverts the encoder on one command's words: the opcode selects the row, and the row's format reads the
operands back. Only `PG_CONSTRUCT`, whose pin list may be too long, needs well-formedness. -/
theorem decodeCommand_of_encode {i : Instr} {w0 : Word} {operands : List Word} (he : encode i = w0 :: operands)
    (hw : i.wellFormed = true) : decodeCommand w0 operands = .ok i := by
  cases i with
  | pgConstruct g first rest =>
    obtain ⟨rfl, rfl⟩ := List.cons.inj he
    rw [decodeCommand_commandWord, decodeOpcode, opcodeOf_commandWord, instOf_commandWord]
    exact formatG_encoded g first rest (of_decide_eq_true hw) _
  | _ =>
    obtain ⟨rfl, rfl⟩ := List.cons.inj he
    simp only [decodeCommand_commandWord, decodeOpcode, opcodeOf_commandWord, instOf_commandWord, BitVec.reduceToNat,
      formatZ_commandWord, formatV_commandWord, formatM_commandWord, formatP_commandWord, formatS, formatSP, formatT,
      formatSystem_commandWord, Level.ofBit_bit, Mode.ofBit_bit]

/-- MAIN fetches an encoded command whole, and it decodes to the command encoded. -/
theorem fetch_encode_append {i : Instr} (hw : i.wellFormed = true) (rest : List Word) :
    ∃ w0 operands, fetch (encode i ++ rest) = .command w0 operands rest ∧ decodeCommand w0 operands = .ok i := by
  obtain ⟨w0, operands, he, hl⟩ := Laws.EncodeLength.statement_of_instr i
  refine ⟨w0, operands, ?_, decodeCommand_of_encode he hw⟩
  rw [he, List.cons_append, fetch_cons_append rest hl]

end Sys2Proof
end

section
/-! PROOF. What the step is on MAIN's turn (00_scope.md R12, R13; 30_encoding.md R100). -/

namespace Sys2Proof.Machine

/-- On MAIN's turn the step uses the turn up and is MAIN's. -/
theorem step_of_mainsTurn {s : State} (h : s.MainsTurn) : step s = runMain (s.setSched s.sched.tail) := by
  obtain ⟨hfire, hdeliver⟩ := h
  unfold step takeTurn
  split
  next hs => rw [hs, List.tail_nil, ← hs]; rfl
  next rest hs => rw [hs, List.tail_cons]
  next rest hs => simp [hs] at hfire
  next rest hs => simp [hs] at hdeliver

/-- With no word left MAIN does nothing (R252). -/
theorem runMain_of_no_words {s : State} (h : s.cmds = []) : runMain s = .next s := by
  unfold runMain
  rw [h]
  rfl

/-- A fetched command that decodes and exists is executed with its words used up. -/
theorem runMain_of_decoded {s : State} {w0 : Word} {operands rest : List Word} {i : Instr}
    (hf : fetch s.cmds = .command w0 operands rest) (hd : decodeCommand w0 operands = .ok i)
    (hp : i.present s.params = true) : runMain s = exec i (s.setCmds rest) := by
  unfold runMain
  simp only [hf, hd, hp, if_true]

/-- Settles O7: MAIN's turn is used up, then the decoded command is executed. -/
theorem stepRunsDecodedCommand : Obligations.StepRunsDecodedCommand := by
  intro s w0 operands rest i hm hf hd hp
  rw [step_of_mainsTurn hm]
  exact runMain_of_decoded (s := s.setSched s.sched.tail) hf hd hp

/-- Settles O8: the encoder's words are fetched whole and decode to the command, and then it is O7. -/
theorem stepRunsEncodedCommand : Obligations.StepRunsEncodedCommand := by
  intro s i rest hm hc hw hp
  obtain ⟨w0, operands, hf, hd⟩ := fetch_encode_append hw rest
  exact stepRunsDecodedCommand s w0 operands rest i hm (hc ▸ hf) hd hp

/-- Settles O10: an event at the head is the schedule's own arm, and MAIN's turn without words only goes by. -/
theorem stepWithoutCommand : Obligations.StepWithoutCommand := by
  refine ⟨fun s rest hs => ?_, fun s rest hs => ?_, fun s hm hc => ?_⟩
  · rw [step, takeTurn, hs]
  · rw [step, takeTurn, hs]
  · rw [step_of_mainsTurn hm]
    exact runMain_of_no_words (s := s.setSched s.sched.tail) hc

end Sys2Proof.Machine
end

section
/-! PROOF. A memory in canonical form is determined by what it reads as (20_memory.md R61; 10_state.md R20). -/

namespace Sys2Proof.Machine.Memory

/-- Below its first entry a rising memory lists nothing. -/
theorem read_of_forall_lt {m : Memory} {a : Addr} (h : ∀ c ∈ m, a < c.1) : m.read a = unlisted := by
  induction m with
  | nil => rfl
  | cons c m ih =>
    have hne : c.1 ≠ a := (h c List.mem_cons_self).ne'
    rw [read, if_neg hne, ih fun d hd => h d (List.mem_cons_of_mem _ hd)]

/-- What a canonical memory lists is what reads as something else than `unlisted`. -/
theorem mem_iff_read {m : Memory} (h : m.wf = true) (c : Host.Cell) :
    c ∈ m ↔ m.read c.1 = c.2 ∧ c.2 ≠ unlisted := by
  rw [wf_iff] at h
  obtain ⟨hsorted, hlisted⟩ := h
  obtain ⟨a, v⟩ := c
  induction m with
  | nil => simp [read, eq_comm]
  | cons d m ih =>
    obtain ⟨b, u⟩ := d
    rw [List.pairwise_cons] at hsorted
    obtain ⟨hfirst, hsorted⟩ := hsorted
    have ih := ih hsorted fun c hc => hlisted c (List.mem_cons_of_mem _ hc)
    have hu : u ≠ unlisted := hlisted _ List.mem_cons_self
    by_cases hab : b = a
    · subst hab
      have hrest : (b, v) ∉ m := fun hm => lt_irrefl b (hfirst _ hm)
      simp only [List.mem_cons, Prod.mk.injEq, true_and, hrest, or_false, read, if_true]
      constructor
      · rintro rfl
        exact ⟨rfl, hu⟩
      · exact fun hv => hv.1.symm
    · simp only [List.mem_cons, Prod.mk.injEq, Ne.symm hab, false_and, false_or, read, hab, if_false]
      exact ih

/-- Settles O13: both memories list the same entries, and both list them in rising order. -/
theorem canonicalMemoriesAreEqual : Obligations.CanonicalMemoriesAreEqual := by
  intro m m' h h' hread
  have hmem : ∀ c, c ∈ m ↔ c ∈ m' := fun c => by rw [mem_iff_read h, mem_iff_read h', hread]
  have hsorted := ((wf_iff m).mp h).1
  have hsorted' := ((wf_iff m').mp h').1
  have nodup : ∀ {l : Memory}, l.Pairwise (fun c d => c.1 < d.1) → l.Nodup := fun hl =>
    hl.imp fun hlt e => hlt.ne (congrArg Prod.fst e)
  have hperm : m.Perm m' := (List.perm_ext_iff_of_nodup (nodup hsorted) (nodup hsorted')).mpr hmem
  exact hperm.eq_of_pairwise (fun c d _ _ hcd hdc => absurd hcd hdc.asymm) hsorted hsorted'

end Sys2Proof.Machine.Memory
end

section
/-! PROOF. What `PG_CONSTRUCT` stores (40_pingroup.md R122; 10_state.md R33 to R36). -/

namespace Sys2Proof.Machine

/-- Bit k of the OR of the pins' masks is set just where some pin has bit k (R33). -/
theorem getLsbD_groupMask (p : Params) (pins : List PinNo) (k : Fin 8) :
    (groupMask p pins).getLsbD k.val = true ↔ ∃ n ∈ pins, (p.resolve n).bit = k := by
  induction pins with
  | nil => simp [groupMask]
  | cons n pins ih =>
    have hmask : (p.resolve n).mask.getLsbD k.val = true ↔ (p.resolve n).bit = k := by
      simp [PinCap.mask, Fin.ext_iff, eq_comm]
    have hor : groupMask p (n :: pins) = (p.resolve n).mask ||| groupMask p pins := rfl
    rw [hor, BitVec.getLsbD_or, Bool.or_eq_true, hmask, ih]
    simp

/-- A group of at least one pin has a mask. -/
theorem groupMask_cons_ne_zero (p : Params) (first : PinNo) (rest : List PinNo) : groupMask p (first :: rest) ≠ 0 := by
  intro h
  have hbit := (getLsbD_groupMask p (first :: rest) (p.resolve first).bit).mpr ⟨first, List.mem_cons_self, rfl⟩
  rw [h] at hbit
  simp at hbit

/-- On an index not constructed `PG_CONSTRUCT` stores the record built of the pins and answers 0. -/
theorem exec_pgConstruct_of_none {s : State} {g : Index} (first : PinNo) (rest : List PinNo) (h : s.group g = none) :
    exec (.pgConstruct g first rest) s = .next ((s.putGroup g (PinGroup.build s.params first rest)).answered 0) := by
  rw [exec, execPgConstruct, h, State.done_eq]

/-- Settles O19: the record is `PinGroup.build`, whose mask and flag are read off its definition. -/
theorem pgConstructStoresTheGroup : Obligations.PgConstructStoresTheGroup := by
  intro s g first rest h
  refine ⟨PinGroup.build s.params first rest, exec_pgConstruct_of_none first rest h, rfl,
    getLsbD_groupMask s.params (first :: rest), groupMask_cons_ne_zero s.params first rest, rfl, rfl, rfl, rfl, ?_⟩
  simp only [PinGroup.build, List.all_eq_true, beq_iff_eq]

end Sys2Proof.Machine
end

section
/-! PROOF. The counter under events, and the answer of a completed command (10_state.md R22, R23, R40;
41_steppulse.md R171, R181). -/

namespace Sys2Proof.Machine.State

/-- Settles O37: the events of a schedule are handler runs, under which the counter only falls. -/
theorem counterOnlyFalls : Obligations.CounterOnlyFalls := by
  intro turns s t j S ht hS
  obtain ⟨n, hcut⟩ := runTurns_cut ht
  obtain ⟨r, hr, hfall⟩ := hcut.counter hS
  exact ⟨r, hr, hfall.le, hfall.nonneg, hfall.stuck, hfall.unbound⟩

end Sys2Proof.Machine.State

end

section
/-! PROOF. What a completed command has done before its answer, and that it answers OK (10_state.md R22, R23, R106). -/

namespace Sys2Proof

/-- A command names no generator, constructs one, or works on a constructed one. -/
theorem Instr.generator_cases (i : Instr) : i.generator = none ∨ (∃ k d p, i = .spgConstruct k d p) ∨
    ∃ k, i.generator = some k ∧ ∀ d p, i ≠ .spgConstruct k d p := by
  cases i <;> simp [Instr.generator]

namespace Machine.State

/-- What command i has done to state s when it comes to its answer. -/
inductive Worked (i : Instr) (s : State) : State → Prop
  | group {g : Index} {first : PinNo} {rest : List PinNo} (hi : i = .pgConstruct g first rest) (hg : s.group g = none) :
      Worked i s (s.putGroup g (PinGroup.build s.params first rest))
  | enable (b : Bool) : Worked i s (s.setIe b)
  | read (n : Nat) : Worked i s (s.setDraws n)
  | register {u : State} {m : Memory} (h : Updated s u m)
      (hm : s.MemoryBuilt → m.wf = true ∧ ∀ c ∈ m, s.params.isStorage c.1 = true)
      (hw : ∀ a, a ∉ s.registersWritten i → m.read a = s.mem.read a) : Worked i s u
  | generator {k : Index} {d p : PinNo} {u : State} {n : Nat} (hi : i = .spgConstruct k d p) (hk : s.gen k = none)
      (h : Cut (s.putGen k (Generator.build s.params d p)) u n) :
      Worked i s (u.setBound (s.bound.orElse fun _ => some k))
  | parts {k : Index} {w : List Addr} {u : State} (h : Parts k w s u) : Worked i s u

/-- A completed command has done its work and answered. -/
theorem exec_worked {i : Instr} {s t : State} (h : exec i s = .next t) : ∃ u v, Worked i s u ∧ t = u.answered v := by
  rcases i.generator_cases with hi | ⟨k, d, p, hi⟩ | ⟨k, hi, hc⟩
  · rcases exec_group_eq_next hi h with ⟨g, first, rest, hi, hg, ht⟩ | ⟨-, ht⟩ | ⟨-, ht⟩ | ⟨n, v, ht⟩ |
      ⟨u, m, hu, ht, hm, hw⟩
    · exact ⟨_, _, .group hi hg, ht⟩
    · exact ⟨_, _, .enable false, ht⟩
    · exact ⟨_, _, .enable true, ht⟩
    · exact ⟨_, _, .read n, ht⟩
    · exact ⟨_, _, .register hu hm hw, ht⟩
  · subst hi
    obtain ⟨hk, u, n, hcut, ht⟩ := exec_spgConstruct_eq_next h
    exact ⟨_, _, .generator rfl hk hcut, ht⟩
  · obtain ⟨u, v, hparts, ht⟩ := exec_parts hi hc h
    exact ⟨_, _, .parts hparts, ht⟩

/-- Up to its answer a command keeps the parameters, the host's words and its own number. -/
theorem Worked.keeps {i : Instr} {s u : State} (h : Worked i s u) :
    u.params = s.params ∧ u.cmds = s.cmds ∧ u.cp.k = s.cp.k := by
  cases h with
  | group | enable | read => exact ⟨rfl, rfl, rfl⟩
  | register h => exact ⟨h.params, h.cmds, h.place⟩
  | generator _ _ h => exact ⟨h.params, h.cmds, h.place⟩
  | parts h => exact ⟨h.kept.params, h.kept.cmds, h.kept.place⟩

/-- Settles O16: the answer is OK and moves `cp` on, and the work before it kept the rest. -/
theorem completedCommandAnswersOk : Obligations.CompletedCommandAnswersOk := by
  intro i s t h
  obtain ⟨u, v, hwork, rfl⟩ := exec_worked h
  obtain ⟨hparams, hcmds, hk⟩ := hwork.keeps
  exact ⟨rfl, by rw [answered_cp, hk], hparams, hcmds⟩

end Machine.State

end Sys2Proof
end

section
/-! PROOF. What is constructed stays (10_state.md R37, R43, R44; 00_scope.md R7). -/

namespace Sys2Proof.Machine.State

/-- From s to t the parameters, a bound target, the constructed groups, and each constructed generator's capabilities
and initialisation have stayed. -/
structure RecordsStay (s t : State) : Prop where
  params : t.params = s.params
  bound : ∀ b, s.bound = some b → t.bound = some b
  group : ∀ g G, s.group g = some G → t.group g = some G
  gen : ∀ i S, s.gen i = some S → ∃ S', t.gen i = some S' ∧ S'.dirCap = S.dirCap ∧ S'.stepCap = S.stepCap ∧
    (S.initialised = true → S'.initialised = true)

section
variable {s t u : State} {k : Index} {w : List Addr}

theorem RecordsStay.trans (h : RecordsStay s t) (h' : RecordsStay t u) : RecordsStay s u where
  params := h'.params.trans h.params
  bound b hb := h'.bound b (h.bound b hb)
  group g G hG := h'.group g G (h.group g G hG)
  gen i S hS := by
    obtain ⟨S', hS', hdir, hstep, hini⟩ := h.gen i S hS
    obtain ⟨S'', hS'', hdir', hstep', hini'⟩ := h'.gen i S' hS'
    exact ⟨S'', hS'', hdir'.trans hdir, hstep'.trans hstep, hini' ∘ hini⟩

/-- Where the fields that hold the records are as before, the records have stayed. -/
theorem RecordsStay.of_eq (hp : t.params = s.params) (hb : t.bound = s.bound) (hg : t.groups = s.groups)
    (hs : t.spg = s.spg) : RecordsStay s t where
  params := hp
  bound _ h := hb.trans h
  group g G hG := by rw [State.group, hg]; exact hG
  gen i S hS := ⟨S, by rw [State.gen, hs]; exact hS, rfl, rfl, id⟩

theorem RecordsStay.refl (s : State) : RecordsStay s s := .of_eq rfl rfl rfl rfl

theorem Cut.recordsStay {n : Nat} (c : Cut s t n) : RecordsStay s t where
  params := c.params
  bound _ h := c.bound.trans h
  group g G hG := (c.group g).trans hG
  gen i S hS := by
    obtain ⟨m, hm, -⟩ := c.gen_some hS
    exact ⟨_, hm, Generator.lowered_dirCap m S, Generator.lowered_stepCap m S,
      (Generator.lowered_initialised m S).trans⟩

theorem Updated.recordsStay {m : Memory} (h : Updated s t m) : RecordsStay s t :=
  .of_eq h.params h.bound h.groups h.spg

/-- A change of a generator that keeps its capabilities and does not take its initialisation back. -/
theorem updateSpg_recordsStay (s : State) (k : Index) (f : Generator → Generator)
    (hf : ∀ S, (f S).dirCap = S.dirCap ∧ (f S).stepCap = S.stepCap ∧
      (S.initialised = true → (f S).initialised = true)) :
    RecordsStay s (s.updateSpg k f) where
  params := rfl
  bound _ h := h
  group _ _ h := h
  gen i S hS := by
    rw [updateSpg_gen, hS]
    split
    · exact ⟨f S, rfl, hf S⟩
    · exact ⟨S, rfl, rfl, rfl, id⟩

theorem putGroup_recordsStay {g : Index} (G : PinGroup) (hg : s.group g = none) : RecordsStay s (s.putGroup g G) where
  params := rfl
  bound _ h := h
  group j H hH := by
    rw [putGroup_group, if_neg, hH]
    rintro rfl
    simp [hg] at hH
  gen i S hS := ⟨S, hS, rfl, rfl, id⟩

theorem putGen_recordsStay (S : Generator) (hk : s.gen k = none) : RecordsStay s (s.putGen k S) where
  params := rfl
  bound _ h := h
  group _ _ h := h
  gen i R hR := by
    refine ⟨R, ?_, rfl, rfl, id⟩
    rw [putGen_gen, if_neg, hR]
    rintro rfl
    simp [hk] at hR

theorem Part.recordsStay (p : Part k w s t) : RecordsStay s t := by
  cases p with
  | events h => exact h.recordsStay
  | register _ _ h => exact h.recordsStay
  | ticks | paused | period => exact updateSpg_recordsStay _ _ _ fun _ => ⟨rfl, rfl, id⟩
  | ready => exact updateSpg_recordsStay _ _ _ fun _ => ⟨rfl, rfl, fun _ => rfl⟩
  | timerInit | timerPeriod | timerAttach | timerStart | timerStop => exact .of_eq rfl rfl rfl rfl

theorem Parts.recordsStay (p : Parts k w s t) : RecordsStay s t := by
  induction p with
  | refl => exact .refl s
  | tail _ h ih => exact ih.trans h.recordsStay

theorem Worked.recordsStay {i : Instr} (h : Worked i s u) : RecordsStay s u := by
  cases h with
  | group _ hg => exact putGroup_recordsStay _ hg
  | enable | read => exact .of_eq rfl rfl rfl rfl
  | register h => exact h.recordsStay
  | @generator k d p u n _ hk h =>
    have hput := (putGen_recordsStay (Generator.build s.params d p) hk).trans h.recordsStay
    exact { hput with bound := fun b hb => by rw [setBound_bound, hb]; rfl }
  | parts h => exact h.recordsStay

end

end Sys2Proof.Machine.State

namespace Sys2Proof.Machine

/-- Every step keeps what is constructed. -/
theorem step_recordsStay {s t : State} (h : step s = .next t) : s.RecordsStay t := by
  rcases step_eq_next h with ⟨n, hcut, -⟩ | ⟨-, w0, operands, rest, -, rfl⟩ | ⟨-, w0, operands, rest, i, -, -, -, h⟩
  · exact hcut.recordsStay
  · exact .of_eq rfl rfl rfl rfl
  · obtain ⟨u, v, hwork, rfl⟩ := State.exec_worked h
    have hfetch : s.RecordsStay (s.afterFetch rest) := .of_eq rfl rfl rfl rfl
    have hanswer : u.RecordsStay (u.answered v) := .of_eq rfl rfl rfl rfl
    exact (hfetch.trans hwork.recordsStay).trans hanswer

/-- Settles O55: the four parts of `RecordsStay`. -/
theorem constructedRecordsStay : Obligations.ConstructedRecordsStay := by
  intro s t h
  obtain ⟨hparams, hbound, hgroup, hgen⟩ := step_recordsStay h
  exact ⟨hparams, hbound, hgroup, hgen⟩

end Sys2Proof.Machine
end

section
/-! PROOF. Every decoded command is well formed (30_encoding.md R96, R112). -/

namespace Sys2Proof

/-! A format that accepts gives the operation it was asked for, with some operands. -/

theorem formatZ_ok {w0 : Word} {i j : Instr} (h : formatZ w0 i = .ok j) : i = j := by
  unfold formatZ at h
  split at h
  · exact Except.ok.inj h
  · cases h

theorem formatSystem_ok {w0 : Word} {i j : Instr} (h : formatSystem w0 i = .ok j) : i = j := by
  unfold formatSystem at h
  split at h
  · exact formatZ_ok h
  · cases h

theorem formatV_ok {w0 : Word} {i : Bool → Instr} {j : Instr} (h : formatV w0 i = .ok j) : ∃ v, i v = j := by
  unfold formatV at h
  split at h
  · exact ⟨_, Except.ok.inj h⟩
  · cases h

theorem formatM_ok {w0 : Word} {i : Bool → Bool → Instr} {j : Instr} (h : formatM w0 i = .ok j) :
    ∃ m v, i m v = j := by
  unfold formatM at h
  split at h
  · exact ⟨_, _, Except.ok.inj h⟩
  · cases h

theorem formatP_ok {w0 : Word} {i : PinNo → PinNo → Instr} {j : Instr} (h : formatP w0 i = .ok j) :
    ∃ d p, i d p = j := ⟨_, _, Except.ok.inj h⟩

theorem formatS_ok {w0 : Word} {operands : List Word} {i : Bool → Word → Instr} {j : Instr}
    (h : formatS w0 operands i = .ok j) : ∃ v steps, i v steps = j := by
  unfold formatS at h
  split at h
  · obtain ⟨v, hv⟩ := formatV_ok h
    exact ⟨v, _, hv⟩
  · cases h

theorem formatSP_ok {w0 : Word} {operands : List Word} {i : Bool → Word → Word → Instr} {j : Instr}
    (h : formatSP w0 operands i = .ok j) : ∃ v steps period, i v steps period = j := by
  unfold formatSP at h
  split at h
  · obtain ⟨v, hv⟩ := formatV_ok h
    exact ⟨v, _, _, hv⟩
  · cases h

theorem formatT_ok {w0 : Word} {operands : List Word} {i : Word → Instr} {j : Instr}
    (h : formatT w0 operands i = .ok j) : ∃ period, i period = j := by
  unfold formatT at h
  split at h
  · exact ⟨_, formatZ_ok h⟩
  · cases h

/-- Format G gives a list of 1 to 8 pins (R112). -/
theorem formatG_ok {w0 : Word} {operands : List Word} {i : PinNo → List PinNo → Instr} {j : Instr}
    (h : formatG w0 operands i = .ok j) : ∃ first rest, rest.length + 1 ≤ maxPins ∧ i first rest = j := by
  simp only [formatG] at h
  split_ifs at h
  split at h
  · cases h
  · next hmax _ _ first rest hpins =>
    refine ⟨first, rest, ?_, Except.ok.inj h⟩
    have hlen := congrArg List.length hpins
    rw [List.length_take, List.length_cons] at hlen
    omega

/-- The opcode selects the format, and no format gives a command that is not well formed. -/
theorem decodeOpcode_wellFormed {w0 : Word} {operands : List Word} {i : Instr}
    (h : decodeOpcode w0 operands = .ok i) : i.wellFormed = true := by
  unfold decodeOpcode at h
  split at h
  case h_1 =>
    obtain ⟨first, rest, hlen, rfl⟩ := formatG_ok h
    exact decide_eq_true hlen
  case h_6 | h_7 | h_9 | h_10 => obtain ⟨_, rfl⟩ := formatV_ok h; rfl
  case h_8 => obtain ⟨_, _, rfl⟩ := formatM_ok h; rfl
  case h_17 => obtain ⟨_, _, rfl⟩ := formatP_ok h; rfl
  case h_19 => obtain ⟨_, _, rfl⟩ := formatS_ok h; rfl
  case h_20 => obtain ⟨_, _, _, rfl⟩ := formatSP_ok h; rfl
  case h_21 => obtain ⟨_, rfl⟩ := formatT_ok h; rfl
  case h_29 | h_30 => obtain rfl := formatSystem_ok h; rfl
  case h_31 => cases h
  all_goals obtain rfl := formatZ_ok h; rfl

/-- Every decoded command is well formed. -/
theorem decodeCommand_wellFormed {w0 : Word} {operands : List Word} {i : Instr}
    (h : decodeCommand w0 operands = .ok i) : i.wellFormed = true := by
  unfold decodeCommand at h
  split at h
  · exact decodeOpcode_wellFormed h
  · cases h

end Sys2Proof
end

section
/-! PROOF. The invariant of the machine holds at reset and every step keeps it (10_state.md R33 to R36, R43, R44;
41_steppulse.md R172, R218; 30_encoding.md R105). -/

namespace Sys2Proof.Machine

/-! ## One generator -/

/-- Generator S has the capabilities of two pins, has the handler h attached once initialised, and an even counter while
it is negative: what the invariant says of each generator. -/
def Generator.Built (p : Params) (h : Option Handler) (S : Generator) : Prop :=
  (∃ d q, S.dirCap = p.resolve d ∧ S.stepCap = p.resolve q) ∧
  (S.initialised = true → h = some .dispatch) ∧
  (S.remainingTicks.toInt < 0 → isOdd S.remainingTicks = false)

namespace Generator
variable {p : Params} {h : Option Handler} {S : Generator}

theorem built_build (p : Params) (h : Option Handler) (d q : PinNo) : (Generator.build p d q).Built p h :=
  ⟨⟨d, q, rfl, rfl⟩, nofun, fun hneg => absurd hneg (show ¬(0 : Word).toInt < 0 by decide)⟩

theorem Built.attach (b : S.Built p h) : S.Built p (some .dispatch) := by
  obtain ⟨hcaps, -, heven⟩ := b
  exact ⟨hcaps, fun _ => rfl, heven⟩

theorem Built.setTicks (b : S.Built p h) {r : Word} (hr : r.toInt < 0 → isOdd r = false) :
    ({ S with remainingTicks := r } : Generator).Built p h := by
  obtain ⟨hcaps, hini, -⟩ := b
  exact ⟨hcaps, hini, hr⟩

/-- Handler runs leave a negative counter alone and make no counter negative (R171, R172). -/
theorem Built.lowered (b : S.Built p h) (n : Nat) : (S.lowered n).Built p h := by
  have ⟨_, _, heven⟩ := b
  rw [lowered_eq]
  refine b.setTicks fun hneg => ?_
  have hstopped : isStepping S.remainingTicks = false := by
    rw [lowered_toInt] at hneg
    simp only [isStepping, decide_eq_false_iff_not]
    split at hneg <;> omega
  rw [lowered_of_not_stepping n hstopped] at hneg ⊢
  exact heven hneg

end Generator

namespace State

theorem generatorsBuilt_iff {s : State} :
    s.GeneratorsBuilt ↔ ∀ i S, s.gen i = some S → S.Built s.params s.timer.handler := Iff.rfl

/-! ## The invariant inside a command -/

/-- What of the invariant holds at every micro-step: all but MAIN's place, and but that a constructed generator has a
target, which `SPG_CONSTRUCT` sets one micro-step after the record (R173). -/
structure Sound (s : State) : Prop where
  memory : s.MemoryBuilt
  groups : s.GroupsBuilt
  generators : s.GeneratorsBuilt
  indexes : s.IndexesExist
  latch : s.timer.pending = true → s.timer.handler = some .dispatch
  target : ∀ b, s.bound = some b → (s.gen b).isSome

theorem inv_iff {s : State} : s.Inv ↔ s.Sound ∧ (s.bound = none → ∀ i, s.gen i = none) ∧ s.cp.j = 1 :=
  ⟨fun h => ⟨⟨h.memory, h.groups, h.generators, h.indexes, h.latch, h.target.1⟩, h.target.2, h.place⟩,
    fun ⟨h, hbound, hplace⟩ => ⟨h.memory, h.groups, h.generators, ⟨h.target, hbound⟩, h.indexes, h.latch, hplace⟩⟩

section
variable {s t u : State} {k : Index} {w : List Addr}

/-- The target's step pin is a pin's, so that its STATE register exists. -/
theorem Sound.ready (h : s.Sound) : s.HandlerReady := by
  intro b hb
  obtain ⟨S, hS⟩ := Option.isSome_iff_exists.mp (h.target b hb)
  obtain ⟨⟨-, q, -, hq⟩, -⟩ := h.generators b S hS
  exact ⟨S, hS, by rw [hq]; exact s.params.isStorage_state q⟩

/-- The fields of which `Sound` does not speak. -/
theorem Sound.frame (h : s.Sound) (ie : Bool) (st : Status) (r : Word) (c : Place) (ws : List Word) (ts : List Turn)
    (n : Nat) : Sound { s with ie := ie, status := st, result := r, cp := c, cmds := ws, sched := ts, draws := n } :=
  ⟨h.memory, h.groups, h.generators, h.indexes, h.latch, h.target⟩

/-! ## What the parts of a command keep of it -/

theorem Kept.gen_isSome (h : Kept s t k w) (j : Index) : (t.gen j).isSome = (s.gen j).isSome := by
  simpa using congrArg Option.isSome (h.caps j)

theorem Kept.groupsBuilt (h : Kept s t k w) (hs : s.GroupsBuilt) : t.GroupsBuilt := by
  intro g G hG
  rw [h.params]
  exact hs g G (by rwa [State.group, h.groups] at hG)

theorem Kept.indexesExist (h : Kept s t k w) (hs : s.IndexesExist) : t.IndexesExist := by
  obtain ⟨hgroup, hgen⟩ := hs
  refine ⟨fun g hg => ?_, fun i hi => ?_⟩
  · rw [h.params]
    exact hgroup g (by rwa [State.group, h.groups] at hg)
  · rw [h.params]
    exact hgen i (by rwa [h.gen_isSome] at hi)

theorem Kept.target (h : Kept s t k w) (hs : ∀ b, s.bound = some b → (s.gen b).isSome) :
    ∀ b, t.bound = some b → (t.gen b).isSome := by
  intro b hb
  rw [h.gen_isSome]
  exact hs b (h.bound ▸ hb)

theorem Kept.unbound (h : Kept s t k w) (hs : s.bound = none → ∀ i, s.gen i = none) :
    t.bound = none → ∀ i, t.gen i = none := by
  intro hb i
  have hnone : s.gen i = none := hs (h.bound ▸ hb) i
  rw [← Option.not_isSome_iff_eq_none, h.gen_isSome, hnone]
  simp

/-- Of `Sound` a part need only be shown to keep what it may write. -/
theorem Sound.of_kept (h : s.Sound) (hk : Kept s t k w) (hm : t.MemoryBuilt) (hg : t.GeneratorsBuilt)
    (hl : t.timer.pending = true → t.timer.handler = some .dispatch) : t.Sound :=
  ⟨hm, hk.groupsBuilt h.groups, hg, hk.indexesExist h.indexes, hl, hk.target h.target⟩

theorem Cut.generatorsBuilt {n : Nat} (c : Cut s t n) (h : s.GeneratorsBuilt) : t.GeneratorsBuilt := by
  rw [generatorsBuilt_iff, c.params, c.handler]
  intro i S hS
  rw [c.gen] at hS
  split at hS
  · obtain ⟨R, hR, rfl⟩ := Option.map_eq_some_iff.mp hS
    exact Generator.Built.lowered (h i R hR) n
  · exact h i S hS

theorem Updated.generatorsBuilt {m : Memory} (hu : Updated s t m) (h : s.GeneratorsBuilt) : t.GeneratorsBuilt := by
  rw [generatorsBuilt_iff, hu.params, hu.handler]
  intro i S hS
  exact h i S (by rwa [hu.gen] at hS)

theorem updateSpg_generatorsBuilt (h : s.GeneratorsBuilt) {f : Generator → Generator}
    (hf : ∀ S : Generator, S.Built s.params s.timer.handler → (f S).Built s.params s.timer.handler) :
    (s.updateSpg k f).GeneratorsBuilt := by
  intro i S hS
  rw [updateSpg_gen] at hS
  split at hS
  · obtain ⟨R, hR, rfl⟩ := Option.map_eq_some_iff.mp hS
    exact hf R (h i R hR)
  · exact h i S hS

theorem Cut.latched {n : Nat} (c : Cut s t n) (h : s.timer.pending = true → s.timer.handler = some .dispatch) :
    t.timer.pending = true → t.timer.handler = some .dispatch := by
  intro hp
  rw [c.handler]
  exact (c.latch hp).elim h id

theorem Updated.latched {m : Memory} (hu : Updated s t m)
    (h : s.timer.pending = true → s.timer.handler = some .dispatch) :
    t.timer.pending = true → t.timer.handler = some .dispatch := by
  intro hp
  rw [hu.handler]
  exact (hu.latch hp).elim h id

/-- A masked update leaves a canonical memory of registers. -/
theorem Updated.memoryBuilt {m : Memory} (hu : Updated s t m)
    (hm : m.wf = true ∧ ∀ c ∈ m, s.params.isStorage c.1 = true) : t.MemoryBuilt := by
  rw [MemoryBuilt, hu.mem, hu.params]
  exact hm

/-- Writing a register keeps a memory built. -/
theorem MemoryBuilt.write (h : s.MemoryBuilt) {a : Addr} (ha : s.params.isStorage a = true) (v : Byte) :
    (s.mem.write a v).wf = true ∧ ∀ c ∈ s.mem.write a v, s.params.isStorage c.1 = true := by
  obtain ⟨hwf, hstorage⟩ := h
  refine ⟨Memory.wf_write hwf a v, fun c hc => ?_⟩
  rcases Memory.mem_write hc with hc | hc
  · rw [hc]
    exact ha
  · exact hstorage c hc

/-! ## A part of a command keeps it -/

theorem Part.memoryBuilt (p : Part k w s t) (hr : s.HandlerReady) (h : s.MemoryBuilt) : t.MemoryBuilt := by
  cases p with
  | events c => exact c.memory hr h
  | register _ ha hu => exact hu.memoryBuilt (h.write ha _)
  | ticks | paused | period | ready | timerInit | timerPeriod | timerAttach | timerStart | timerStop => exact h

theorem Part.generatorsBuilt (p : Part k w s t) (h : s.GeneratorsBuilt) : t.GeneratorsBuilt := by
  cases p with
  | events c => exact c.generatorsBuilt h
  | register _ _ hu => exact hu.generatorsBuilt h
  | ticks r hr => exact updateSpg_generatorsBuilt h fun _ b => b.setTicks hr
  | paused | period => exact updateSpg_generatorsBuilt h fun _ b => b
  | ready hd => exact updateSpg_generatorsBuilt h fun _ ⟨hcaps, _, heven⟩ => ⟨hcaps, fun _ => hd, heven⟩
  | timerAttach => exact fun i S hS => Generator.Built.attach (h i S hS)
  | timerInit | timerPeriod | timerStart | timerStop => exact h

theorem Part.latched (p : Part k w s t) (h : s.timer.pending = true → s.timer.handler = some .dispatch) :
    t.timer.pending = true → t.timer.handler = some .dispatch := by
  cases p with
  | events c => exact c.latched h
  | register _ _ hu => exact hu.latched h
  | timerAttach => exact fun _ => rfl
  | ticks | paused | period | ready | timerInit | timerPeriod | timerStart | timerStop => exact h

theorem Part.sound (p : Part k w s t) (h : s.Sound) : t.Sound :=
  h.of_kept p.kept (p.memoryBuilt h.ready h.memory) (p.generatorsBuilt h.generators) (p.latched h.latch)

theorem Parts.sound (p : Parts k w s t) (h : s.Sound) : t.Sound := by
  induction p with
  | refl => exact h
  | tail _ hpart ih => exact hpart.sound ih

theorem Cut.sound {n : Nat} (c : Cut s t n) (h : s.Sound) : t.Sound :=
  (Part.events (k := 0) (w := []) c).sound h

/-! ## The construct commands -/

theorem Sound.putGroup (h : s.Sound) {g : Index} {first : PinNo} {rest : List PinNo}
    (hg : s.params.hasGroup g = true) (hlen : rest.length + 1 ≤ maxPins) :
    (s.putGroup g (PinGroup.build s.params first rest)).Sound := by
  refine { h with groups := fun j G hG => ?_, indexes := ⟨fun j hj => ?_, h.indexes.2⟩ }
  · rw [putGroup_group] at hG
    split at hG
    · exact ⟨first, rest, hlen, (Option.some.inj hG).symm⟩
    · exact h.groups j G hG
  · rw [putGroup_group] at hj
    split at hj
    · next hgj => exact hgj ▸ hg
    · exact h.indexes.1 j hj

theorem putGen_isSome (s : State) (k : Index) (S : Generator) (j : Index) :
    ((s.putGen k S).gen j).isSome = true ↔ k = j ∨ (s.gen j).isSome = true := by
  rw [putGen_gen]
  split <;> simp_all

theorem Sound.putGen (h : s.Sound) (hk : s.params.hasSpg k = true) (d p : PinNo) :
    (s.putGen k (Generator.build s.params d p)).Sound := by
  refine { h with generators := fun j S hS => ?_, indexes := ⟨h.indexes.1, fun j hj => ?_⟩, target := fun b hb => ?_ }
  · rw [putGen_gen] at hS
    split at hS
    · obtain rfl := Option.some.inj hS
      exact Generator.built_build ..
    · exact h.generators j S hS
  · rcases (putGen_isSome ..).mp hj with rfl | hj
    · exact hk
    · exact h.indexes.2 j hj
  · exact (putGen_isSome ..).mpr (.inr (h.target b hb))

theorem Sound.setBound (h : s.Sound) {o : Option Index} (ho : ∀ b, o = some b → (s.gen b).isSome) :
    (s.setBound o).Sound := ⟨h.memory, h.groups, h.generators, h.indexes, h.latch, ho⟩

/-! ## A command -/

/-- The work of a command that exists and is well formed keeps `Sound`. -/
theorem Worked.sound {i : Instr} (h : Worked i s u) (hw : i.wellFormed = true) (hp : i.present s.params = true)
    (hs : s.Sound) : u.Sound := by
  cases h with
  | group hi _ =>
    subst hi
    exact hs.putGroup hp (of_decide_eq_true hw)
  | enable | read => exact hs.frame ..
  | register hu hm hread =>
    exact hs.of_kept (hu.kept 0 hread) (hu.memoryBuilt (hm hs.memory)) (hu.generatorsBuilt hs.generators)
      (hu.latched hs.latch)
  | @generator k d p c _ hi _ hcut =>
    subst hi
    have hput := hs.putGen hp d p
    refine (hcut.sound hput).setBound fun b hb => ?_
    rw [(hcut.kept k []).gen_isSome]
    cases hbound : s.bound with
    | none =>
      obtain rfl : k = b := by simpa [hbound] using hb
      exact (putGen_isSome ..).mpr (.inl rfl)
    | some b' =>
      obtain rfl : b' = b := by simpa [hbound] using hb
      exact hput.target b' hbound
  | parts h => exact h.sound hs

/-- After its work every constructed generator has a target again. -/
theorem Worked.unbound {i : Instr} (h : Worked i s u) (hs : s.bound = none → ∀ j, s.gen j = none) :
    u.bound = none → ∀ j, u.gen j = none := by
  cases h with
  | group | enable | read => exact hs
  | register hu _ hread => exact (hu.kept 0 hread).unbound hs
  | @generator k _ _ _ _ _ _ _ =>
    intro hb
    cases hbound : s.bound <;> simp [hbound] at hb
  | parts h => exact h.kept.unbound hs

/-- Every completed command keeps the invariant. -/
theorem exec_inv {i : Instr} (h : exec i s = .next t) (hw : i.wellFormed = true) (hp : i.present s.params = true)
    (hs : s.Inv) : t.Inv := by
  obtain ⟨u, v, hwork, rfl⟩ := exec_worked h
  obtain ⟨hsound, hbound, -⟩ := inv_iff.mp hs
  exact inv_iff.mpr ⟨(hwork.sound hw hp hsound).frame .., hwork.unbound hbound, rfl⟩

/-- Events between two commands keep the invariant. -/
theorem Cut.inv {n : Nat} (c : Cut s t n) (hcp : t.cp = s.cp) (hs : s.Inv) : t.Inv := by
  obtain ⟨hsound, hbound, hplace⟩ := inv_iff.mp hs
  exact inv_iff.mpr ⟨c.sound hsound, (c.kept 0 []).unbound hbound, by rw [hcp, hplace]⟩

theorem afterFetch_inv (ws : List Word) (hs : s.Inv) : (s.afterFetch ws).Inv := by
  obtain ⟨hsound, hbound, hplace⟩ := inv_iff.mp hs
  exact inv_iff.mpr ⟨hsound.frame .., hbound, hplace⟩

theorem illegal_inv (hs : s.Inv) : s.illegal.Inv := by
  obtain ⟨hsound, hbound, -⟩ := inv_iff.mp hs
  exact inv_iff.mpr ⟨hsound.frame .., hbound, rfl⟩

end

/-! ## Reset -/

theorem launch_group (p : Params) (m : Memory) (r : Bool) (g : Index) : (launch p m r).group g = none :=
  Vector.getElem_replicate g.isLt

theorem launch_gen (p : Params) (m : Memory) (r : Bool) (i : Index) : (launch p m r).gen i = none :=
  Vector.getElem_replicate i.isLt

/-- After a launch nothing is constructed, so that only the memory is to be looked at. -/
theorem launch_inv {p : Params} {m : Memory} (r : Bool) (hwf : m.wf = true)
    (hm : ∀ c ∈ m, p.isStorage c.1 = true) : (launch p m r).Inv where
  memory := ⟨hwf, hm⟩
  groups g G hG := by simp [launch_group] at hG
  generators i S hS := by simp [launch_gen] at hS
  target := ⟨nofun, fun _ => launch_gen p m r⟩
  indexes := ⟨fun g hg => by simp [launch_group] at hg, fun i hi => by simp [launch_gen] at hi⟩
  latch := nofun
  place := rfl

/-- Settles O56: reset is a launch with the empty memory. -/
theorem invariantHoldsAtReset : Obligations.InvariantHoldsAtReset :=
  ⟨launch_inv _ Memory.wf_nil nofun, fun _ _ r hwf hm => launch_inv r hwf hm⟩

end State

/-- Settles O57: a step is events, an ILLEGAL command's answer, or a command that exists and is well formed. -/
theorem everyStepKeepsTheInvariant : Obligations.EveryStepKeepsTheInvariant := by
  intro s t hs h
  rcases step_eq_next h with ⟨n, hcut, hcp⟩ | ⟨-, w0, operands, rest, -, rfl⟩ |
    ⟨-, w0, operands, rest, i, -, hdecode, hpresent, hexec⟩
  · exact hcut.inv hcp hs
  · exact State.illegal_inv (State.afterFetch_inv rest hs)
  · exact State.exec_inv hexec (decodeCommand_wellFormed hdecode) hpresent (State.afterFetch_inv rest hs)

end Sys2Proof.Machine
end

section
/-! PROOF. Paused means stopped, and stays so for one constructed generator (10_state.md R48; 41_steppulse.md R174,
R176, R178 to R180). -/

namespace Sys2Proof.Machine.State

/-! ## The flags of which R48 speaks -/

/-- Whether the timer runs, and whether generator k, where constructed, is initialised and paused. -/
def flags (s : State) (k : Index) : Bool × Option (Bool × Bool) :=
  (s.timer.running, (s.gen k).map fun S => (S.initialised, S.paused))

section
variable {s t : State} {k : Index}

theorem flags_of_some {S : Generator} (h : s.gen k = some S) :
    s.flags k = (s.timer.running, some (S.initialised, S.paused)) := by rw [flags, h]; rfl

theorem pausedMeansStopped_iff : s.PausedMeansStopped k ↔
    ∀ p, (s.flags k).2 = some (true, p) → (p = true ↔ (s.flags k).1 = false) := by
  constructor
  · intro h p hp
    obtain ⟨S, hS, hSp⟩ := Option.map_eq_some_iff.mp hp
    obtain ⟨hini, rfl⟩ := Prod.mk.inj hSp
    exact h S hS hini
  · intro h S hS hini
    exact h S.paused (by rw [flags_of_some hS, hini])

theorem PausedMeansStopped.of_flags (h : s.PausedMeansStopped k) (e : t.flags k = s.flags k) :
    t.PausedMeansStopped k := by
  rw [pausedMeansStopped_iff, e]
  exact pausedMeansStopped_iff.mp h

/-! What each part of a command does to the flags. -/

theorem Cut.flags {n : Nat} (c : Cut s t n) (k : Index) : t.flags k = s.flags k := by
  rw [State.flags, State.flags, c.running, c.gen]
  split
  · rw [Option.map_map]
    simp [Function.comp_def]
  · rfl

theorem Updated.flags {m : Memory} (h : Updated s t m) (k : Index) : t.flags k = s.flags k := by
  rw [State.flags, State.flags, h.running, h.gen]

theorem nextMicro_flags (h : s.nextMicro = .next t) (k : Index) : t.flags k = s.flags k := by
  obtain ⟨n, hcut⟩ := nextMicro_cut h
  exact hcut.flags k

theorem jumpMicro_flags {j : Nat} (h : s.jumpMicro j = .next t) (k : Index) : t.flags k = s.flags k := by
  obtain ⟨n, hcut⟩ := jumpMicro_cut h
  exact hcut.flags k

@[simp] theorem answered_flags (s : State) (v : Word) (k : Index) : (s.answered v).flags k = s.flags k := rfl

theorem done_flags {v : Word} (h : s.done v = .next t) (k : Index) : t.flags k = s.flags k := by
  rw [done_eq_next.mp h, answered_flags]

@[simp] theorem timerSetPeriod_flags (s : State) (p : Word) (k : Index) :
    (s.timerSetPeriod p).flags k = s.flags k := rfl

@[simp] theorem timerStart_flags (s : State) (k : Index) : s.timerStart.flags k = (true, (s.flags k).2) := rfl

@[simp] theorem timerStop_flags (s : State) (k : Index) : s.timerStop.flags k = (false, (s.flags k).2) := rfl

theorem updateSpg_flags (s : State) (k : Index) (f : Generator → Generator) :
    (s.updateSpg k f).flags k = (s.timer.running, (s.gen k).map fun S => ((f S).initialised, (f S).paused)) := by
  rw [flags, updateSpg_gen, if_pos rfl, Option.map_map]
  rfl

@[simp] theorem setTicks_flags (s : State) (k : Index) (r : Word) : (s.setTicks k r).flags k = s.flags k :=
  updateSpg_flags ..

@[simp] theorem setPeriod_flags (s : State) (k : Index) (p : Word) : (s.setPeriod k p).flags k = s.flags k :=
  updateSpg_flags ..

@[simp] theorem setPaused_flags (s : State) (k : Index) (b : Bool) :
    (s.setPaused k b).flags k = ((s.flags k).1, (s.flags k).2.map fun x => (x.1, b)) := by
  rw [setPaused, updateSpg_flags, flags, Option.map_map]
  rfl

/-! ## Every command on generator k keeps what R48 says of it -/

/-- With the timer's running state and the negation of it in `paused`, R48's equivalence holds. -/
theorem pausedMeansStopped_of_flags_eq {r : Bool} {o : Option (Bool × Bool)}
    (h : t.flags k = (r, o.map fun x => (x.1, !r))) : t.PausedMeansStopped k := by
  rw [pausedMeansStopped_iff, h]
  intro p hp
  obtain ⟨x, -, hx⟩ := Option.map_eq_some_iff.mp hp
  rw [← (Prod.mk.inj hx).2, Bool.not_eq_true']

/-- The timer is started, and after the events of a boundary `paused` is cleared (R176, R178, R180). -/
theorem pausedMeansStopped_of_start (h : s.timerStart.nextMicro = .next t) :
    (t.setPaused k false).PausedMeansStopped k :=
  pausedMeansStopped_of_flags_eq (by rw [setPaused_flags, nextMicro_flags h, timerStart_flags]; rfl)

/-- The timer is stopped, and after the events of a boundary `paused` is set (R179). -/
theorem pausedMeansStopped_of_stop (h : s.timerStop.nextMicro = .next t) :
    (t.setPaused k true).PausedMeansStopped k :=
  pausedMeansStopped_of_flags_eq (by rw [setPaused_flags, nextMicro_flags h, timerStop_flags]; rfl)

theorem acceptStep_flags {c : PinCap} {steps : Word} {v : Level} (h : s.acceptStep k c steps v = .next t) :
    t.flags k = s.flags k := by
  unfold acceptStep at h
  obtain ⟨a, ha, h⟩ := Res.andThen_eq_next.mp h
  obtain ⟨b, hb, h⟩ := Res.andThen_eq_next.mp h
  obtain ⟨-, hu⟩ := maskedUpdate_eq_next hb
  rw [done_eq_next.mp h, answered_flags, hu.flags, nextMicro_flags ha, setTicks_flags]

/-- A generator just constructed is not initialised. -/
theorem execSpgConstruct_pausedMeansStopped {d p : PinNo} (h : exec (.spgConstruct k d p) s = .next t) :
    t.PausedMeansStopped k := by
  obtain ⟨-, u, n, hcut, rfl⟩ := exec_spgConstruct_eq_next h
  have hput : (s.putGen k (Generator.build s.params d p)).gen k = some (Generator.build s.params d p) := by
    rw [putGen_gen, if_pos rfl]
  have hflags : u.flags k = (s.timer.running, some (false, false)) := by
    rw [hcut.flags, flags_of_some hput]
    rfl
  rw [pausedMeansStopped_iff]
  intro p hp
  have hp : (u.flags k).2 = some (true, p) := hp
  simp [hflags] at hp

/-- `SPG_INIT` ends with the timer stopped and `paused` set, whatever they were (R174). -/
theorem execSpgInit_pausedMeansStopped (h : execSpgInit k s = .next t) : t.PausedMeansStopped k := by
  unfold execSpgInit at h
  obtain ⟨S, -, h⟩ := withSpg_eq_next.mp h
  obtain ⟨a, -, h⟩ := Res.andThen_eq_next.mp h
  obtain ⟨b, -, h⟩ := Res.andThen_eq_next.mp h
  obtain ⟨c, -, h⟩ := Res.andThen_eq_next.mp h
  obtain ⟨d, -, h⟩ := Res.andThen_eq_next.mp h
  obtain ⟨e, -, h⟩ := Res.andThen_eq_next.mp h
  obtain ⟨f, -, h⟩ := Res.andThen_eq_next.mp h
  obtain ⟨g, hg, h⟩ := Res.andThen_eq_next.mp h
  have hrunning : g.timer.running = false := congrArg Prod.fst (nextMicro_flags hg k)
  refine pausedMeansStopped_of_flags_eq (r := false) (o := (g.gen k).map fun _ => (true, true)) ?_
  rw [done_eq_next.mp h, answered_flags, updateSpg_flags, hrunning, Option.map_map]
  rfl

theorem execSpgStep_pausedMeansStopped {steps : Word} {v : Level} (h : execSpgStep k steps v s = .next t)
    (hs : s.PausedMeansStopped k) : t.PausedMeansStopped k := by
  unfold execSpgStep at h
  obtain ⟨S, -, -, h⟩ := withInitialised_eq_next.mp h
  obtain ⟨-, h⟩ := whenStepsFit_eq_next.mp h
  split at h
  · exact hs.of_flags (done_flags h k)
  · obtain ⟨a, ha, h⟩ := Res.andThen_eq_next.mp h
    exact hs.of_flags ((acceptStep_flags h).trans (nextMicro_flags ha k))

/-- `SPG_STEPP`: resume's body starts the timer and clears `paused`; nothing after it touches the two (R176). -/
theorem execSpgStepP_pausedMeansStopped {steps period : Word} {v : Level}
    (h : execSpgStepP k steps v period s = .next t) (hs : s.PausedMeansStopped k) : t.PausedMeansStopped k := by
  unfold execSpgStepP at h
  obtain ⟨S, -, -, h⟩ := withInitialised_eq_next.mp h
  obtain ⟨-, h⟩ := whenStepsFit_eq_next.mp h
  split at h
  · exact hs.of_flags (done_flags h k)
  obtain ⟨a, ha, h⟩ := Res.andThen_eq_next.mp h
  obtain ⟨b, hb, h⟩ := Res.andThen_eq_next.mp h
  obtain ⟨c, hc, h⟩ := Res.andThen_eq_next.mp h
  obtain ⟨d, hd, h⟩ := Res.andThen_eq_next.mp h
  have hresumed : b.PausedMeansStopped k := by
    obtain ⟨A, -, hb⟩ := withSpg_eq_next.mp hb
    split at hb
    · obtain ⟨x, -, hb⟩ := Res.andThen_eq_next.mp hb
      obtain ⟨y, hy, hb⟩ := Res.andThen_eq_next.mp hb
      exact (pausedMeansStopped_of_start hy).of_flags (nextMicro_flags hb k)
    · exact hs.of_flags ((jumpMicro_flags hb k).trans (nextMicro_flags ha k))
  have hperiods : d.flags k = b.flags k := by
    rw [nextMicro_flags hd, timerSetPeriod_flags, nextMicro_flags hc, setPeriod_flags]
  have hd : d.PausedMeansStopped k := hresumed.of_flags hperiods
  obtain ⟨D, -, h⟩ := withSpg_eq_next.mp h
  split at h
  · exact hd.of_flags (done_flags h k)
  · obtain ⟨e, he, h⟩ := Res.andThen_eq_next.mp h
    exact hd.of_flags ((acceptStep_flags h).trans (nextMicro_flags he k))

theorem execSpgSetPeriod_pausedMeansStopped {period : Word} (h : execSpgSetPeriod k period s = .next t)
    (hs : s.PausedMeansStopped k) : t.PausedMeansStopped k := by
  unfold execSpgSetPeriod at h
  obtain ⟨S, -, -, h⟩ := withInitialised_eq_next.mp h
  obtain ⟨a, ha, h⟩ := Res.andThen_eq_next.mp h
  refine hs.of_flags ?_
  rw [done_eq_next.mp h, answered_flags, timerSetPeriod_flags, nextMicro_flags ha, setPeriod_flags]

/-- With `STOP_CLEARS_PAUSED` stop's last part starts the timer and clears `paused` (R178). -/
theorem stopRearms_pausedMeansStopped {r1 r2 : Word} (hp : s.params.stopClearsPaused = true)
    (h : s.stopRearms k r1 r2 = .next t) : t.PausedMeansStopped k := by
  unfold stopRearms at h
  obtain ⟨a, ha, h⟩ := Res.andThen_eq_next.mp h
  have hpa : a.params.stopClearsPaused = true := by
    obtain ⟨n, hcut⟩ := nextMicro_cut ha
    rw [hcut.params]
    exact hp
  rw [if_pos hpa] at h
  obtain ⟨b, hb, h⟩ := Res.andThen_eq_next.mp h
  rw [done_eq_next.mp h]
  exact pausedMeansStopped_of_start hb

/-- Stop's second read only lets events happen before it goes on (R178). -/
theorem stopReadsAgain_eq_next {r1 : Word} {c : Word → State → Res} (h : s.stopReadsAgain k r1 c = .next t) :
    ∃ u r2, u.params = s.params ∧ c r2 u = .next t := by
  unfold stopReadsAgain at h
  split at h
  · obtain ⟨a, ha, h⟩ := Res.andThen_eq_next.mp h
    obtain ⟨A, -, h⟩ := withSpg_eq_next.mp h
    obtain ⟨b, hb, h⟩ := Res.andThen_eq_next.mp h
    obtain ⟨_, hcut⟩ := nextMicro_cut ha
    obtain ⟨_, hcut'⟩ := nextMicro_cut hb
    exact ⟨b, _, hcut'.params.trans hcut.params, h⟩
  · obtain ⟨a, ha, h⟩ := Res.andThen_eq_next.mp h
    obtain ⟨_, hcut⟩ := jumpMicro_cut ha
    exact ⟨a, _, hcut.params, h⟩

theorem execSpgStop_pausedMeansStopped (hp : s.params.stopClearsPaused = true) (h : execSpgStop k s = .next t) :
    t.PausedMeansStopped k := by
  unfold execSpgStop at h
  obtain ⟨S, -, -, h⟩ := withInitialised_eq_next.mp h
  obtain ⟨a, ha, h⟩ := Res.andThen_eq_next.mp h
  obtain ⟨n, hcut⟩ := nextMicro_cut ha
  obtain ⟨u, r2, hu, h⟩ := stopReadsAgain_eq_next h
  have hparams : u.params = s.params := hu.trans hcut.params
  exact stopRearms_pausedMeansStopped (by rw [hparams, hp]) h

theorem execSpgPause_pausedMeansStopped (h : execSpgPause k s = .next t) : t.PausedMeansStopped k := by
  unfold execSpgPause at h
  obtain ⟨S, -, -, h⟩ := withInitialised_eq_next.mp h
  obtain ⟨a, ha, h⟩ := Res.andThen_eq_next.mp h
  rw [done_eq_next.mp h]
  exact pausedMeansStopped_of_stop ha

theorem execSpgResume_pausedMeansStopped (h : execSpgResume k s = .next t) (hs : s.PausedMeansStopped k) :
    t.PausedMeansStopped k := by
  unfold execSpgResume at h
  obtain ⟨S, -, -, h⟩ := withInitialised_eq_next.mp h
  split at h
  · obtain ⟨a, -, h⟩ := Res.andThen_eq_next.mp h
    obtain ⟨b, hb, h⟩ := Res.andThen_eq_next.mp h
    rw [done_eq_next.mp h]
    exact pausedMeansStopped_of_start hb
  · exact hs.of_flags (done_flags h k)

/-- A command on generator k keeps what R48 says of it. -/
theorem exec_on_generator_pausedMeansStopped {i : Instr} (hi : i.generator = some k)
    (hp : s.params.stopClearsPaused = true) (h : exec i s = .next t) (hs : s.PausedMeansStopped k) :
    t.PausedMeansStopped k := by
  cases i <;> simp only [Instr.generator, Option.some.injEq, reduceCtorEq] at hi <;> subst hi
  case spgConstruct => exact execSpgConstruct_pausedMeansStopped h
  case spgInit => exact execSpgInit_pausedMeansStopped h
  case spgStep => exact execSpgStep_pausedMeansStopped h hs
  case spgStepP => exact execSpgStepP_pausedMeansStopped h hs
  case spgSetPeriod => exact execSpgSetPeriod_pausedMeansStopped h hs
  case spgStop => exact execSpgStop_pausedMeansStopped hp h
  case spgPause => exact execSpgPause_pausedMeansStopped h
  case spgResume => exact execSpgResume_pausedMeansStopped h hs
  case spgIsStepping | spgIsStopped | spgIsPaused | spgGetRemainingSteps =>
    obtain ⟨S, -, -, h⟩ := withInitialised_eq_next.mp h
    exact hs.of_flags (done_flags h _)

/-- A PinGroup or system command touches neither the timer's running state nor a generator. -/
theorem exec_group_flags {i : Instr} (hi : i.generator = none) (h : exec i s = .next t) (k : Index) :
    t.flags k = s.flags k := by
  rcases exec_group_eq_next hi h with ⟨g, first, rest, -, -, rfl⟩ | ⟨-, rfl⟩ | ⟨-, rfl⟩ | ⟨n, v, rfl⟩ |
    ⟨u, m, hu, rfl, -⟩
  · rfl
  · rfl
  · rfl
  · rfl
  · exact hu.flags k

/-! ## The one constructed generator -/

/-- A completed generator command but `SPG_CONSTRUCT` has found its generator constructed (R160). -/
theorem gen_isSome_before_exec {i : Instr} {j : Index} (hi : i.generator = some j)
    (hc : ∀ d p, i ≠ .spgConstruct j d p) (h : exec i s = .next t) : (s.gen j).isSome = true := by
  cases i <;> simp only [Instr.generator, Option.some.injEq, reduceCtorEq] at hi <;> subst hi
  case spgConstruct d p => exact absurd rfl (hc d p)
  case spgInit =>
    obtain ⟨S, hS, -⟩ := withSpg_eq_next.mp h
    exact Option.isSome_of_mem hS
  all_goals
    obtain ⟨S, hS, -⟩ := withInitialised_eq_next.mp h
    exact Option.isSome_of_mem hS

/-- A completed generator command leaves its generator constructed. -/
theorem gen_isSome_after_exec {i : Instr} {j : Index} (hi : i.generator = some j) (h : exec i s = .next t) :
    (t.gen j).isSome = true := by
  by_cases hc : ∀ d p, i ≠ .spgConstruct j d p
  · obtain ⟨u, v, hparts, rfl⟩ := exec_parts hi hc h
    rw [answered_gen, hparts.kept.gen_isSome]
    exact gen_isSome_before_exec hi hc h
  · push Not at hc
    obtain ⟨d, p, rfl⟩ := hc
    obtain ⟨-, u, n, hcut, rfl⟩ := exec_spgConstruct_eq_next h
    rw [answered_gen, setBound_gen, (hcut.kept j []).gen_isSome]
    exact (putGen_isSome ..).mpr (.inl rfl)

/-- Where k is the one constructed generator, every completed command keeps what R48 says of it. -/
theorem exec_pausedMeansStopped {i : Instr} (hp : s.params.stopClearsPaused = true) (hk : t.OnlyGenerator k)
    (h : exec i s = .next t) (hs : s.PausedMeansStopped k) : t.PausedMeansStopped k := by
  cases hi : i.generator with
  | none => exact hs.of_flags (exec_group_flags hi h k)
  | some j =>
    have hjk : j = k := by
      by_contra hne
      have hsome := gen_isSome_after_exec hi h
      simp [hk j hne] at hsome
    exact exec_on_generator_pausedMeansStopped (hjk ▸ hi) hp h hs

end

end Sys2Proof.Machine.State

namespace Sys2Proof.Machine

/-- Settles O59: events and an ILLEGAL command's answer leave the two flags alone, and a command on another generator
would leave a second one constructed. -/
theorem pausedStaysStopped : Obligations.PausedStaysStopped := by
  intro s t k _ hp hk hs h
  rcases step_eq_next h with ⟨n, hcut, -⟩ | ⟨-, w0, operands, rest, -, rfl⟩ | ⟨-, w0, operands, rest, i, -, -, -, hexec⟩
  · exact hs.of_flags (hcut.flags k)
  · exact hs.of_flags rfl
  · have hfetch : (s.afterFetch rest).PausedMeansStopped k := hs.of_flags rfl
    exact State.exec_pausedMeansStopped (s := s.afterFetch rest) hp hk hexec hfetch

end Sys2Proof.Machine
end

section
/-! PROOF. Repeated writes, and writes of what is there (20_memory.md R67). -/

namespace Sys2Proof.Machine.Memory

section
variable {m : Memory} (h : m.wf = true) (a : Addr)
include h

/-- Of two writes to one register the later stands. -/
theorem write_write_same (u v : Byte) : (m.write a u).write a v = m.write a v := by
  refine canonicalMemoriesAreEqual _ _ (wf_write (wf_write h a u) a v) (wf_write h a v) fun b => ?_
  by_cases hb : b = a
  · rw [hb, read_write_same, read_write_same]
  · rw [read_write_other _ v hb, read_write_other _ u hb, read_write_other _ v hb]

/-- Writing a register's own content changes nothing. -/
theorem write_read_same : m.write a (m.read a) = m := by
  refine canonicalMemoriesAreEqual _ _ (wf_write h a _) h fun b => ?_
  by_cases hb : b = a
  · rw [hb, read_write_same]
  · exact read_write_other m _ hb

end

/-- Settles O12: both memories are canonical and read alike everywhere, so they are the same data. -/
theorem repeatedWriteChangesNothing : Obligations.RepeatedWriteChangesNothing :=
  fun _ a v h => ⟨write_write_same h a v v, write_read_same h a⟩

end Sys2Proof.Machine.Memory
end

section
/-! PROOF. What a whole command leaves unchanged: the interrupt enable, and the registers outside its row
(20_memory.md R71, R81; 70_reset_and_hazards.md R255, R268). -/

namespace Sys2Proof.Machine.State

section
variable {s t u : State} {i : Instr} {a : Addr}

/-- Bits kept but for the handler's are the whole register, where no handler run writes it. -/
theorem BitsKept.read_eq (h : s.BitsKept t a fun _ => False) (hw : ¬s.HandlerWrites a) :
    t.mem.read a = s.mem.read a :=
  BitVec.eq_of_getLsbD_eq fun k _ => h k id fun ⟨b, B, hb, hB, ha, _⟩ => hw ⟨b, B, hb, hB, ha⟩

/-- Events after a construction write only what they could write before it: the new generator's counter is 0, so that
its handler, were it the target, does nothing (R173, R181). -/
theorem Cut.bitsKept_of_putGen {k : Index} {d p : PinNo} {n : Nat}
    (c : Cut (s.putGen k (Generator.build s.params d p)) u n) (a : Addr) : s.BitsKept u a fun _ => False := by
  intro x _ hw
  refine c.bit a x fun b B hb hB hstep ⟨haddr, hbit⟩ => ?_
  rw [putGen_gen] at hB
  split at hB
  · obtain rfl := Option.some.inj hB
    exact absurd hstep (show ¬isStepping 0 = true by decide)
  · exact hw ⟨b, B, hb, hB, haddr, hbit⟩

/-- A completed command keeps the bits of the registers that are not its own, but for the handler's. -/
theorem exec_bitsKept (h : exec i s = .next t) (ha : a ∉ s.registersWritten i) : s.BitsKept t a fun _ => False := by
  rcases i.generator_cases with hi | ⟨k, d, p, rfl⟩ | ⟨k, hi, hc⟩
  · rcases exec_group_eq_next hi h with ⟨g, first, rest, -, -, rfl⟩ | ⟨-, rfl⟩ | ⟨-, rfl⟩ | ⟨n, v, rfl⟩ |
      ⟨u, m, hu, rfl, -, hread⟩
    · exact fun _ _ _ => rfl
    · exact fun _ _ _ => rfl
    · exact fun _ _ _ => rfl
    · exact fun _ _ _ => rfl
    · exact (hu.kept 0 hread).bits a ha
  · obtain ⟨-, u, n, hcut, rfl⟩ := exec_spgConstruct_eq_next h
    exact hcut.bitsKept_of_putGen a
  · obtain ⟨u, v, hparts, rfl⟩ := exec_parts hi hc h
    exact hparts.kept.bits a ha

end

/-- Settles O14: a critical section restores `IE` and a handler run sets it back, so that every piece of a command keeps
it, and only the two system commands write it themselves. -/
theorem interruptEnableIsRestored : Obligations.InterruptEnableIsRestored := by
  intro i s t hdisable henable h
  rcases i.generator_cases with hi | ⟨k, d, p, rfl⟩ | ⟨k, hi, hc⟩
  · rcases exec_group_eq_next hi h with ⟨g, first, rest, -, -, rfl⟩ | ⟨hi, -⟩ | ⟨hi, -⟩ | ⟨n, v, rfl⟩ |
      ⟨u, m, hu, rfl, -⟩
    · rfl
    · exact absurd hi hdisable
    · exact absurd hi henable
    · rfl
    · exact hu.ie
  · obtain ⟨-, u, n, hcut, rfl⟩ := exec_spgConstruct_eq_next h
    exact hcut.ie
  · obtain ⟨u, v, hparts, rfl⟩ := exec_parts hi hc h
    exact hparts.kept.ie

/-- Settles O17: the register's bits are kept but for the handler's, and where that is none the register is. -/
theorem commandsWriteOnlyTheirRegisters : Obligations.CommandsWriteOnlyTheirRegisters := by
  intro i s t a h ha
  have hbits := exec_bitsKept h ha
  exact ⟨hbits, hbits.read_eq⟩

end Sys2Proof.Machine.State
end

section
/-! PROOF. Length, round trip and refusals of the encoding (30_encoding.md R90 to R111, V1). -/

namespace Sys2Proof

/-- Settles O2: the command's words are fetched whole and decode to it. -/
theorem decodeEncodeRoundTrip : Obligations.DecodeEncodeRoundTrip := by
  intro i rest hw
  obtain ⟨w0, operands, hf, hd⟩ := fetch_encode_append hw rest
  unfold decode
  simp only [hf, hd]

/-- Settles O1: each line is one run of the decoder. -/
theorem specWordsDecode : Obligations.SpecWordsDecode := ⟨rfl, rfl, rfl, rfl, rfl, rfl, rfl, rfl, rfl⟩

theorem commandLength_eq_ite (w0 : Word) : commandLength w0 =
    if opcodeOf w0 = 0x00 ∨ opcodeOf w0 = 0x83 then 3 else if opcodeOf w0 = 0x82 ∨ opcodeOf w0 = 0x84 then 2 else 1 := by
  unfold commandLength
  split <;> simp_all [BitVec.toNat_eq]

/-- Settles O4: the length's own case split, and the fetch of a word with its operand words. -/
theorem commandLengthFromOpcode : Obligations.CommandLengthFromOpcode :=
  ⟨commandLength_eq_ite, fun _ _ rest h => fetch_cons_append rest h⟩

/-- R105: the bound is one more than the greatest index that exists, so that the model's separate test of index 0 adds
none. -/
theorem index_exists_iff (k last : Index) : (k == 0 || decide (k ≤ last)) = true ↔ k.val < last.val + 1 := by
  rw [Bool.or_eq_true, beq_iff_eq, decide_eq_true_eq, Fin.le_def, Fin.ext_iff, Fin.val_zero]
  omega

theorem Params.hasGroup_iff (p : Params) (g : Index) : p.hasGroup g = true ↔ g.val < p.nGroups :=
  index_exists_iff g p.lastGroup

theorem Params.hasSpg_iff (p : Params) (k : Index) : p.hasSpg k = true ↔ k.val < p.nSpg :=
  index_exists_iff k p.lastSpg

/-- The decoder answers with a command or with an error. -/
theorem exists_error_of_forall_ne_ok {w0 : Word} {operands : List Word}
    (h : ∀ i, decodeCommand w0 operands ≠ .ok i) : ∃ e, decodeCommand w0 operands = .error e := by
  cases hd : decodeCommand w0 operands with
  | error e => exact ⟨e, rfl⟩
  | ok i => exact absurd hd (h i)

/-- A decoded command has `rsvd = 0`, and its opcode has selected it (R91, R108). -/
theorem decodeCommand_eq_ok {w0 : Word} {operands : List Word} {i : Instr} :
    decodeCommand w0 operands = .ok i ↔ rsvdOf w0 = 0 ∧ decodeOpcode w0 operands = .ok i := by
  unfold decodeCommand
  split_ifs with h
  · simp only [h, true_and]
  · simp only [h, false_and]

/-! ## What the formats that accept have checked -/

/-- The immediate's bits from bit n on are 0 exactly when the mask of those bits finds none set. -/
theorem immOf_and_eq_zero {w : Word} {n len : Nat} (hn : n + len = 16) (h : w.extractLsb' n len = 0) :
    immOf w &&& (BitVec.allOnes 16 <<< n) = 0 := by
  apply BitVec.eq_of_getLsbD_eq
  intro k hk
  have hbit := congrArg (fun x : BitVec len => x.getLsbD (k - n)) h
  simp only [BitVec.getLsbD_extractLsb'] at hbit
  by_cases hkn : k < n
  · simp [hkn]
  · rw [Nat.add_sub_cancel' (by omega), decide_eq_true (by omega), Bool.true_and] at hbit
    simp [immOf, hbit]

theorem formatZ_imm {w0 : Word} {i j : Instr} (h : formatZ w0 i = .ok j) : immOf w0 &&& 0xFFFF = 0 := by
  unfold formatZ at h
  split at h
  · exact immOf_and_eq_zero (n := 0) rfl ‹_›
  · cases h

theorem formatV_imm {w0 : Word} {i : Bool → Instr} {j : Instr} (h : formatV w0 i = .ok j) :
    immOf w0 &&& 0xFFFE = 0 := by
  unfold formatV at h
  split at h
  · exact immOf_and_eq_zero (n := 1) rfl ‹_›
  · cases h

theorem formatM_imm {w0 : Word} {i : Bool → Bool → Instr} {j : Instr} (h : formatM w0 i = .ok j) :
    immOf w0 &&& 0xFFFC = 0 := by
  unfold formatM at h
  split at h
  · exact immOf_and_eq_zero (n := 2) rfl ‹_›
  · cases h

theorem formatS_imm {w0 : Word} {operands : List Word} {i : Bool → Word → Instr} {j : Instr}
    (h : formatS w0 operands i = .ok j) : immOf w0 &&& 0xFFFE = 0 := by
  unfold formatS at h
  split at h
  · exact formatV_imm h
  · cases h

theorem formatSP_imm {w0 : Word} {operands : List Word} {i : Bool → Word → Word → Instr} {j : Instr}
    (h : formatSP w0 operands i = .ok j) : immOf w0 &&& 0xFFFE = 0 := by
  unfold formatSP at h
  split at h
  · exact formatV_imm h
  · cases h

theorem formatT_imm {w0 : Word} {operands : List Word} {i : Word → Instr} {j : Instr}
    (h : formatT w0 operands i = .ok j) : immOf w0 &&& 0xFFFF = 0 := by
  unfold formatT at h
  split at h
  · exact formatZ_imm h
  · cases h

theorem formatSystem_fields {w0 : Word} {i j : Instr} (h : formatSystem w0 i = .ok j) :
    instOf w0 = 0 ∧ immOf w0 &&& 0xFFFF = 0 := by
  unfold formatSystem at h
  split at h
  · exact ⟨‹_›, formatZ_imm h⟩
  · cases h

/-- R96, R112: the immediate above n is 0, n is in 1..8, and every slot from n on is 0. -/
theorem formatG_fields {w0 : Word} {operands : List Word} {i : PinNo → List PinNo → Instr} {j : Instr}
    (h : formatG w0 operands i = .ok j) : immOf w0 &&& 0xFFF0 = 0 ∧ (w0.extractLsb' 0 4).toNat ≠ 0 ∧
      (w0.extractLsb' 0 4).toNat ≤ maxPins ∧
      ∀ p ∈ (operands.flatMap pinSlots).drop (w0.extractLsb' 0 4).toNat, p = 0 := by
  simp only [formatG] at h
  split_ifs at h with himm hmax hslots
  split at h
  · cases h
  · next first rest hpins =>
    refine ⟨immOf_and_eq_zero (n := 4) rfl (not_not.mp himm), fun h0 => ?_, not_lt.mp hmax, by simpa using hslots⟩
    rw [h0, List.take_zero] at hpins
    cases hpins

/-! ## Bad pin lists, and system commands with `inst` not 0 -/

/-- Slot k of a pin list is bits 8k+7..8k of its operand words, `W1` the lower half (R96). -/
theorem flatMap_pinSlots_eq (w1 w2 : Word) :
    [w1, w2].flatMap pinSlots = (List.range 8).map fun k => (w2 ++ w1).extractLsb' (8 * k) 8 := by
  have lower : ∀ k ∈ List.range 4, w1.extractLsb' (8 * k) 8 = (w2 ++ w1).extractLsb' (8 * k) 8 := fun k hk =>
    (BitVec.extractLsb'_append_eq_of_add_le (by rw [List.mem_range] at hk; omega)).symm
  have upper : ∀ k ∈ List.range 4, w2.extractLsb' (8 * k) 8 = (w2 ++ w1).extractLsb' (8 * (4 + k)) 8 := fun k _ => by
    rw [BitVec.extractLsb'_append_eq_of_le (by omega), Nat.mul_add, Nat.add_sub_cancel_left]
  rw [show List.range 8 = List.range 4 ++ (List.range 4).map (4 + ·) from rfl, List.map_append, List.map_map]
  exact congrArg₂ (· ++ ·) (List.map_congr_left lower) (List.map_congr_left upper)

/-- Settles O5: format G accepts no such list. -/
theorem badPinListDecodesToNothing : Obligations.BadPinListDecodesToNothing := by
  intro w0 w1 w2 hop hbad
  refine exists_error_of_forall_ne_ok fun i hd => ?_
  have hG := (decodeCommand_eq_ok.mp hd).2
  rw [decodeOpcode, hop] at hG
  obtain ⟨-, hpos, hmax, hslots⟩ := formatG_fields hG
  rcases hbad with h0 | h8 | ⟨k, hk, hk8, hslot⟩
  · exact hpos h0
  · exact absurd h8 (not_lt.mpr hmax)
  · refine hslot (hslots _ ?_)
    rw [flatMap_pinSlots_eq, ← List.map_drop]
    refine List.mem_map_of_mem (List.mem_drop_iff_getElem.mpr ⟨k - (w0.extractLsb' 0 4).toNat, ?_, ?_⟩)
    · rw [List.length_range]; omega
    · rw [List.getElem_range]; omega

/-- R111: a decoded system command has `inst = 0`. -/
theorem instOf_of_system {w0 : Word} {operands : List Word} {i : Instr} (hd : decodeCommand w0 operands = .ok i)
    (hop : opcodeOf w0 = 0xF0 ∨ opcodeOf w0 = 0xF1) : instOf w0 = 0 := by
  have hS := (decodeCommand_eq_ok.mp hd).2
  rcases hop with hop | hop <;>
  · rw [decodeOpcode, hop] at hS
    exact (formatSystem_fields hS).1

/-- Settles O6: the two bounds as written, and the system formats' check of `inst`. -/
theorem instanceIndexBounds : Obligations.InstanceIndexBounds :=
  ⟨Params.hasGroup_iff, Params.hasSpg_iff, fun _ _ hop hinst =>
    exists_error_of_forall_ne_ok fun _ hd => hinst (instOf_of_system hd hop)⟩

end Sys2Proof
end

section
/-! PROOF. A decoded word selects the row of its command and no other (30_encoding.md R109 to R111). -/

namespace Sys2Proof

/-- A word is its four fields (R91). -/
theorem fields_append (w : Word) : opcodeOf w ++ w.extractLsb' 20 4 ++ rsvdOf w ++ immOf w = w := by
  unfold opcodeOf rsvdOf immOf
  simp only [BitVec.extractLsb'_append_extractLsb'_eq_extractLsb', BitVec.extractLsb'_eq_self]

theorem word_eq_iff (w v : Word) : w = v ↔ opcodeOf w = opcodeOf v ∧ rsvdOf w = rsvdOf v ∧
    w.extractLsb' 20 4 = v.extractLsb' 20 4 ∧ immOf w = immOf v := by
  refine ⟨fun h => h ▸ ⟨rfl, rfl, rfl, rfl⟩, fun ⟨hop, hrsvd, hinst, himm⟩ => ?_⟩
  rw [← fields_append w, ← fields_append v, hop, hrsvd, hinst, himm]

/-- Every row fixes the whole opcode, and `rsvd` and what it fixes of `inst` and `imm` at 0. -/
theorem opcodeRows_fixed : ∀ r ∈ opcodeRows, opcodeOf r.mask = 0xFF ∧ rsvdOf r.mask = 0xF ∧
    rsvdOf r.pattern = 0 ∧ r.pattern.extractLsb' 20 4 = 0 ∧ immOf r.pattern = 0 := by decide

/-- What selecting a row of the table means, field by field. -/
theorem selects_iff {r : OpcodeRow} (hr : r ∈ opcodeRows) (w : Word) : r.selects w = true ↔
    opcodeOf w = opcodeOf r.pattern ∧ rsvdOf w = 0 ∧ w.extractLsb' 20 4 &&& r.mask.extractLsb' 20 4 = 0 ∧
      immOf w &&& immOf r.mask = 0 := by
  obtain ⟨hop, hrsvd, hprsvd, hpinst, hpimm⟩ := opcodeRows_fixed r hr
  rw [OpcodeRow.selects, beq_iff_eq, word_eq_iff, hprsvd, hpinst, hpimm]
  unfold opcodeOf rsvdOf immOf at *
  simp only [BitVec.extractLsb'_and, hop, hrsvd]
  rw [show (0xFF : Byte) = BitVec.allOnes 8 from rfl, show (0xF : BitVec 4) = BitVec.allOnes 4 from rfl,
    BitVec.and_allOnes, BitVec.and_allOnes]

/-- The opcodes of the rows differ, so that a word selects at most one of them. -/
theorem eq_of_selects {r r' : OpcodeRow} {w : Word} (hr : r ∈ opcodeRows) (hr' : r' ∈ opcodeRows)
    (h : r.selects w = true) (h' : r'.selects w = true) : r = r' := by
  have hnodup : (opcodeRows.map fun r => opcodeOf r.pattern).Nodup := by decide
  exact List.inj_on_of_nodup_map hnodup hr hr' (((selects_iff hr w).mp h).1.symm.trans ((selects_iff hr' w).mp h').1)

/-- The row of an opcode, none where the tables have none. -/
def rowAt (op : Nat) : Option OpcodeRow := opcodeRows.find? fun r => (opcodeOf r.pattern).toNat == op

theorem mem_of_rowAt {w : Word} {r : OpcodeRow} (h : rowAt (opcodeOf w).toNat = some r) :
    r ∈ opcodeRows ∧ opcodeOf w = opcodeOf r.pattern := by
  unfold rowAt at h
  have hcode := List.find?_some h
  exact ⟨List.mem_of_find?_eq_some h, (BitVec.eq_of_toNat_eq (beq_iff_eq.mp hcode)).symm⟩

/-- The operation an opcode selects is that of the opcode's row, and its format has checked the bits of `inst` and `imm`
that the row fixes. -/
theorem decodeOpcode_rowAt {w0 : Word} {operands : List Word} {i : Instr} (h : decodeOpcode w0 operands = .ok i) :
    ∃ r, rowAt (opcodeOf w0).toNat = some r ∧ w0.extractLsb' 20 4 &&& r.mask.extractLsb' 20 4 = 0 ∧
      immOf w0 &&& immOf r.mask = 0 ∧ r.mnemonic = i.mnemonic := by
  unfold decodeOpcode at h
  split at h
  case h_1 hop =>
    obtain ⟨_, _, -, rfl⟩ := formatG_ok h
    exact ⟨_, (congrArg rowAt hop).trans rfl, BitVec.and_zero, (formatG_fields h).1, rfl⟩
  case h_6 hop | h_7 hop | h_9 hop | h_10 hop =>
    obtain ⟨_, rfl⟩ := formatV_ok h
    exact ⟨_, (congrArg rowAt hop).trans rfl, BitVec.and_zero, formatV_imm h, rfl⟩
  case h_8 hop =>
    obtain ⟨_, _, rfl⟩ := formatM_ok h
    exact ⟨_, (congrArg rowAt hop).trans rfl, BitVec.and_zero, formatM_imm h, rfl⟩
  case h_17 hop =>
    obtain ⟨_, _, rfl⟩ := formatP_ok h
    exact ⟨_, (congrArg rowAt hop).trans rfl, BitVec.and_zero, BitVec.and_zero, rfl⟩
  case h_19 hop =>
    obtain ⟨_, _, rfl⟩ := formatS_ok h
    exact ⟨_, (congrArg rowAt hop).trans rfl, BitVec.and_zero, formatS_imm h, rfl⟩
  case h_20 hop =>
    obtain ⟨_, _, _, rfl⟩ := formatSP_ok h
    exact ⟨_, (congrArg rowAt hop).trans rfl, BitVec.and_zero, formatSP_imm h, rfl⟩
  case h_21 hop =>
    obtain ⟨_, rfl⟩ := formatT_ok h
    exact ⟨_, (congrArg rowAt hop).trans rfl, BitVec.and_zero, formatT_imm h, rfl⟩
  case h_29 hop | h_30 hop =>
    obtain rfl := formatSystem_ok h
    obtain ⟨hinst, himm⟩ := formatSystem_fields h
    have hzero : w0.extractLsb' 20 4 = 0 := congrArg BitVec.ofFin hinst
    exact ⟨_, (congrArg rowAt hop).trans rfl, by rw [hzero]; exact BitVec.zero_and, himm, rfl⟩
  case h_31 => cases h
  all_goals
    next hop =>
    obtain rfl := formatZ_ok h
    exact ⟨_, (congrArg rowAt hop).trans rfl, BitVec.and_zero, formatZ_imm h, rfl⟩

/-- A decoded word selects the row of its command. -/
theorem exists_selects_of_decodeCommand {w0 : Word} {operands : List Word} {i : Instr}
    (h : decodeCommand w0 operands = .ok i) :
    ∃ r ∈ opcodeRows, r.selects w0 = true ∧ r.mnemonic = i.mnemonic := by
  obtain ⟨hrsvd, hop⟩ := decodeCommand_eq_ok.mp h
  obtain ⟨r, hrow, hinst, himm, hname⟩ := decodeOpcode_rowAt hop
  obtain ⟨hmem, hcode⟩ := mem_of_rowAt hrow
  exact ⟨r, hmem, (selects_iff hmem w0).mpr ⟨hcode, hrsvd, hinst, himm⟩, hname⟩

/-- Settles O3: the row of the word's opcode is selected, and two rows of one opcode are one. -/
theorem decodedWordSelectsExactlyItsRow : Obligations.DecodedWordSelectsExactlyItsRow := by
  intro w0 operands i h
  obtain ⟨r, hmem, hsel, hname⟩ := exists_selects_of_decodeCommand h
  exact ⟨decodeCommand_wellFormed h, r, hmem, hsel, hname, fun r' hmem' hsel' => eq_of_selects hmem' hmem hsel' hsel⟩

end Sys2Proof
end

section
/-! PROOF. An ILLEGAL command only answers (30_encoding.md R100, R105, R113). -/

namespace Sys2Proof.Machine

/-- A fetched command that decodes to nothing, or that does not exist, is ILLEGAL with its words used up. -/
theorem runMain_of_illegal {s : State} {w0 : Word} {operands rest : List Word}
    (hf : fetch s.cmds = .command w0 operands rest)
    (h : ∀ i, decodeCommand w0 operands = .ok i → i.present s.params = false) :
    runMain s = .next (s.setCmds rest).illegal := by
  unfold runMain
  simp only [hf]
  split
  · rfl
  · next i hd => simp [h i hd]

/-- Settles O9: for each of the three reasons no command that exists is decoded; a word that selects no row decodes to
nothing, since a decoded word selects its own. -/
theorem illegalCommandOnlyAnswers : Obligations.IllegalCommandOnlyAnswers := by
  intro s w0 operands rest hm hf hreason
  rw [step_of_mainsTurn hm]
  refine runMain_of_illegal (s := s.setSched s.sched.tail) hf fun i hd => ?_
  rcases hreason with hrow | ⟨e, he⟩ | ⟨j, hj, habsent⟩
  · obtain ⟨r, hmem, hsel, -⟩ := exists_selects_of_decodeCommand hd
    exact absurd hsel (by simp [hrow r hmem])
  · cases hd.symm.trans he
  · obtain rfl := Except.ok.inj (hd.symm.trans hj)
    exact habsent

end Sys2Proof.Machine
end

section
/-! PROOF. The three-way classification, and the masked updates it reads back (40_pingroup.md R121, R127, R139). -/

namespace Sys2Proof.Machine

section
variable {r m : Byte}

theorem and_eq_right_iff_bits : r &&& m = m ↔ ∀ k, k < 8 → m.getLsbD k = true → r.getLsbD k = true := by
  rw [BitVec.eq_of_getLsbD_eq_iff]
  refine forall₂_congr fun k _ => ?_
  rw [BitVec.getLsbD_and]
  cases r.getLsbD k <;> cases m.getLsbD k <;> decide

theorem and_eq_zero_iff_bits : r &&& m = 0 ↔ ∀ k, k < 8 → m.getLsbD k = true → r.getLsbD k = false := by
  rw [BitVec.eq_of_getLsbD_eq_iff]
  refine forall₂_congr fun k _ => ?_
  rw [BitVec.getLsbD_and, BitVec.ofNat_eq_ofNat, BitVec.getLsbD_zero]
  cases r.getLsbD k <;> cases m.getLsbD k <;> decide

theorem classify_eq_allHigh : classify r m = .allHigh ↔ r &&& m = m := by
  unfold classify
  split_ifs with hhigh hlow
  · exact iff_of_true rfl hhigh
  · exact iff_of_false nofun hhigh
  · exact iff_of_false nofun hhigh

/-- With an empty mask a group would be all-high and all-low at once. -/
theorem classify_eq_allLow (hm : m ≠ 0) : classify r m = .allLow ↔ r &&& m = 0 := by
  unfold classify
  split_ifs with hhigh hlow
  · exact iff_of_false nofun fun hzero => hm (hhigh.symm.trans hzero)
  · exact iff_of_true rfl hlow
  · exact iff_of_false nofun hlow

theorem classify_eq_mixed : classify r m = .mixed ↔ r &&& m ≠ m ∧ r &&& m ≠ 0 := by
  unfold classify
  split_ifs with hhigh hlow
  · exact iff_of_false nofun fun h => h.1 hhigh
  · exact iff_of_false nofun fun h => h.2 hlow
  · exact iff_of_true rfl ⟨hhigh, hlow⟩

/-- Bits of r outside m never matter. -/
theorem classify_congr {r' : Byte} (h : r &&& m = r' &&& m) : classify r' m = classify r m := by
  unfold classify
  rw [h]

/-- One masked bit is set or clear, never mixed. -/
theorem classify_twoPow_ne_mixed (r : Byte) (k : Nat) : classify r (BitVec.twoPow 8 k) ≠ .mixed := by
  rw [Ne, classify_eq_mixed, BitVec.and_twoPow]
  rintro ⟨hhigh, hlow⟩
  cases hbit : r.getLsbD k <;> simp [hbit] at hhigh hlow

end

/-- Settles O18: the three tests of `classify`, read bit by bit. -/
theorem classifyIsThreeWay : Obligations.ClassifyIsThreeWay := fun r _ hm =>
  ⟨classify_eq_allHigh.trans and_eq_right_iff_bits, (classify_eq_allLow hm).trans and_eq_zero_iff_bits,
    classify_eq_mixed, fun _ => classify_congr, fun k hk => hk ▸ classify_twoPow_ne_mixed r k.val⟩

/-! ## What an update leaves -/

section
variable (m inv t : Byte)

/-- Inverting masked bits twice restores them. -/
theorem toggleBits_toggleBits : toggleBits m (toggleBits m t) = t := by
  rw [toggleBits, toggleBits, BitVec.xor_assoc, BitVec.xor_self, BitVec.xor_zero]

theorem setBits_and_compl : setBits m t &&& ~~~m = t &&& ~~~m := by
  rw [setBits, BitVec.and_or_distrib_right, BitVec.and_not_self, BitVec.ofNat_eq_ofNat, BitVec.or_zero]

theorem clearBits_and_compl : clearBits (~~~m) t &&& ~~~m = t &&& ~~~m := by
  rw [clearBits, BitVec.and_assoc, BitVec.and_self]

theorem toggleBits_and : toggleBits m t &&& inv = (t &&& inv) ^^^ (m &&& inv) := by
  refine BitVec.eq_of_getLsbD_eq fun k _ => ?_
  simp only [toggleBits, BitVec.getLsbD_and, BitVec.getLsbD_xor, Bool.and_xor_distrib_right]

theorem toggleBits_and_compl : toggleBits m t &&& ~~~m = t &&& ~~~m := by
  rw [toggleBits_and, BitVec.and_not_self, BitVec.ofNat_eq_ofNat, BitVec.xor_zero]

theorem driveBits_and_compl (v : Bool) : driveBits v m (~~~m) t &&& ~~~m = t &&& ~~~m := by
  cases v
  · exact clearBits_and_compl m t
  · exact setBits_and_compl m t

/-- Setting the masked bits makes the group all-high. -/
theorem classify_setBits : classify (setBits m t) m = .allHigh := by
  rw [classify_eq_allHigh, and_eq_right_iff_bits]
  intro k _ hk
  rw [setBits, BitVec.getLsbD_or, hk, Bool.or_true]

/-- Clearing them makes it all-low. -/
theorem classify_clearBits (hm : m ≠ 0) : classify (clearBits (~~~m) t) m = .allLow := by
  rw [classify_eq_allLow hm, clearBits, BitVec.and_assoc, BitVec.not_and_self]
  exact BitVec.and_zero

/-- Driving the masked bits to v makes the group uniform at v. -/
theorem classify_driveBits (hm : m ≠ 0) (v : Bool) :
    classify (driveBits v m (~~~m) t) m = if v then .allHigh else .allLow := by
  cases v
  · exact classify_clearBits m t hm
  · exact classify_setBits m t

/-- Inverting the masked bits exchanges the two uniform outcomes, so that a mixed group stays mixed. -/
theorem classify_toggleBits_of_mixed (h : classify t m = .mixed) : classify (toggleBits m t) m = .mixed := by
  rw [classify_eq_mixed] at h ⊢
  obtain ⟨hhigh, hlow⟩ := h
  rw [toggleBits_and, BitVec.and_self]
  refine ⟨fun e => hlow ?_, fun e => hhigh (BitVec.xor_eq_zero_iff.mp e)⟩
  rwa [← BitVec.xor_left_inj m, BitVec.ofNat_eq_ofNat, BitVec.zero_xor]

end

end Sys2Proof.Machine
end

section
/-! PROOF. The PinGroup commands that write no register: refusals, `PG_ISVALID`, the classified reads and the equality
operators (40_pingroup.md R120, R122 to R126, R128, R129). -/

namespace Sys2Proof.Machine

namespace State

section
variable {s t : State} {g : Index} {G : PinGroup}

theorem withGroup_some (h : s.group g = some G) (k : PinGroup → Res) : s.withGroup g k = k G := by
  simp [withGroup, h]

theorem withGroup_none (h : s.group g = none) (k : PinGroup → Res) : s.withGroup g k = .refused .notConstructed := by
  simp [withGroup, h]

theorem withValidGroup_invalid (h : s.group g = some G) (hv : G.valid = false) (k : PinGroup → Res) :
    s.withValidGroup g k = .refused .invalidGroup := by
  simp [withValidGroup, withGroup_some h, hv]

/-- A command that has completed on a known group has found it valid and run its body on it. -/
theorem withValidGroup_some_eq_next (hG : s.group g = some G) {k : PinGroup → Res}
    (h : s.withValidGroup g k = .next t) : k G = .next t := by
  obtain ⟨G', hG', -, hk⟩ := withValidGroup_eq_next.mp h
  obtain rfl := Option.some.inj (hG.symm.trans hG')
  exact hk

theorem readValue_next {a : Addr} (h : s.params.isValueReg a = true) (k : Byte → State → Res) :
    s.readValue a k = k (Config.valueDraw a s.draws) (s.setDraws (s.draws + 1)) := if_pos h

/-- With `EQ_SOURCE = STATE` the equality operators classify the STATE register. -/
theorem readForEquality_state (he : s.params.eqSource = .state) (k : ReadOutcome → State → Res) :
    s.readForEquality G k = s.readReg G.stateAddr fun r => k (classify r G.offset) s := by
  simp [readForEquality, he]

/-- With `EQ_SOURCE = VALUE` they classify the VALUE register. -/
theorem readForEquality_value (he : s.params.eqSource = .value) (k : ReadOutcome → State → Res) :
    s.readForEquality G k = s.readValue G.valueAddr fun r u => k (classify r G.offset) u := by
  simp [readForEquality, he]

end

end State

open State

/-- A command that needs a valid group does all it does behind the test for one. -/
theorem exec_eq_withValidGroup {i : Instr} {g : Index} (h : i.needsValidGroup = some g) (s : State) :
    ∃ k, exec i s = s.withValidGroup g k := by
  cases i <;> cases h <;> exact ⟨_, rfl⟩

/-- Settles O20: the test of the group, and the one of the construct command, come before everything else. -/
theorem unusableGroupIsRefused : Obligations.UnusableGroupIsRefused := by
  refine ⟨fun i g s hi => ?_, fun g s hG => withGroup_none hG _, fun g first rest s G hG => ?_⟩
  · obtain ⟨k, hk⟩ := exec_eq_withValidGroup hi s
    rw [hk]
    exact ⟨fun hG => withGroup_none hG _, fun G hG hv => withValidGroup_invalid hG hv k⟩
  · rw [exec, execPgConstruct, hG]

/-- Settles O21: the command answers the flag of the group it finds. -/
theorem isValidAnswersTheFlag : Obligations.IsValidAnswersTheFlag := fun _ _ _ hG => withGroup_some hG _

/-- R107: the three outcomes as the answer spells them. -/
theorem classify_result (r m : Byte) :
    (classify r m).result = if r &&& m = m then 1 else if r &&& m = 0 then 0 else 0xFFFFFFFF := by
  unfold classify
  split_ifs <;> rfl

/-- Settles O22: past the test of the group each command is one read and the answer. -/
theorem classifiedReadsAnswer : Obligations.ClassifiedReadsAnswer := by
  intro s g G hG hv
  simp only [← classify_result]
  refine ⟨fun ha => ?_, fun ha => ?_, fun ha => ?_⟩
  · exact (withValidGroup_some hG hv _).trans (readReg_next ha _)
  · exact (withValidGroup_some hG hv _).trans (readReg_next ha _)
  · exact (withValidGroup_some hG hv _).trans (readValue_next ha _)

theorem boolResult_equals (c : ReadOutcome) (v : Level) :
    boolResult (c.equals v) = if c = .allHigh ∧ v = .high ∨ c = .allLow ∧ v = .low then 1 else 0 := by
  cases c <;> cases v <;> rfl

theorem boolResult_differs (c : ReadOutcome) (v : Level) :
    boolResult (c.differs v) = if c = .allHigh ∧ v = .low ∨ c = .allLow ∧ v = .high then 1 else 0 := by
  cases c <;> cases v <;> rfl

/-- Settles O23: one read of the register `EQ_SOURCE` names, and the answer of the operator. -/
theorem equalityOperatorsAnswer : Obligations.EqualityOperatorsAnswer := by
  intro s g G v hG hv
  simp only [← boolResult_equals, ← boolResult_differs]
  have exec_eq : ∀ k, s.withValidGroup g (fun H => s.readForEquality H k) = s.readForEquality G k :=
    fun k => withValidGroup_some hG hv _
  refine ⟨fun he ha => ?_, fun he ha => ?_⟩
  · have read := fun k => (exec_eq k).trans ((readForEquality_state he k).trans (readReg_next ha _))
    exact ⟨read _, read _⟩
  · have read := fun k => (exec_eq k).trans ((readForEquality_value he k).trans (readValue_next ha _))
    exact ⟨read _, read _⟩

/-! ## The answer of a read that has completed -/

section
variable {s t : State} {g : Index} {G : PinGroup} {v : Level}

/-- A read of a storage register has answered by its content. -/
theorem result_of_readReg {a : Addr} {answer : Byte → Word} (h : (s.readReg a fun r => s.done (answer r)) = .next t) :
    t.result = answer (s.mem.read a) := by
  obtain ⟨-, hdone⟩ := readReg_eq_next.mp h
  rw [done_eq_next.mp hdone, answered_result]

theorem result_of_pgGetState (hG : s.group g = some G) (h : exec (.pgGetState g) s = .next t) :
    t.result = (classify (s.mem.read G.stateAddr) G.offset).result :=
  result_of_readReg (withValidGroup_some_eq_next hG h)

theorem result_of_pgGetMode (hG : s.group g = some G) (h : exec (.pgGetMode g) s = .next t) :
    t.result = (classify (s.mem.read G.dirAddr) G.offset).result :=
  result_of_readReg (withValidGroup_some_eq_next hG h)

theorem result_of_pgEq (hG : s.group g = some G) (he : s.params.eqSource = .state)
    (h : exec (.pgEq g v) s = .next t) :
    t.result = boolResult ((classify (s.mem.read G.stateAddr) G.offset).equals v) :=
  result_of_readReg ((readForEquality_state he _).symm.trans (withValidGroup_some_eq_next hG h))

theorem result_of_pgNe (hG : s.group g = some G) (he : s.params.eqSource = .state)
    (h : exec (.pgNe g v) s = .next t) :
    t.result = boolResult ((classify (s.mem.read G.stateAddr) G.offset).differs v) :=
  result_of_readReg ((readForEquality_state he _).symm.trans (withValidGroup_some_eq_next hG h))

end

/-- Settles O24: both operators answer by one outcome, and the table of the two has three rows. -/
theorem mixedGroupIsNeitherEqualNorDifferent : Obligations.MixedGroupIsNeitherEqualNorDifferent := by
  intro s t u g G v hG he ht hu
  rw [result_of_pgEq hG he ht, result_of_pgNe hG he hu]
  generalize classify (s.mem.read G.stateAddr) G.offset = c
  cases c <;> cases v <;> decide

end Sys2Proof.Machine
end

section
/-! PROOF. The PinGroup write commands: one indivisible update of one register, or `PG_SET`'s two (40_pingroup.md R127,
R130 to R139; 20_memory.md R70, R73, R74). -/

namespace Sys2Proof.Machine

namespace State

section
variable {s t u : State} {m : Memory}

/-- Fire events and the answer are all a masked command leaves besides the register. -/
theorem Updated.completed (h : Updated s u m) (v : Word) : s.Completed (u.answered v) v :=
  ⟨rfl, rfl, by rw [answered_cp, h.place], h.params, h.ie, h.cmds⟩

theorem Updated.instancesKept (h : Updated s u m) (v : Word) : s.InstancesKept (u.answered v) :=
  ⟨h.groups, h.spg, h.bound, h.draws, h.running, h.period, h.handler⟩

/-- A command that is one masked update updates that register (R74). -/
theorem updatesRegister_of_exec_eq {i : Instr} {a : Addr} {f : Byte → Byte} (ha : s.params.isStorage a = true)
    (hi : exec i s = (s.maskedUpdate a f).andThen (State.done 0)) : s.UpdatesRegister i a f := by
  obtain ⟨u, hu, hU⟩ := maskedUpdate_next f ha
  refine ⟨u.answered 0, ?_, hU.completed 0, hU.instancesKept 0, fun b => ?_⟩
  · rw [hi, hu, Res.andThen_next, done_eq]
  · rw [answered_mem, hU.mem, Memory.read_write]

/-- From s to t the groups and the parameters have stayed, and the memory has become m. -/
structure Wrote (s t : State) (m : Memory) : Prop where
  params : t.params = s.params
  groups : t.groups = s.groups
  mem : t.mem = m

theorem Updated.wrote (h : Updated s u m) (v : Word) : s.Wrote (u.answered v) m := ⟨h.params, h.groups, h.mem⟩

theorem Wrote.group (h : s.Wrote t m) {g : Index} {G : PinGroup} (hG : s.group g = some G) : t.group g = some G := by
  rw [State.group, h.groups]
  exact hG

theorem wrote_of_maskedUpdate {a : Addr} {f : Byte → Byte}
    (h : (s.maskedUpdate a f).andThen (State.done 0) = .next t) : s.Wrote t (s.mem.write a (f (s.mem.read a))) := by
  obtain ⟨u, hu, hdone⟩ := Res.andThen_eq_next.mp h
  obtain rfl := done_eq_next.mp hdone
  exact (maskedUpdate_eq_next hu).2.wrote 0

end

end State

open State

/-- What each register reads as after a function has been applied to the one at a. -/
theorem Memory.read_write_apply (m : Memory) (a b : Addr) (f : Byte → Byte) :
    (m.write a (f (m.read a))).read b = if b = a then f (m.read b) else m.read b := by
  rw [Memory.read_write]
  split_ifs with hb
  · rw [hb]
  · rfl

theorem driveBits_level (v : Level) (m inv t : Byte) :
    driveBits v.bit m inv t = if v = .high then t ||| m else t &&& inv := by
  cases v <;> rfl

theorem driveBits_mode (o : Mode) (m inv t : Byte) :
    driveBits o.bit m inv t = if o = .output then t ||| m else t &&& inv := by
  cases o <;> rfl

/-- Settles O25: each of the four is one masked update of STATE. -/
theorem stateWritesUpdateOneRegister : Obligations.StateWritesUpdateOneRegister := by
  intro s g G hG hv ha
  simp only [← driveBits_level]
  exact ⟨fun v => updatesRegister_of_exec_eq ha (withValidGroup_some hG hv _),
    updatesRegister_of_exec_eq ha (withValidGroup_some hG hv _),
    updatesRegister_of_exec_eq ha (withValidGroup_some hG hv _),
    updatesRegister_of_exec_eq ha (withValidGroup_some hG hv _)⟩

/-- Settles O26: each of the four is one masked update of DIRECTION. -/
theorem modeWritesUpdateOneRegister : Obligations.ModeWritesUpdateOneRegister := by
  intro s g G hG hv ha
  simp only [← driveBits_mode]
  exact ⟨fun m => updatesRegister_of_exec_eq ha (withValidGroup_some hG hv _),
    updatesRegister_of_exec_eq ha (withValidGroup_some hG hv _),
    updatesRegister_of_exec_eq ha (withValidGroup_some hG hv _),
    updatesRegister_of_exec_eq ha (withValidGroup_some hG hv _)⟩

/-- Settles O27: both updates are made in one section, the second on what the first has left. -/
theorem setWritesModeThenLevel : Obligations.SetWritesModeThenLevel := by
  intro s g G m v hG hv hdir hstate
  simp only [← driveBits_mode, ← driveBits_level]
  obtain ⟨u, hu, hU⟩ := doubleUpdate_next (driveBits m.bit G.offset G.inverseOffset)
    (driveBits v.bit G.offset G.inverseOffset) hdir hstate
  refine ⟨u.answered 0, ?_, hU.completed 0, hU.instancesKept 0, fun a => ?_⟩
  · refine (withValidGroup_some hG hv _).trans ?_
    rw [hu, Res.andThen_next, done_eq]
  · rw [answered_mem, hU.mem, Memory.read_write_apply, Memory.read_write_apply]

/-! ## Bits outside the mask -/

/-- The write of an update that keeps the bits in inv keeps them in every register. -/
theorem Memory.read_write_and {m : Memory} {a : Addr} {f : Byte → Byte} {inv : Byte}
    (hf : ∀ t, f t &&& inv = t &&& inv) (b : Addr) :
    (m.write a (f (m.read a))).read b &&& inv = m.read b &&& inv := by
  rw [Memory.read_write_apply]
  split_ifs
  · exact hf _
  · rfl

section
variable {s t : State} {g : Index} {G : PinGroup}

theorem read_and_of_maskedUpdate {addr : PinGroup → Addr} {f : PinGroup → Byte → Byte} (hG : s.group g = some G)
    (hf : ∀ t, f G t &&& G.inverseOffset = t &&& G.inverseOffset)
    (h : (s.withValidGroup g fun G => (s.maskedUpdate (addr G) (f G)).andThen (State.done 0)) = .next t) (a : Addr) :
    t.mem.read a &&& G.inverseOffset = s.mem.read a &&& G.inverseOffset := by
  rw [(wrote_of_maskedUpdate (withValidGroup_some_eq_next hG h)).mem]
  exact Memory.read_write_and hf a

/-- `PG_SET` keeps them in its two updates. -/
theorem read_and_of_pgSet {m : Mode} {v : Level} (hG : s.group g = some G)
    (hf : ∀ b t, driveBits b G.offset G.inverseOffset t &&& G.inverseOffset = t &&& G.inverseOffset)
    (h : exec (.pgSet g m v) s = .next t) (a : Addr) :
    t.mem.read a &&& G.inverseOffset = s.mem.read a &&& G.inverseOffset := by
  obtain ⟨u, hu, hdone⟩ := Res.andThen_eq_next.mp (withValidGroup_some_eq_next hG h)
  obtain ⟨-, -, hU⟩ := doubleUpdate_eq_next hu
  rw [done_eq_next.mp hdone, answered_mem, hU.mem, Memory.read_write_and (hf v.bit), Memory.read_write_and (hf m.bit)]

end

/-- Settles O28: every write command sets, clears, inverts or drives the masked bits. -/
theorem foreignBitsAreKept : Obligations.ForeignBitsAreKept := by
  intro i g s t G hi hG hinv h
  have hset : ∀ t, setBits G.offset t &&& G.inverseOffset = t &&& G.inverseOffset :=
    hinv ▸ setBits_and_compl G.offset
  have hclear : ∀ t, clearBits G.inverseOffset t &&& G.inverseOffset = t &&& G.inverseOffset :=
    hinv ▸ clearBits_and_compl G.offset
  have htoggle : ∀ t, toggleBits G.offset t &&& G.inverseOffset = t &&& G.inverseOffset :=
    hinv ▸ toggleBits_and_compl G.offset
  have hdrive : ∀ b t, driveBits b G.offset G.inverseOffset t &&& G.inverseOffset = t &&& G.inverseOffset :=
    fun b t => hinv ▸ driveBits_and_compl G.offset t b
  cases i <;> cases hi
  case pgSet => exact read_and_of_pgSet hG hdrive h
  case pgSetMode m => exact read_and_of_maskedUpdate hG (hdrive m.bit) h
  case pgSetState v => exact read_and_of_maskedUpdate hG (hdrive v.bit) h
  case pgSetHigh | pgSetOutput => exact read_and_of_maskedUpdate hG hset h
  case pgSetLow | pgSetInput => exact read_and_of_maskedUpdate hG hclear h
  case pgToggleState | pgToggleMode => exact read_and_of_maskedUpdate hG htoggle h

/-! ## Reading back, and toggling twice -/

section
variable {s t u : State} {g : Index} {G : PinGroup} {addr : PinGroup → Addr}

/-- After an update that always leaves the masked bits in one outcome, the group is there with that outcome. -/
theorem classify_after_update {f : PinGroup → Byte → Byte} {c : ReadOutcome} (hG : s.group g = some G)
    (hf : ∀ b, classify (f G b) G.offset = c)
    (h : (s.withValidGroup g fun G => (s.maskedUpdate (addr G) (f G)).andThen (State.done 0)) = .next t) :
    t.group g = some G ∧ t.params = s.params ∧ classify (t.mem.read (addr G)) G.offset = c := by
  have hw := wrote_of_maskedUpdate (withValidGroup_some_eq_next hG h)
  refine ⟨hw.group hG, hw.params, ?_⟩
  rw [hw.mem, Memory.read_write_same, hf]

/-- `PG_GETSTATE` right after such an update of STATE answers the outcome. -/
theorem pgGetState_after_update {f : PinGroup → Byte → Byte} {c : ReadOutcome} (hG : s.group g = some G)
    (hf : ∀ b, classify (f G b) G.offset = c)
    (ht : (s.withValidGroup g fun G => s.updateState G (f G)) = .next t) (hu : exec (.pgGetState g) t = .next u) :
    u.result = c.result := by
  obtain ⟨hG', -, hc⟩ := classify_after_update hG hf ht
  rw [result_of_pgGetState hG' hu, hc]

/-- `PG_GETMODE` right after such an update of DIRECTION answers the outcome. -/
theorem pgGetMode_after_update {f : PinGroup → Byte → Byte} {c : ReadOutcome} (hG : s.group g = some G)
    (hf : ∀ b, classify (f G b) G.offset = c)
    (ht : (s.withValidGroup g fun G => s.updateMode G (f G)) = .next t) (hu : exec (.pgGetMode g) t = .next u) :
    u.result = c.result := by
  obtain ⟨hG', -, hc⟩ := classify_after_update hG hf ht
  rw [result_of_pgGetMode hG' hu, hc]

/-- Inverting the masked bits of one register twice restores all; doing it once keeps a mixed group mixed. -/
theorem toggle_twice (hG : s.group g = some G)
    (ht : (s.withValidGroup g fun G => (s.maskedUpdate (addr G) (toggleBits G.offset)).andThen (State.done 0)) = .next t)
    (hu : (t.withValidGroup g fun G => (t.maskedUpdate (addr G) (toggleBits G.offset)).andThen (State.done 0)) =
      .next u) :
    (∀ a, u.mem.read a = s.mem.read a) ∧
    (classify (s.mem.read (addr G)) G.offset = .mixed → classify (t.mem.read (addr G)) G.offset = .mixed) := by
  have hst := wrote_of_maskedUpdate (withValidGroup_some_eq_next hG ht)
  have htu := wrote_of_maskedUpdate (withValidGroup_some_eq_next (hst.group hG) hu)
  refine ⟨fun a => ?_, fun hmixed => ?_⟩
  · rw [htu.mem, Memory.read_write_apply, hst.mem, Memory.read_write_apply]
    split_ifs
    · exact toggleBits_toggleBits _ _
    · rfl
  · rw [hst.mem, Memory.read_write_same]
    exact classify_toggleBits_of_mixed _ _ hmixed

end

/-- Settles O29: a drive leaves the group uniform at what was written, and the read answers that outcome. -/
theorem writesReadBack : Obligations.WritesReadBack := by
  intro s t u g G hG hinv hm
  have hset : ∀ b, classify (setBits G.offset b) G.offset = .allHigh := classify_setBits G.offset
  have hclear : ∀ b, classify (clearBits G.inverseOffset b) G.offset = .allLow :=
    fun b => hinv ▸ classify_clearBits G.offset b hm
  have hdrive : ∀ v b, classify (driveBits v G.offset G.inverseOffset b) G.offset = if v then .allHigh else .allLow :=
    fun v b => hinv ▸ classify_driveBits G.offset b hm v
  refine ⟨fun v ht hu => ?_, fun m ht hu => ?_, pgGetState_after_update (c := .allHigh) hG hset,
    pgGetState_after_update (c := .allLow) hG hclear, pgGetMode_after_update (c := .allHigh) hG hset,
    pgGetMode_after_update (c := .allLow) hG hclear, fun v he ht hu => ?_, fun v he ht hu => ?_⟩
  · rw [pgGetState_after_update hG (hdrive v.bit) ht hu]
    cases v <;> rfl
  · rw [pgGetMode_after_update hG (hdrive m.bit) ht hu]
    cases m <;> rfl
  · obtain ⟨hG', hp, hc⟩ := classify_after_update hG (hdrive v.bit) ht
    rw [result_of_pgEq hG' (hp ▸ he) hu, hc]
    cases v <;> rfl
  · obtain ⟨hG', hp, hc⟩ := classify_after_update hG (hdrive v.bit) ht
    rw [result_of_pgNe hG' (hp ▸ he) hu, hc]
    cases v <;> rfl

/-- Settles O30: each of the two toggles inverts the masked bits of its one register. -/
theorem toggleTwiceRestores : Obligations.ToggleTwiceRestores := fun _ _ _ _ _ hG =>
  ⟨fun ht hu => toggle_twice hG ht hu, fun ht hu => toggle_twice hG ht hu⟩

end Sys2Proof.Machine
end

section
/-! PROOF. Ticks and steps, the timer's operations, and the generator commands that are refused, rejected or only answer
(41_steppulse.md R160, R165 to R170, R173, R175, R176, R182 to R185). -/

namespace Sys2Proof.Machine

/-! ## Ticks and steps -/

theorem stepsFit_iff {steps : Word} : stepsFit steps = true ↔ -(2 ^ 30) ≤ steps.toInt ∧ steps.toInt < 2 ^ 30 :=
  decide_eq_true_iff

/-- In range the product fits the counter (R169). -/
theorem toInt_ticksOfSteps {steps : Word} (h : stepsFit steps = true) :
    (ticksOfSteps steps).toInt = steps.toInt * 2 := by
  obtain ⟨hlow, hhigh⟩ := stepsFit_iff.mp h
  rw [ticksOfSteps, BitVec.toInt_ofInt_eq_self] <;> omega

/-- Half a counter fits the counter (R170). -/
theorem toInt_stepsOfTicks (r : Word) : (stepsOfTicks r).toInt = r.toInt.tdiv 2 := by
  have hlow := BitVec.le_toInt r
  have hhigh := BitVec.toInt_lt (x := r)
  have hhalf : (r.toInt.tdiv 2).natAbs = r.toInt.natAbs / 2 := Int.natAbs_tdiv r.toInt 2
  rw [stepsOfTicks, BitVec.toInt_ofInt_eq_self] <;> omega

/-- Settles O39: the quotient fits, and on a counter that is not negative it is the floor. -/
theorem stepsAreHalfTheTicks : Obligations.StepsAreHalfTheTicks := fun r =>
  ⟨toInt_stepsOfTicks r, fun h => by rw [toInt_stepsOfTicks, Int.tdiv_eq_ediv_of_nonneg h]⟩

theorem phaseTicks_isOdd (r : Word) : phaseTicks (isOdd r) = if r.toInt % 2 = 0 then 0 else 1 := by
  by_cases h : r.toInt % 2 = 0 <;> simp [phaseTicks, isOdd, h]

/-! ## Before the body of a command -/

namespace State
variable {s : State} {i : Index} {S : Generator}

theorem withSpg_none (h : s.gen i = none) (k : Generator → Res) : s.withSpg i k = .refused .notConstructed := by
  simp [withSpg, h]

theorem withInitialised_none (h : s.gen i = none) (k : Generator → Res) :
    s.withInitialised i k = .refused .notConstructed := withSpg_none h _

theorem withInitialised_uninitialised (h : s.gen i = some S) (hi : S.initialised = false) (k : Generator → Res) :
    s.withInitialised i k = .refused .notInitialised := by
  simp [withInitialised, withSpg_some h, hi]

end State

theorem whenStepsFit_of_fit {steps : Word} (h : stepsFit steps = true) (k : Res) : whenStepsFit steps k = k := if_pos h

theorem whenStepsFit_of_not_fit {steps : Word} (h : ¬stepsFit steps = true) (k : Res) :
    whenStepsFit steps k = .refused .stepsOutOfRange := if_neg h

open State

/-- A command that needs an initialised generator does all it does behind the test for one. -/
theorem exec_eq_withInitialised {i : Instr} {k : Index} (h : i.needsInitialised = some k) (s : State) :
    ∃ body, exec i s = s.withInitialised k body := by
  cases i <;> cases h <;> exact ⟨_, rfl⟩

/-- Settles O40: the test of the generator, and the one of the construct command, come before everything else. -/
theorem unusableGeneratorIsRefused : Obligations.UnusableGeneratorIsRefused := by
  refine ⟨fun i k s hi => ?_, fun k s hk => withSpg_none hk _, fun k d p s S hS => ?_⟩
  · obtain ⟨body, hbody⟩ := exec_eq_withInitialised hi s
    rw [hbody]
    exact ⟨fun hk => withInitialised_none hk body, fun S hS hini => withInitialised_uninitialised hS hini body⟩
  · rw [exec, execSpgConstruct, hS]

section
variable {s : State} {i : Index} {S : Generator} (hS : s.gen i = some S) (hi : S.initialised = true)
include hS hi

/-- Out of range both step requests stop before the busy test (R169, U5). -/
theorem step_request_refused {steps : Word} (h : ¬stepsFit steps = true) (period : Word) (v : Level) :
    exec (.spgStep i steps v) s = .refused .stepsOutOfRange ∧
    exec (.spgStepP i steps v period) s = .refused .stepsOutOfRange :=
  ⟨(withInitialised_some hS hi _).trans (whenStepsFit_of_not_fit h _),
    (withInitialised_some hS hi _).trans (whenStepsFit_of_not_fit h _)⟩

/-- In range they only answer 0 while the counter is positive (R175, R176). -/
theorem step_request_busy {steps : Word} (h : stepsFit steps = true) (hb : isStepping S.remainingTicks = true)
    (period : Word) (v : Level) :
    exec (.spgStep i steps v) s = .next (s.answered 0) ∧ exec (.spgStepP i steps v period) s = .next (s.answered 0) :=
  ⟨(withInitialised_some hS hi _).trans ((whenStepsFit_of_fit h _).trans (if_pos hb)),
    (withInitialised_some hS hi _).trans ((whenStepsFit_of_fit h _).trans (if_pos hb))⟩

/-- A generator that is not paused is not changed by a resume (R180). -/
theorem exec_spgResume_of_not_paused (hp : S.paused = false) : exec (.spgResume i) s = .next (s.answered 0) := by
  refine (withInitialised_some hS hi _).trans ?_
  rw [hp]
  rfl

end

/-- Settles O38: in range the product is exact, so it is even; out of range the request's first test refuses it. -/
theorem ticksAreTwiceTheSteps : Obligations.TicksAreTwiceTheSteps := by
  refine ⟨fun steps hlow hhigh => ?_, fun s i S steps period v hS hi hout => ?_⟩
  · have hfit := stepsFit_iff.mpr ⟨hlow, hhigh⟩
    exact ⟨toInt_ticksOfSteps hfit, isOdd_ticksOfSteps hfit⟩
  · refine step_request_refused hS hi (fun hfit => ?_) period v
    obtain ⟨hlow, hhigh⟩ := stepsFit_iff.mp hfit
    omega

/-- Settles O43: the busy test comes before every change. -/
theorem busyStepRequestIsRejected : Obligations.BusyStepRequestIsRejected :=
  fun _ _ _ _ period v hS hi hpos hlow hhigh =>
    step_request_busy hS hi (stepsFit_iff.mpr ⟨hlow, hhigh⟩) (isStepping_iff.mpr hpos) period v

/-- Settles O50: past the test of the generator each query is its answer. -/
theorem queriesAnswer : Obligations.QueriesAnswer := by
  intro s i S hS hi
  have hstepping : boolResult (isStepping S.remainingTicks) = if 0 < S.remainingTicks.toInt then 1 else 0 := by
    simp [boolResult, isStepping]
  have hstopped : boolResult (isStopped S.remainingTicks) = if S.remainingTicks.toInt ≤ 0 then 1 else 0 := by
    simp [boolResult, isStopped]
  rw [← hstepping, ← hstopped]
  exact ⟨withInitialised_some hS hi _, withInitialised_some hS hi _, withInitialised_some hS hi _,
    withInitialised_some hS hi _⟩

/-- Settles O32: each operation is an update of one field; a started timer is not enabled after a stop. -/
theorem timerOperationsWriteOneField : Obligations.TimerOperationsWriteOneField := by
  intro s
  refine ⟨fun _ => rfl, fun _ => rfl, rfl, rfl, fun h => ?_, fun h => ?_, Bool.and_false _⟩
  · rw [timerStart, ← h]
    rfl
  · rw [timerStop, ← h]
    rfl

end Sys2Proof.Machine
end

section
/-! PROOF. A generator command under any schedule: the state it would have with no event inside it, and how far events
may take it from there (41_steppulse.md R163, R171, R181; 60_exceptions.md R222). -/

namespace Sys2Proof.Machine

/-! ## Running a part of a command -/

/-- Part r of a command completes where c holds, and wherever it completes it does so in a state with P. -/
structure Res.Runs (c : Prop) (r : Res) (P : State → Prop) : Prop where
  completes : c → ∃ t, r = .next t
  result : ∀ t, r = .next t → P t

namespace Res.Runs
variable {c : Prop} {r : Res} {P Q : State → Prop} {t : State}

theorem next (h : P t) : Runs c (.next t) P := ⟨fun _ => ⟨t, rfl⟩, fun _ e => Host.Outcome.next.inj e ▸ h⟩

theorem andThen {f : State → Res} (h : r.Runs c P) (hf : ∀ t, P t → (f t).Runs c Q) : (r.andThen f).Runs c Q where
  completes hc := by
    obtain ⟨t, ht⟩ := h.completes hc
    obtain ⟨u, hu⟩ := (hf t (h.result t ht)).completes hc
    exact ⟨u, by rw [ht, andThen_next, hu]⟩
  result u hu := by
    obtain ⟨t, ht, hu⟩ := andThen_eq_next.mp hu
    exact (hf t (h.result t ht)).result u hu

theorem mono (h : r.Runs c P) (hPQ : ∀ t, P t → Q t) : r.Runs c Q :=
  ⟨h.completes, fun t ht => hPQ t (h.result t ht)⟩

theorem of_eq {r' : Res} (e : r = r') (h : r'.Runs c P) : r.Runs c P := e ▸ h

/-- A part that completes, in a state with P. -/
theorem exists_next (h : r.Runs c P) (hc : c) : ∃ t, r = .next t ∧ P t := by
  obtain ⟨t, ht⟩ := h.completes hc
  exact ⟨t, ht, h.result t ht⟩

end Res.Runs

/-- Function f computes bit k of a register from bit k alone. -/
def BitByBit (f : Byte → Byte) : Prop := ∀ x y k, x.getLsbD k = y.getLsbD k → (f x).getLsbD k = (f y).getLsbD k

theorem bitByBit_setBits (m : Byte) : BitByBit (setBits m) := fun x y k h => by simp [setBits, h]

theorem bitByBit_driveBits (v : Bool) (m inv : Byte) : BitByBit (driveBits v m inv) := fun x y k h => by
  cases v <;> simp [driveBits, setBits, clearBits, h]

/-- A driven pin has its bit at the level. -/
theorem getLsbD_driveBits (c : PinCap) (v : Level) (t : Byte) :
    (driveBits v.bit c.mask (~~~c.mask) t).getLsbD c.bit.val = decide (v = .high) := by
  cases v <;> simp [driveBits, setBits, clearBits, Level.bit, PinCap.mask]

/-- Driving a pin leaves the other bits of its register. -/
theorem getLsbD_driveBits_other (c : PinCap) (v : Level) (t : Byte) {k : Nat} (hk : k ≠ c.bit.val) :
    (driveBits v.bit c.mask (~~~c.mask) t).getLsbD k = t.getLsbD k := by
  by_cases h8 : k < 8
  · cases v <;> simp [driveBits, setBits, clearBits, Level.bit, PinCap.mask, hk, h8]
  · rw [BitVec.getLsbD_of_ge _ _ (by omega), BitVec.getLsbD_of_ge _ _ (by omega)]

/-- Timer T' is T but for the latch. -/
def Timer.ButLatch (T T' : Timer) : Prop := T'.running = T.running ∧ T'.period = T.period ∧ T'.handler = T.handler

theorem Timer.ButLatch.trans {T T' T'' : Timer} (h : T.ButLatch T') (h' : T'.ButLatch T'') : T.ButLatch T'' := by
  obtain ⟨hrun, hper, hhan⟩ := h
  obtain ⟨hrun', hper', hhan'⟩ := h'
  exact ⟨hrun'.trans hrun, hper'.trans hper, hhan'.trans hhan⟩

namespace State

/-! ## Writing a generator's record -/

section
variable {s : State} {i : Index} {S : Generator}

theorem putGen_gen_same (s : State) (i : Index) (S : Generator) : (s.putGen i S).gen i = some S := by
  rw [putGen_gen, if_pos rfl]

theorem putGen_putGen (s : State) (i : Index) (R S : Generator) : (s.putGen i R).putGen i S = s.putGen i S := by
  simp [putGen, setSpg]

theorem updateSpg_eq_putGen (h : s.gen i = some S) (f : Generator → Generator) :
    s.updateSpg i f = s.putGen i (f S) := by
  rw [updateSpg, h]
  rfl

theorem putGen_self (h : s.gen i = some S) : s.putGen i S = s := by
  have hself : s.spg.set i (some S) = s.spg := by
    rw [← h]
    exact Vector.set_getElem_self i.isLt
  rw [putGen, hself]
  rfl

end

/-! ## A command and its undisturbed state -/

/-- A command begun at s, with at most N boundaries and the registers w to write, can complete: the handler can run at
every boundary or there is none to run, and the registers exist. -/
def CanComplete (s : State) (N : Nat) (w : List Addr) : Prop :=
  (s.HandlerReady ∨ s.Quiet N) ∧ ∀ a ∈ w, s.params.isStorage a = true

/-- State t of a command on generator i, begun at s and m boundaries on, that writes only the registers w: with no event
so far it is u with the record S; and it is that always, but for the counter and the bit that handler runs write, the
latch, MAIN's place and the schedule. -/
structure Follows (s : State) (i : Index) (w : List Addr) (m : Nat) (S : Generator) (u t : State) : Prop where
  kept : Kept s t i w
  bits : ∀ a k, ¬s.HandlerWritesBit a k → (t.mem.read a).getLsbD k = (u.mem.read a).getLsbD k
  timer : u.timer.ButLatch t.timer
  draws : t.draws = u.draws
  counter : ∃ r, t.gen i = some { S with remainingTicks := r } ∧ Fallen s i S.remainingTicks r
  quiet : s.Quiet m → ∃ p, p.k = s.cp.k ∧ t = ((u.putGen i S).setCp p).setSched (s.sched.drop m)

section
variable {s t t' u : State} {i : Index} {w : List Addr} {m N : Nat} {S : Generator} {a : Addr}

theorem Follows.refl (w : List Addr) (hS : s.gen i = some S) : Follows s i w 0 S s s where
  kept := Kept.refl ..
  bits _ _ _ := rfl
  timer := ⟨rfl, rfl, rfl⟩
  draws := rfl
  counter := ⟨_, hS, Fallen.refl ..⟩
  quiet _ := ⟨s.cp, rfl, by rw [putGen_self hS]; rfl⟩

theorem Follows.gen_of_quiet (h : Follows s i w m S u t) (hq : s.Quiet m) : t.gen i = some S := by
  obtain ⟨p, -, rfl⟩ := h.quiet hq
  exact putGen_gen_same u i S

/-- A read of the generator's record, of which events can only have lowered the counter. -/
theorem Follows.withSpg {c : Prop} {P : State → Prop} {k : Generator → Res} (h : Follows s i w m S u t)
    (hk : ∀ r, Fallen s i S.remainingTicks r → (s.Quiet m → r = S.remainingTicks) →
      (k { S with remainingTicks := r }).Runs c P) : (t.withSpg i k).Runs c P := by
  obtain ⟨r, hr, hfall⟩ := h.counter
  rw [withSpg_some hr]
  refine hk r hfall fun hq => ?_
  have hsame := Option.some.inj (hr.symm.trans (h.gen_of_quiet hq))
  exact congrArg Generator.remainingTicks hsame

/-! ### Boundaries -/

theorem Follows.jumpMicro_of_quiet (h : Follows s i w m S u t) (hq : s.Quiet (m + 1)) (j : Nat) :
    ∃ p, p.k = s.cp.k ∧ t.jumpMicro j = .next (((u.putGen i S).setCp p).setSched (s.sched.drop (m + 1))) := by
  obtain ⟨p, hp, rfl⟩ := h.quiet (hq.mono (Nat.le_succ m))
  refine ⟨⟨p.k, j⟩, hp, ?_⟩
  rw [jumpMicro_quiet (n := 0) (hq.drop rfl), setSched_sched, List.tail_drop]
  rfl

theorem Follows.of_jumpMicro (h : Follows s i w m S u t) {j : Nat} (e : t.jumpMicro j = .next t') :
    Follows s i w (m + 1) S u t' := by
  obtain ⟨n, hcut⟩ := jumpMicro_cut e
  obtain ⟨r, hr, hfall⟩ := h.counter
  obtain ⟨r', hr', hfall'⟩ := hcut.counter hr
  exact {
    kept := h.kept.trans (hcut.kept i w)
    bits := fun a k hk => by
      have hk' : ¬t.HandlerWritesBit a k := by rwa [h.kept.handlerWritesBit]
      exact ((hcut.kept i []).bits a List.not_mem_nil k id hk').trans (h.bits a k hk)
    timer := h.timer.trans ⟨hcut.running, hcut.period, hcut.handler⟩
    draws := hcut.draws.trans h.draws
    counter := ⟨r', hr', hfall.trans ⟨hfall'.le, hfall'.nonneg, hfall'.stuck, hfall'.unbound⟩ h.kept.bound⟩
    quiet := fun hq => by
      obtain ⟨p, hp, he⟩ := h.jumpMicro_of_quiet hq j
      exact ⟨p, hp, Host.Outcome.next.inj (e.symm.trans he)⟩ }

theorem Follows.jumpMicro (h : Follows s i w m S u t) (j : Nat) (hm : m < N) :
    (t.jumpMicro j).Runs (s.CanComplete N w) (Follows s i w (m + 1) S u) where
  completes := by
    rintro ⟨hready | hquiet, -⟩
    · obtain ⟨t', -, ht', -⟩ := jumpMicro_next j (h.kept.ready hready)
      exact ⟨t', ht'⟩
    · obtain ⟨p, -, ht'⟩ := h.jumpMicro_of_quiet (hquiet.mono hm) j
      exact ⟨_, ht'⟩
  result _ := h.of_jumpMicro

theorem Follows.nextMicro (h : Follows s i w m S u t) (hm : m < N) :
    t.nextMicro.Runs (s.CanComplete N w) (Follows s i w (m + 1) S u) := h.jumpMicro (t.cp.j + 1) hm

/-! ### Registers -/

theorem Follows.maskedUpdate (h : Follows s i w m S u t) {f : Byte → Byte} (ha : a ∈ w) (hf : BitByBit f) :
    (t.maskedUpdate a f).Runs (s.CanComplete N w) fun t' =>
      Follows s i w (m + 3) S (u.setMem (u.mem.write a (f (u.mem.read a)))) t' ∧
        t'.mem.read a = f (t.mem.read a) where
  completes := by
    rintro ⟨-, hw⟩
    obtain ⟨t', ht', -⟩ := maskedUpdate_next (s := t) f (a := a) (by rw [h.kept.params]; exact hw a ha)
    exact ⟨t', ht'⟩
  result t' ht' := by
    obtain ⟨hstorage, hupd⟩ := maskedUpdate_eq_next ht'
    obtain ⟨r, hr, hfall⟩ := h.counter
    refine ⟨?_, by rw [hupd.mem, Memory.read_write_same]⟩
    exact {
      kept := h.kept.trans (hupd.kept i fun b hb => Memory.read_write_other _ _ fun hba => hb (hba ▸ ha))
      bits := fun b k hk => by
        rw [hupd.mem, setMem_mem, Memory.read_write, Memory.read_write]
        split
        · next hba => exact hf _ _ k (h.bits a k (hba ▸ hk))
        · exact h.bits b k hk
      timer := h.timer.trans ⟨hupd.running, hupd.period, hupd.handler⟩
      draws := hupd.draws.trans h.draws
      counter := ⟨r, (hupd.gen i).trans hr, hfall⟩
      quiet := fun hq => by
        obtain ⟨p, hp, rfl⟩ := h.quiet (hq.mono (Nat.le_add_right m 3))
        refine ⟨⟨p.k, p.j + 3⟩, hp, ?_⟩
        rw [maskedUpdate_quiet f hstorage (n := 0) (hq.drop rfl), Host.Outcome.next.injEq] at ht'
        rw [← ht', setSched_sched, List.drop_drop]
        rfl }

/-! ### The timer -/

theorem Follows.mapTimer (h : Follows s i w m S u t) {g : Timer → Timer}
    (hg : ∀ T T', T.ButLatch T' → (g T).ButLatch (g T')) :
    Follows s i w m S (u.setTimer (g u.timer)) (t.setTimer (g t.timer)) where
  kept := h.kept.trans (setTimer_kept ..)
  bits := h.bits
  timer := hg _ _ h.timer
  draws := h.draws
  counter := h.counter
  quiet hq := by
    obtain ⟨p, hp, rfl⟩ := h.quiet hq
    exact ⟨p, hp, rfl⟩

theorem Follows.timerStart (h : Follows s i w m S u t) : Follows s i w m S u.timerStart t.timerStart :=
  h.mapTimer (g := fun T => { T with running := true }) fun _ _ ⟨_, hper, hhan⟩ => ⟨rfl, hper, hhan⟩

theorem Follows.timerStop (h : Follows s i w m S u t) : Follows s i w m S u.timerStop t.timerStop :=
  h.mapTimer (g := fun T => { T with running := false }) fun _ _ ⟨_, hper, hhan⟩ => ⟨rfl, hper, hhan⟩

theorem Follows.timerSetPeriod (h : Follows s i w m S u t) (p : Word) :
    Follows s i w m S (u.timerSetPeriod p) (t.timerSetPeriod p) :=
  h.mapTimer (g := fun T => { T with period := some p }) fun _ _ ⟨hrun, _, hhan⟩ => ⟨hrun, rfl, hhan⟩

theorem Follows.timerAttach (h : Follows s i w m S u t) (d : Handler) :
    Follows s i w m S (u.timerAttach d) (t.timerAttach d) :=
  h.mapTimer (g := fun T => { T with handler := some d }) fun _ _ ⟨hrun, hper, _⟩ => ⟨hrun, hper, rfl⟩

/-- The values drawn are those of the undisturbed state, since events draw none (R164). -/
theorem Follows.timerInit (h : Follows s i w m S u t) : Follows s i w m S u.timerInit t.timerInit where
  kept := h.kept.trans ((setTimer_kept ..).trans (setDraws_kept ..))
  bits := h.bits
  timer := by
    obtain ⟨-, -, hhan⟩ := h.timer
    exact ⟨congrArg Config.initRunning h.draws, congrArg Config.initPeriod h.draws, hhan⟩
  draws := congrArg (· + 1) h.draws
  counter := h.counter
  quiet hq := by
    obtain ⟨p, hp, rfl⟩ := h.quiet hq
    exact ⟨p, hp, rfl⟩

/-! ### The generator's record -/

theorem Follows.updateSpg (h : Follows s i w m S u t) {f : Generator → Generator}
    (hcaps : ∀ R, (f R).dirCap = R.dirCap ∧ (f R).stepCap = R.stepCap)
    (hf : ∀ r, Fallen s i S.remainingTicks r → ∃ r',
      f { S with remainingTicks := r } = { f S with remainingTicks := r' } ∧ Fallen s i (f S).remainingTicks r') :
    Follows s i w m (f S) u (t.updateSpg i f) where
  kept := h.kept.trans (updateSpg_kept _ _ _ _ hcaps)
  bits := h.bits
  timer := h.timer
  draws := h.draws
  counter := by
    obtain ⟨r, hr, hfall⟩ := h.counter
    obtain ⟨r', hr', hfall'⟩ := hf r hfall
    exact ⟨r', (updateSpg_some hr f).trans (congrArg some hr'), hfall'⟩
  quiet hq := by
    obtain ⟨p, hp, rfl⟩ := h.quiet hq
    refine ⟨p, hp, ?_⟩
    rw [← putGen_putGen u i S (f S)]
    exact updateSpg_eq_putGen (s := ((u.putGen i S).setCp p).setSched _) (putGen_gen_same u i S) f

theorem Follows.setTicks (h : Follows s i w m S u t) (r : Word) :
    Follows s i w m { S with remainingTicks := r } u (t.setTicks i r) :=
  h.updateSpg (f := fun R => { R with remainingTicks := r }) (fun _ => ⟨rfl, rfl⟩) fun _ _ => ⟨r, rfl, Fallen.refl ..⟩

theorem Follows.setPaused (h : Follows s i w m S u t) (b : Bool) :
    Follows s i w m { S with paused := b } u (t.setPaused i b) :=
  h.updateSpg (f := fun R => { R with paused := b }) (fun _ => ⟨rfl, rfl⟩) fun r hr => ⟨r, rfl, hr⟩

theorem Follows.setPeriod (h : Follows s i w m S u t) (p : Word) :
    Follows s i w m { S with period := some p } u (t.setPeriod i p) :=
  h.updateSpg (f := fun R => { R with period := some p }) (fun _ => ⟨rfl, rfl⟩) fun r hr => ⟨r, rfl, hr⟩

/-! ### The end -/

/-- The command begun at s has completed in t with answer v, after m boundaries; otherwise as `Follows`. -/
structure Finished (s : State) (i : Index) (w : List Addr) (m : Nat) (S : Generator) (u : State) (v : Word)
    (t : State) : Prop where
  completed : s.Completed t v
  framed : s.Framed t i w
  bound : t.bound = s.bound
  bits : ∀ a k, ¬s.HandlerWritesBit a k → (t.mem.read a).getLsbD k = (u.mem.read a).getLsbD k
  timer : u.TimerButLatch t
  draws : t.draws = u.draws
  counter : ∃ r, t.gen i = some { S with remainingTicks := r } ∧ Fallen s i S.remainingTicks r
  quiet : s.Quiet m → t = (((u.putGen i S).setCp s.cp).setSched (s.sched.drop m)).answered v

theorem Follows.finished (h : Follows s i w m S u t) (v : Word) : Finished s i w m S u v (t.answered v) where
  completed := ⟨rfl, rfl, by rw [answered_cp, h.kept.place], h.kept.params, h.kept.ie, h.kept.cmds⟩
  framed := h.kept.framed
  bound := h.kept.bound
  bits := h.bits
  timer := h.timer
  draws := h.draws
  counter := h.counter
  quiet hq := by
    obtain ⟨⟨k, j⟩, rfl, rfl⟩ := h.quiet hq
    rfl

theorem Follows.done {c : Prop} (h : Follows s i w m S u t) (v : Word) :
    (t.done v).Runs c (Finished s i w m S u v) := .next (h.finished v)

section
variable {v : Word} (h : Finished s i w m S u v t)
include h

theorem Finished.gen_of_quiet (hq : s.Quiet m) : t.gen i = some S := by
  rw [h.quiet hq]
  exact putGen_gen_same u i S

theorem Finished.mem_of_quiet (hq : s.Quiet m) : t.mem = u.mem := by
  rw [h.quiet hq]
  rfl

/-- Without an event the counter is what the command left. -/
theorem Finished.counter_of_quiet {r : Word} (hr : t.gen i = some { S with remainingTicks := r }) (hq : s.Quiet m) :
    r = S.remainingTicks :=
  congrArg Generator.remainingTicks (Option.some.inj (hr.symm.trans (h.gen_of_quiet hq)))

/-- A register that handler runs do not write. -/
theorem Finished.read (hw : ¬s.HandlerWrites a) : t.mem.read a = u.mem.read a :=
  BitVec.eq_of_getLsbD_eq fun k _ => h.bits a k fun ⟨b, B, hb, hB, haddr, _⟩ => hw ⟨b, B, hb, hB, haddr⟩

end

end

end State
end Sys2Proof.Machine
end

section
/-! PROOF. What each generator command does, under any schedule and undisturbed (41_steppulse.md R173 to R180). -/

namespace Sys2Proof.Machine.State

section
variable {s t u : State} {i : Index} {w : List Addr} {m N : Nat} {S : Generator}

/-- `PinWrite` on the direction pin, as it stands in the register undisturbed (R162). -/
def driven (s : State) (c : PinCap) (v : Level) : State :=
  s.setMem (s.mem.write c.state (driveBits v.bit c.mask (~~~c.mask) (s.mem.read c.state)))

/-- `PinMode(c, OUTPUT)` undisturbed (R161). -/
def asOutput (s : State) (c : PinCap) : State :=
  s.setMem (s.mem.write c.dir (setBits c.mask (s.mem.read c.dir)))

/-- How many boundaries stop's second read takes: with `STOP_READS = 1` there is only the one before (4) (R178). -/
def stopReadBoundaries (p : Params) : Nat := if p.stopReadsTwice then 2 else 1

/-- How many boundaries stop's last part takes: (5) is followed by (6) only where `paused` is cleared (R178). -/
def stopRearmBoundaries (p : Params) : Nat := if p.stopClearsPaused then 2 else 1

theorem stopReadBoundaries_le (p : Params) : stopReadBoundaries p ≤ 2 := by unfold stopReadBoundaries; split <;> decide

theorem Follows.pinModeOutput (h : Follows s i w m S u t) {c : PinCap} (hc : c.dir ∈ w) :
    (t.pinModeOutput c).Runs (s.CanComplete N w) (Follows s i w (m + 3) S (u.asOutput c)) :=
  (h.maskedUpdate hc (bitByBit_setBits c.mask)).mono fun _ ht => ht.1

/-- The accepting part of a step request loads the counter, drives the pin and answers 1 (R175). -/
theorem Follows.acceptStep (h : Follows s i w m S u t) {c : PinCap} (hc : c.state ∈ w) (hm : m < N) (steps : Word)
    (v : Level) : (t.acceptStep i c steps v).Runs (s.CanComplete N w) fun t' =>
      Finished s i w (m + 4) { S with remainingTicks := ticksOfSteps steps } (u.driven c v) 1 t' ∧
        (t'.mem.read c.state).getLsbD c.bit.val = decide (v = .high) := by
  refine ((h.setTicks (ticksOfSteps steps)).nextMicro hm).andThen fun t₁ h₁ => ?_
  refine (h₁.maskedUpdate hc (bitByBit_driveBits _ _ _)).andThen fun t₂ ⟨h₂, hread⟩ => ?_
  exact .next ⟨h₂.finished 1, (congrArg (·.getLsbD c.bit.val) hread).trans (getLsbD_driveBits c v _)⟩

/-- Resume's body inside a step request: the timer is started and `paused` cleared if the generator is paused, and
otherwise nothing is done (R176). -/
theorem Follows.resume (h : Follows s i w m S u t) (hm : m + 2 < N) :
    Res.Runs (s.CanComplete N w)
      (t.withSpg i fun S =>
        if S.paused then
          t.nextMicro.andThen fun s => s.timerStart.nextMicro.andThen fun s => (s.setPaused i false).nextMicro
        else t.jumpMicro 5)
      (Follows s i w (m + if S.paused then 3 else 1) { S with paused := false }
        (u.setTimer { u.timer with running := S.paused || u.timer.running })) := by
  refine h.withSpg fun r _ _ => ?_
  cases hp : S.paused with
  | true =>
    refine (h.nextMicro (by omega)).andThen fun t₁ h₁ => ?_
    refine (h₁.timerStart.nextMicro (by omega)).andThen fun t₂ h₂ => ?_
    exact (h₂.setPaused false).nextMicro (by omega)
  | false =>
    have hS : S = { S with paused := false } := hp ▸ rfl
    rw [← hS]
    exact h.jumpMicro 5 (by omega)

/-- The rest of a three-operand request: both periods, the second busy test, which does not reject, and the accepting
part (R176). -/
theorem Follows.requestPeriod (h : Follows s i w m S u t) (hc : S.dirCap.state ∈ w) (hm : m + 3 < N)
    (hb : ¬isStepping S.remainingTicks = true) (steps period : Word) (v : Level) :
    Res.Runs (s.CanComplete N w)
      ((t.setPeriod i period).nextMicro.andThen fun s =>
        (s.timerSetPeriod period).nextMicro.andThen fun s =>
        s.withSpg i fun S =>
        if isStepping S.remainingTicks then s.done 0 else
        s.nextMicro.andThen fun s => s.acceptStep i S.dirCap steps v)
      fun t' => Finished s i w (m + 7) { S with remainingTicks := ticksOfSteps steps, period := some period }
          ((u.timerSetPeriod period).driven S.dirCap v) 1 t' ∧
        (t'.mem.read S.dirCap.state).getLsbD S.dirCap.bit.val = decide (v = .high) := by
  refine ((h.setPeriod period).nextMicro (by omega)).andThen fun t₁ h₁ => ?_
  refine ((h₁.timerSetPeriod period).nextMicro (by omega)).andThen fun t₂ h₂ => ?_
  refine h₂.withSpg fun r hfall _ => ?_
  have hr : r = S.remainingTicks := hfall.stuck (by simpa [isStepping] using hb)
  refine .of_eq (if_neg (by rw [hr]; exact hb)) ?_
  refine (h₂.nextMicro (by omega)).andThen fun t₃ h₃ => ?_
  exact h₃.acceptStep hc (by omega) steps v


/-- Stop's second read: what it gives is the counter of the first one, lowered at most (R178). -/
theorem Follows.stopReadsAgain {P : State → Prop} {k : Word → State → Res} (h : Follows s i w m S u t) (hm : m + 1 < N)
    (hk : ∀ r t', Fallen s i S.remainingTicks r → (s.Quiet (m + stopReadBoundaries s.params) → r = S.remainingTicks) →
      Follows s i w (m + stopReadBoundaries s.params) S u t' → (k r t').Runs (s.CanComplete N w) P) :
    (t.stopReadsAgain i S.remainingTicks k).Runs (s.CanComplete N w) P := by
  unfold State.stopReadsAgain
  rw [h.kept.params]
  cases htwice : s.params.stopReadsTwice with
  | true =>
    simp only [stopReadBoundaries, htwice] at hk
    refine (h.nextMicro (by omega)).andThen fun t₁ h₁ => h₁.withSpg fun r hfall hquiet => ?_
    refine (h₁.nextMicro (by omega)).andThen fun t₂ h₂ => ?_
    exact hk r t₂ hfall (fun hq => hquiet (hq.mono (Nat.le_succ _))) h₂
  | false =>
    simp only [stopReadBoundaries, htwice] at hk
    exact (h.jumpMicro 4 (by omega)).andThen fun t₁ h₁ => hk _ t₁ (Fallen.refl ..) (fun _ => rfl) h₁

/-- Stop's last part leaves 1 in the counter after an odd second read, else 0, and the timer running (R178). -/
theorem Follows.stopRearms (h : Follows s i w m S u t) (hm : m + 1 < N) (r₁ r₂ : Word) :
    (t.stopRearms i r₁ r₂).Runs (s.CanComplete N w)
      (Finished s i w (m + stopRearmBoundaries s.params)
        { S with remainingTicks := phaseTicks (isOdd r₂), paused := !s.params.stopClearsPaused && S.paused }
        u.timerStart (stepsOfTicks r₁)) := by
  refine ((h.setTicks (phaseTicks (isOdd r₂))).nextMicro (by omega)).andThen fun t₁ h₁ => ?_
  rw [h₁.kept.params, stopRearmBoundaries]
  cases s.params.stopClearsPaused with
  | true => exact (h₁.timerStart.nextMicro (by omega)).andThen fun t₂ h₂ => (h₂.setPaused false).done _
  | false => exact h₁.timerStart.done _

end

section
variable {s : State} {i : Index} {S : Generator}

theorem execSpgInit_runs (hS : s.gen i = some S) :
    Res.Runs (s.CanComplete 11 [S.dirCap.dir, S.stepCap.dir]) (exec (.spgInit i) s)
      (Finished s i [S.dirCap.dir, S.stepCap.dir] 11 { S with paused := true, initialised := true }
        (((s.asOutput S.dirCap).asOutput S.stepCap).timerInit.timerAttach .dispatch).timerStop 0) := by
  refine .of_eq (withSpg_some hS _) ?_
  refine ((Follows.refl _ hS).pinModeOutput (by simp)).andThen fun t₁ h₁ => ?_
  refine (h₁.nextMicro (by decide)).andThen fun t₂ h₂ => ?_
  refine (h₂.pinModeOutput (by simp)).andThen fun t₃ h₃ => ?_
  refine (h₃.nextMicro (by decide)).andThen fun t₄ h₄ => ?_
  refine (h₄.timerInit.nextMicro (by decide)).andThen fun t₅ h₅ => ?_
  refine ((h₅.timerAttach .dispatch).nextMicro (by decide)).andThen fun t₆ h₆ => ?_
  refine (h₆.timerStop.nextMicro (by decide)).andThen fun t₇ h₇ => ?_
  exact (h₇.updateSpg (f := fun R => { R with paused := true, initialised := true }) (fun _ => ⟨rfl, rfl⟩)
    fun r hr => ⟨r, rfl, hr⟩).done 0

variable (hS : s.gen i = some S) (hi : S.initialised = true)
include hS hi

theorem execSpgStep_runs {steps : Word} (hfit : stepsFit steps = true) (hb : ¬isStepping S.remainingTicks = true)
    (v : Level) : Res.Runs (s.CanComplete 5 [S.dirCap.state]) (exec (.spgStep i steps v) s) fun t =>
      Finished s i [S.dirCap.state] 5 { S with remainingTicks := ticksOfSteps steps } (s.driven S.dirCap v) 1 t ∧
        (t.mem.read S.dirCap.state).getLsbD S.dirCap.bit.val = decide (v = .high) := by
  refine .of_eq ((withInitialised_some hS hi _).trans ((whenStepsFit_of_fit hfit _).trans (if_neg hb))) ?_
  refine ((Follows.refl _ hS).nextMicro (by decide)).andThen fun t₁ h₁ => ?_
  exact h₁.acceptStep (by simp) (by decide) steps v

theorem execSpgStepP_runs {steps : Word} (hfit : stepsFit steps = true) (hb : ¬isStepping S.remainingTicks = true)
    (period : Word) (v : Level) :
    Res.Runs (s.CanComplete 11 [S.dirCap.state]) (exec (.spgStepP i steps v period) s) fun t =>
      Finished s i [S.dirCap.state] (if S.paused then 11 else 9)
          { S with remainingTicks := ticksOfSteps steps, paused := false, period := some period }
          (((s.setTimer { s.timer with running := S.paused || s.timer.running }).timerSetPeriod period).driven
            S.dirCap v) 1 t ∧
        (t.mem.read S.dirCap.state).getLsbD S.dirCap.bit.val = decide (v = .high) := by
  have hm : (if S.paused then 11 else 9) = 1 + (if S.paused then 3 else 1) + 7 := by split <;> rfl
  rw [hm]
  refine .of_eq ((withInitialised_some hS hi _).trans ((whenStepsFit_of_fit hfit _).trans (if_neg hb))) ?_
  refine ((Follows.refl _ hS).nextMicro (by decide)).andThen fun t₁ h₁ => ?_
  refine (h₁.resume (by decide)).andThen fun t₂ h₂ => ?_
  exact h₂.requestPeriod (by simp) (by split <;> decide) hb steps period v

theorem execSpgSetPeriod_runs (period : Word) :
    Res.Runs (s.CanComplete 1 []) (exec (.spgSetPeriod i period) s)
      (Finished s i [] 1 { S with period := some period } (s.timerSetPeriod period) 0) := by
  refine .of_eq (withInitialised_some hS hi _) ?_
  refine (((Follows.refl _ hS).setPeriod period).nextMicro (by decide)).andThen fun t₁ h₁ => ?_
  exact (h₁.timerSetPeriod period).done 0

/-- Stop, with r what its second read gives (R178). -/
theorem execSpgStop_runs : Res.Runs (s.CanComplete 5 []) (exec (.spgStop i) s) fun t =>
    ∃ r, Fallen s i S.remainingTicks r ∧ (s.Quiet (1 + stopReadBoundaries s.params) → r = S.remainingTicks) ∧
      Finished s i [] (1 + stopReadBoundaries s.params + stopRearmBoundaries s.params)
        { S with remainingTicks := phaseTicks (isOdd r), paused := !s.params.stopClearsPaused && S.paused }
        s.timerStart (stepsOfTicks S.remainingTicks) t := by
  have hle := stopReadBoundaries_le s.params
  refine .of_eq (withInitialised_some hS hi _) ?_
  refine ((Follows.refl _ hS).nextMicro (by decide)).andThen fun t₁ h₁ => ?_
  refine h₁.timerStop.stopReadsAgain (by decide) fun r t₂ hfall hquiet h₂ => ?_
  exact (h₂.stopRearms (by omega) _ r).mono fun t ht => ⟨r, hfall, hquiet, ht⟩

theorem execSpgPause_runs : Res.Runs (s.CanComplete 1 []) (exec (.spgPause i) s)
    (Finished s i [] 1 { S with paused := true } s.timerStop 0) := by
  refine .of_eq (withInitialised_some hS hi _) ?_
  refine ((Follows.refl _ hS).timerStop.nextMicro (by decide)).andThen fun t₁ h₁ => ?_
  exact (h₁.setPaused true).done 0

theorem execSpgResume_runs (hp : S.paused = true) : Res.Runs (s.CanComplete 2 []) (exec (.spgResume i) s)
    (Finished s i [] 2 { S with paused := false } s.timerStart 0) := by
  refine .of_eq ((withInitialised_some hS hi _).trans (if_pos hp)) ?_
  refine ((Follows.refl _ hS).nextMicro (by decide)).andThen fun t₁ h₁ => ?_
  refine (h₁.timerStart.nextMicro (by decide)).andThen fun t₂ h₂ => ?_
  exact (h₂.setPaused false).done 0

end
end Sys2Proof.Machine.State
end

section
/-! PROOF. The generator commands: completion under every schedule, what each leaves, and the exact state without an
event (41_steppulse.md R173 to R180). -/

namespace Sys2Proof.Machine.State

section
variable {s t u : State} {i : Index} {w : List Addr} {m N : Nat} {S : Generator} {a : Addr} {v : Word}

theorem canComplete_nil (N : Nat) (h : s.HandlerReady) : s.CanComplete N [] := ⟨.inl h, nofun⟩

theorem canComplete_one (N : Nat) (h : s.HandlerReady ∨ s.Quiet N) (ha : s.params.isStorage a = true) :
    s.CanComplete N [a] := ⟨h, fun _ hb => List.mem_singleton.mp hb ▸ ha⟩

theorem asOutput_read (s : State) (c : PinCap) (a : Addr) : (s.asOutput c).mem.read a =
    if a = c.dir then s.mem.read a ||| BitVec.twoPow 8 c.bit.val else s.mem.read a :=
  Memory.read_write_apply ..

/-- The direction pin's register keeps the bits but the driven one. -/
theorem Finished.bitsKept_of_driven {c : PinCap} {l : Level} (h : Finished s i w m S (u.driven c l) v t)
    (hu : u.mem = s.mem) : s.BitsKept t c.state fun k => k = c.bit.val := by
  intro k hk hw
  refine (h.bits c.state k hw).trans ?_
  rw [driven, setMem_mem, Memory.read_write_same, getLsbD_driveBits_other c l _ hk, hu]

/-- What handler runs can leave of a counter loaded with twice the steps. -/
theorem Fallen.of_ticksOfSteps {steps r : Word} (h : Fallen s i (ticksOfSteps steps) r) (hfit : stepsFit steps = true) :
    r.toInt ≤ steps.toInt * 2 ∧ (0 ≤ steps.toInt → 0 ≤ r.toInt) ∧
      (steps.toInt ≤ 0 ∨ s.bound ≠ some i → r.toInt = steps.toInt * 2) := by
  have htwice := toInt_ticksOfSteps hfit
  refine ⟨htwice ▸ h.le, fun hpos => h.nonneg (by omega), fun hstay => ?_⟩
  rw [hstay.elim (fun hneg => h.stuck (by omega)) h.unbound, htwice]

/-- A phase of 0 or 1 tick stays one of the two. -/
theorem Fallen.of_phaseTicks {b : Bool} {r : Word} (h : Fallen s i (phaseTicks b) r) : r = 0 ∨ r = 1 := by
  cases b with
  | false => exact .inl (h.stuck (show (0 : Word).toInt ≤ 0 by decide))
  | true =>
    have hle : r.toInt ≤ 1 := h.le
    have hnonneg : 0 ≤ r.toInt := h.nonneg (show 0 ≤ (1 : Word).toInt by decide)
    have hr : r.toInt = (0 : Word).toInt ∨ r.toInt = (1 : Word).toInt := by
      rw [show (0 : Word).toInt = 0 by decide, show (1 : Word).toInt = 1 by decide]
      omega
    exact hr.imp BitVec.eq_of_toInt_eq BitVec.eq_of_toInt_eq

/-- With the timer stopped a boundary takes at most one tick off a counter, one that was latched (R229). -/
theorem Cut.counter_of_stopped {n : Nat} (c : Cut s t n) (hstop : s.timer.running = false) (hS : s.gen i = some S) :
    ∃ r, t.gen i = some { S with remainingTicks := r } ∧ (r = S.remainingTicks ∨
      s.timer.pending = true ∧ s.ie = true ∧ s.bound = some i ∧ r.toInt = S.remainingTicks.toInt - 1) := by
  obtain ⟨k, hk, hunbound, hbound⟩ := c.gen_some hS
  obtain ⟨hone, hnone, -⟩ := c.stopped hstop
  refine ⟨_, hk.trans (congrArg some (Generator.lowered_eq k S)), ?_⟩
  by_cases hkept : k = 0 ∨ isStepping S.remainingTicks = false
  · refine .inl (hkept.elim (fun h0 => ?_) fun hidle => ?_)
    · rw [h0, Generator.lowered_zero]
    · rw [Generator.lowered_of_not_stepping k hidle]
  · obtain ⟨hk0, hmoves⟩ := not_or.mp hkept
    have hstep : isStepping S.remainingTicks = true := Bool.of_not_eq_false hmoves
    have hb : s.bound = some i := by_contra fun h => hk0 (hunbound h)
    obtain rfl := hbound hb
    obtain rfl : k = 1 := by omega
    refine .inr ⟨?_, ?_, hb, ?_⟩
    · exact Bool.of_not_eq_false fun h => hk0 (hnone h).1
    · exact Bool.of_not_eq_false fun h => hk0 (c.masked h).1
    · rw [Generator.lowered_succ, if_pos hstep, Generator.lowered_zero, toInt_oneTickLess hstep]

/-- An index not constructed is not the target, where the target's handler can run. -/
theorem HandlerReady.bound_ne (h : s.HandlerReady) (hi : s.gen i = none) : s.bound ≠ some i := by
  intro hb
  obtain ⟨B, hB, -⟩ := h i hb
  simp [hi] at hB

theorem HandlerReady.putGen (h : s.HandlerReady) (hi : s.gen i = none) (S : Generator) :
    (s.putGen i S).HandlerReady := by
  intro b hb
  obtain ⟨B, hB, hstorage⟩ := h b hb
  refine ⟨B, ?_, hstorage⟩
  rw [putGen_gen, if_neg, hB]
  rintro rfl
  exact h.bound_ne hi hb

end

/-- Settles O41: the events of the one boundary find the target as it was, and the new generator is not yet it. -/
theorem spgConstructBindsTheFirst : Obligations.SpgConstructBindsTheFirst := by
  intro s i d p hready hi
  have hbound := hready.bound_ne hi
  obtain ⟨u, n, hu, hcut, -⟩ := nextMicro_next (hready.putGen hi (Generator.build s.params d p))
  have hexec : exec (.spgConstruct i d p) s = .next ((u.setBound (u.bound.orElse fun _ => some i)).answered 0) := by
    rw [exec, execSpgConstruct, hi]
    simp only [hu, Res.andThen_next, done_eq]
  have hothers : s.OthersKept u i := by
    intro j hj
    have hput : (s.putGen i (Generator.build s.params d p)).gen j = s.gen j := by rw [putGen_gen, if_neg hj.symm]
    rw [hcut.gen, hput]
    split
    · next hb => exact .inr ⟨hb, n, rfl⟩
    · exact .inl rfl
  refine ⟨_, hexec, ⟨rfl, rfl, congrArg (fun k => Place.mk (k + 1) 1) hcut.place, hcut.params, hcut.ie, hcut.cmds⟩,
    ⟨hcut.running, hcut.period, hcut.handler⟩, ⟨hcut.groups, hothers, fun a _ => hcut.bitsKept_of_putGen a⟩,
    hcut.draws, ?_, ?_⟩
  · rw [answered_bound, setBound_bound, hcut.bound, putGen_bound]
    cases s.bound <;> rfl
  · rw [answered_gen, setBound_gen, hcut.gen, putGen_bound, if_neg hbound, putGen_gen_same]
    rfl

/-- Settles O42: the two updates stand in the undisturbed state, and the last part writes the flags. -/
theorem spgInitLeavesPaused : Obligations.SpgInitLeavesPaused := by
  intro s i S hready hS hdir hstep withDir
  have hwith : ∀ a, (s.asOutput S.dirCap).mem.read a = withDir a := asOutput_read s S.dirCap
  have hcan : s.CanComplete 11 [S.dirCap.dir, S.stepCap.dir] := ⟨.inl hready, by simp [hdir, hstep]⟩
  obtain ⟨t, ht, hfin⟩ := (execSpgInit_runs hS).exists_next hcan
  obtain ⟨r, hr, hfall⟩ := hfin.counter
  obtain ⟨hrun, hper, hhan⟩ := hfin.timer
  refine ⟨t, r, ht, hfin.completed, hfin.framed, hfin.bound, hrun, hhan, hper, hfin.draws, fun hw => ?_,
    fun hw => ?_, hr, hfall.le, hfall.nonneg, fun h => h.elim hfall.stuck hfall.unbound⟩
  · rw [hfin.read hw]
    exact (asOutput_read ..).trans (by rw [hwith])
  · rw [hfin.read hw]
    exact (asOutput_read ..).trans (by rw [hwith, if_pos rfl])

/-- Settles O44: the request is accepted, and `driven` is the statement's register. -/
theorem spgStepLoadsTheCounter : Obligations.SpgStepLoadsTheCounter := by
  intro s i S steps v hS hi hticks hlow hhigh hstorage
  have hfit := stepsFit_iff.mpr ⟨hlow, hhigh⟩
  have hb : ¬isStepping S.remainingTicks = true := by rw [isStepping_iff]; omega
  have hruns := execSpgStep_runs hS hi hfit hb v
  refine ⟨fun hready => ?_, fun hquiet => ?_⟩
  · obtain ⟨t, ht, hfin, hbit⟩ := hruns.exists_next (canComplete_one 5 (.inl hready) hstorage)
    obtain ⟨r, hr, hfall⟩ := hfin.counter
    obtain ⟨hle, hnonneg, hexact⟩ := hfall.of_ticksOfSteps hfit
    exact ⟨t, r, ht, hfin.completed, hfin.timer, hfin.framed, hfin.bound, hfin.draws, hbit,
      hfin.bitsKept_of_driven rfl, hr, hle, hnonneg, hexact⟩
  · obtain ⟨t, ht, hfin, -⟩ := hruns.exists_next (canComplete_one 5 (.inr hquiet) hstorage)
    rw [ht, hfin.quiet hquiet, ← driveBits_level, State.setTicks, updateSpg_eq_putGen hS]
    rfl

/-- Settles O45: the second busy test finds the counter as the first did, so that the request is accepted. -/
theorem spgStepPResumesAndLoads : Obligations.SpgStepPResumesAndLoads := by
  intro s i S steps period v hS hi hticks hlow hhigh hstorage
  have hfit := stepsFit_iff.mpr ⟨hlow, hhigh⟩
  have hb : ¬isStepping S.remainingTicks = true := by rw [isStepping_iff]; omega
  have hruns := execSpgStepP_runs hS hi hfit hb period v
  refine ⟨fun hready => ?_, fun hquiet => ?_⟩
  · obtain ⟨t, ht, hfin, hbit⟩ := hruns.exists_next (canComplete_one 11 (.inl hready) hstorage)
    obtain ⟨r, hr, hfall⟩ := hfin.counter
    obtain ⟨hle, hnonneg, hexact⟩ := hfall.of_ticksOfSteps hfit
    obtain ⟨hrun, hper, hhan⟩ := hfin.timer
    exact ⟨t, r, ht, hfin.completed, hfin.framed, hfin.bound, hfin.draws, hrun, hper, hhan, hbit,
      hfin.bitsKept_of_driven rfl, hr, hle, hnonneg, hexact⟩
  · obtain ⟨t, ht, hfin, -⟩ := hruns.exists_next (canComplete_one 11 (.inr hquiet) hstorage)
    have hm : (if S.paused then 11 else 9) ≤ 11 := by split <;> decide
    rw [ht, hfin.quiet (hquiet.mono hm), ← driveBits_level]
    rfl

/-- Settles O46: the generator's period is written before the boundary, the timer's after it. -/
theorem setPeriodWritesBothPeriods : Obligations.SetPeriodWritesBothPeriods := by
  intro s i S period hready hS hi
  obtain ⟨t, ht, hfin⟩ := (execSpgSetPeriod_runs hS hi period).exists_next (canComplete_nil 1 hready)
  obtain ⟨r, hr, hfall⟩ := hfin.counter
  obtain ⟨hrun, hper, hhan⟩ := hfin.timer
  exact ⟨t, r, ht, hfin.completed, hfin.framed, hfin.bound, hfin.draws, hrun, hhan, hper, hr, hfall.le, hfall.nonneg,
    fun h => h.elim hfall.stuck hfall.unbound, fun hq => ⟨hfin.counter_of_quiet hr hq, hfin.mem_of_quiet hq⟩⟩

/-- Settles O47: the counter is the parity of the second read, less a handler run while it is 1. -/
theorem spgStopKeepsOnlyThePhase : Obligations.SpgStopKeepsOnlyThePhase := by
  intro s i S hS hi
  have hruns := execSpgStop_runs hS hi
  refine ⟨fun hready => ?_, fun hquiet htwice hclears => ?_⟩
  · obtain ⟨t, ht, r₂, hread, -, hfin⟩ := hruns.exists_next (canComplete_nil 5 hready)
    obtain ⟨r, hr, hfall⟩ := hfin.counter
    obtain ⟨hrun, hper, hhan⟩ := hfin.timer
    refine ⟨t, r, ht, hfin.completed, hfin.framed, hfin.bound, hfin.draws, hrun, hper, hhan, hr, hfall.of_phaseTicks,
      fun hunbound => ?_⟩
    rw [hfall.unbound hunbound, hread.unbound hunbound, phaseTicks_isOdd]
  · obtain ⟨t, ht, r₂, -, hread, hfin⟩ := hruns.exists_next ⟨.inr hquiet, nofun⟩
    simp only [stopReadBoundaries, stopRearmBoundaries, htwice, hclears, if_true] at hread hfin
    rw [hread (hquiet.mono (by decide)), phaseTicks_isOdd] at hfin
    rw [ht, hfin.quiet hquiet]
    rfl

/-- Settles O48: the one boundary comes after the timer has been stopped. -/
theorem pauseStopsTheTimer : Obligations.PauseStopsTheTimer := by
  intro s i S hready hS hi
  obtain ⟨t, ht, hfin⟩ := (execSpgPause_runs hS hi).exists_next (canComplete_nil 1 hready)
  obtain ⟨hrun, hper, hhan⟩ := hfin.timer
  obtain ⟨u, hu, hdone⟩ := Res.andThen_eq_next.mp ((withInitialised_some hS hi _).symm.trans ht)
  obtain ⟨n, hcut⟩ := nextMicro_cut hu
  obtain ⟨r, hr, htick⟩ := hcut.counter_of_stopped rfl hS
  obtain rfl := done_eq_next.mp hdone
  refine ⟨_, r, ht, hfin.completed, hfin.framed, hfin.bound, hfin.draws, hrun, hper, hhan, ?_, htick, fun hp => ?_⟩
  · rw [answered_gen, setPaused_gen, if_pos rfl, hr]
    rfl
  · obtain ⟨hn, hpending⟩ := (hcut.stopped rfl).2.1 hp
    exact ⟨(hcut.idle hn).1, hpending⟩

/-- Settles O49: the flag decides whether the body runs; after it the flag is clear. -/
theorem resumeStartsTheTimer : Obligations.ResumeStartsTheTimer := by
  intro s i S hS hi
  refine ⟨exec_spgResume_of_not_paused hS hi, fun hp hready => ?_⟩
  obtain ⟨t, ht, hfin⟩ := (execSpgResume_runs hS hi hp).exists_next (canComplete_nil 2 hready)
  obtain ⟨r, hr, hfall⟩ := hfin.counter
  obtain ⟨hrun, hper, hhan⟩ := hfin.timer
  exact ⟨t, r, ht, hfin.completed, hfin.framed, hfin.bound, hfin.draws, hrun, hper, hhan, hr, hfall.le, hfall.nonneg,
    fun h => h.elim hfall.stuck hfall.unbound, fun hq => ⟨hfin.counter_of_quiet hr hq, hfin.mem_of_quiet hq⟩,
    exec_spgResume_of_not_paused hr hi rfl⟩

end Sys2Proof.Machine.State
end

section
/-! PROOF. The generator's three states, trains of ticks, the tick after an odd stop, and what leaves a generator alone
(41_steppulse.md R181, R186 to R189; 10_state.md R44, R46). -/

namespace Sys2Proof.Machine

/-! ## The three states -/

theorem Generator.phase_of_paused {S : Generator} (h : S.paused = true) : S.phase = .paused := if_pos h

theorem Generator.phase_of_not_paused {S : Generator} (h : S.paused = false) :
    S.phase = if 0 < S.remainingTicks.toInt then .stepping else .idle := by
  simp [Generator.phase, h, isStepping]

theorem Generator.phase_eq_paused {S : Generator} : S.phase = .paused ↔ S.paused = true := by
  refine ⟨fun h => ?_, Generator.phase_of_paused⟩
  by_contra hp
  rw [Bool.not_eq_true] at hp
  rw [Generator.phase_of_not_paused hp] at h
  split at h <;> cases h

/-- A counter that keeps only the phase is positive just after an odd one (R178). -/
theorem toInt_phaseTicks_pos (r : Word) : 0 < (phaseTicks (isOdd r)).toInt ↔ r.toInt % 2 ≠ 0 := by
  rw [phaseTicks_isOdd]
  by_cases h : r.toInt % 2 = 0 <;> simp [h]

namespace State

section
variable {s t : State} {k : Index} {S S' : Generator}

/-- A completed command that needs an initialised generator has found it so. -/
theorem initialised_of_exec {i : Instr} (hi : i.needsInitialised = some k) (hS : s.gen k = some S)
    (h : exec i s = .next t) : S.initialised = true := by
  obtain ⟨body, hbody⟩ := exec_eq_withInitialised hi s
  obtain ⟨R, hR, hini, -⟩ := withInitialised_eq_next.mp (hbody ▸ h)
  obtain rfl := Option.some.inj (hS.symm.trans hR)
  exact hini

/-- A completed step request was in range. -/
theorem stepsFit_of_exec {steps : Word} {v : Level} (hS : s.gen k = some S)
    (h : exec (.spgStep k steps v) s = .next t ∨ ∃ p, exec (.spgStepP k steps v p) s = .next t) :
    stepsFit steps = true := by
  by_contra hfit
  rcases h with h | ⟨p, h⟩
  · obtain ⟨hrefused, -⟩ := step_request_refused hS (initialised_of_exec rfl hS h) hfit 0 v
    cases h.symm.trans hrefused
  · obtain ⟨-, hrefused⟩ := step_request_refused hS (initialised_of_exec rfl hS h) hfit p v
    cases h.symm.trans hrefused

/-- A completed command that only answered has left the generator as it was. -/
theorem eq_of_answered {r : Res} {v : Word} (hS : s.gen k = some S) (hS' : t.gen k = some S')
    (hr : r = .next (s.answered v)) (h : r = .next t) : S' = S := by
  obtain rfl := Host.Outcome.next.inj (h.symm.trans hr)
  exact Option.some.inj (hS'.symm.trans hS)

/-- What an undisturbed command has left of the generator is what it has there at its end. -/
theorem Finished.eq_of_quiet {w : List Addr} {m : Nat} {R : Generator} {u : State} {v : Word}
    (h : Finished s k w m R u v t) (hq : s.Quiet m) (hS' : t.gen k = some S') : S' = R :=
  Option.some.inj (hS'.symm.trans (h.gen_of_quiet hq))

variable (hS : s.gen k = some S) (hS' : t.gen k = some S') (hq : s.Quiet 11)
include hS hS' hq

theorem spgInit_phase (h : exec (.spgInit k) s = .next t) : S'.phase = .paused := by
  obtain rfl := ((execSpgInit_runs hS).result t h).eq_of_quiet hq hS'
  exact Generator.phase_of_paused rfl

theorem spgPause_phase (h : exec (.spgPause k) s = .next t) : S'.phase = .paused := by
  have hi := initialised_of_exec rfl hS h
  obtain rfl := ((execSpgPause_runs hS hi).result t h).eq_of_quiet (hq.mono (by decide)) hS'
  exact Generator.phase_of_paused rfl

theorem spgResume_phase (h : exec (.spgResume k) s = .next t) :
    S'.phase = if 0 < S.remainingTicks.toInt then .stepping else .idle := by
  have hi := initialised_of_exec rfl hS h
  cases hp : S.paused with
  | true =>
    obtain rfl := ((execSpgResume_runs hS hi hp).result t h).eq_of_quiet (hq.mono (by decide)) hS'
    exact Generator.phase_of_not_paused rfl
  | false =>
    obtain rfl := eq_of_answered hS hS' (exec_spgResume_of_not_paused hS hi hp) h
    exact Generator.phase_of_not_paused hp

theorem spgStop_phase (htwice : s.params.stopReadsTwice = true) (hclears : s.params.stopClearsPaused = true)
    (h : exec (.spgStop k) s = .next t) :
    S'.phase = if S.remainingTicks.toInt % 2 = 0 then .idle else .stepping := by
  obtain ⟨r, -, hread, hfin⟩ := (execSpgStop_runs hS (initialised_of_exec rfl hS h)).result t h
  simp only [stopReadBoundaries, stopRearmBoundaries, htwice, hclears, if_true] at hread hfin
  obtain rfl := hread (hq.mono (by decide))
  obtain rfl := hfin.eq_of_quiet (hq.mono (by decide)) hS'
  rw [Generator.phase_of_not_paused rfl]
  simp only [toInt_phaseTicks_pos, ne_eq, ite_not]

theorem spgStep_phase {steps : Word} {v : Level} (h : exec (.spgStep k steps v) s = .next t) : S'.phase =
    if S.remainingTicks.toInt ≤ 0 ∧ S.phase ≠ .paused then if 0 < steps.toInt then .stepping else .idle
    else S.phase := by
  have hi := initialised_of_exec rfl hS h
  have hfit := stepsFit_of_exec hS (.inl h)
  by_cases hb : isStepping S.remainingTicks = true
  · obtain rfl := eq_of_answered hS hS' (step_request_busy hS hi hfit hb 0 v).1 h
    rw [if_neg fun hidle => not_lt.mpr hidle.1 (isStepping_iff.mp hb)]
  · obtain ⟨hfin, -⟩ := (execSpgStep_runs hS hi hfit hb v).result t h
    obtain rfl := hfin.eq_of_quiet (hq.mono (by decide)) hS'
    rw [isStepping_iff, not_lt] at hb
    by_cases hp : S.paused = true
    · have hphase := Generator.phase_of_paused hp
      rw [if_neg fun hidle => hidle.2 hphase, hphase]
      exact Generator.phase_of_paused hp
    · have hloaded : ({ S with remainingTicks := ticksOfSteps steps } : Generator).paused = false :=
        Bool.eq_false_of_not_eq_true hp
      rw [if_pos ⟨hb, Generator.phase_eq_paused.not.mpr hp⟩, Generator.phase_of_not_paused hloaded]
      simp [toInt_ticksOfSteps hfit]

theorem spgStepP_phase {steps p : Word} {v : Level} (h : exec (.spgStepP k steps v p) s = .next t) : S'.phase =
    if 0 < S.remainingTicks.toInt then S.phase else if 0 < steps.toInt then .stepping else .idle := by
  have hi := initialised_of_exec rfl hS h
  have hfit := stepsFit_of_exec hS (.inr ⟨p, h⟩)
  by_cases hb : isStepping S.remainingTicks = true
  · obtain rfl := eq_of_answered hS hS' (step_request_busy hS hi hfit hb p v).2 h
    rw [if_pos (isStepping_iff.mp hb)]
  · obtain ⟨hfin, -⟩ := (execSpgStepP_runs hS hi hfit hb p v).result t h
    obtain rfl := hfin.eq_of_quiet (hq.mono (by split <;> decide)) hS'
    rw [if_neg (isStepping_iff.not.mp hb), Generator.phase_of_not_paused rfl]
    simp [toInt_ticksOfSteps hfit]

theorem spgSetPeriod_phase {p : Word} (h : exec (.spgSetPeriod k p) s = .next t) : S'.phase = S.phase := by
  have hi := initialised_of_exec rfl hS h
  obtain rfl := ((execSpgSetPeriod_runs hS hi p).result t h).eq_of_quiet (hq.mono (by decide)) hS'
  rfl

end

end State

open State

/-- Settles O51: one row of R187 for each command. -/
theorem commandsMoveBetweenPhases : Obligations.CommandsMoveBetweenPhases :=
  fun _ _ _ _ _ hS hS' hq htwice hclears =>
    ⟨spgInit_phase hS hS' hq, spgPause_phase hS hS' hq, spgResume_phase hS hS' hq,
      spgStop_phase hS hS' hq htwice hclears, fun _ _ => spgStep_phase hS hS' hq, fun _ _ _ => spgStepP_phase hS hS' hq,
      fun _ => spgSetPeriod_phase hS hS' hq⟩

/-! ## Ticks -/

/-- A byte after n toggles by the mask m. -/
def toggled (n : Int) (m x : Byte) : Byte := if n % 2 = 0 then x else x ^^^ m

theorem toggled_toggled (n n' : Int) (m x : Byte) : toggled n' m (toggled n m x) = toggled (n + n') m x := by
  rcases Int.emod_two_eq n with h | h
  · simp [toggled, h, Int.add_emod n]
  · rcases Int.emod_two_eq n' with h' | h' <;> simp [toggled, h, h', Int.add_emod n]

/-- From s to t n ticks of the target b, there with the record B, have been handled, and nothing else has happened
(R181). -/
structure Ticked (n : Nat) (b : Index) (B : Generator) (s t : State) : Prop where
  bound : t.bound = s.bound
  params : t.params = s.params
  cmds : t.cmds = s.cmds
  sched : t.sched = s.sched
  ie : t.ie = s.ie
  running : t.timer.running = s.timer.running
  handler : t.timer.handler = s.timer.handler
  gen : t.gen b = some (B.lowered n)
  others : ∀ j, j ≠ b → t.gen j = s.gen j
  pin : t.mem.read B.stepCap.state =
    toggled (min n B.remainingTicks.toInt) B.stepCap.mask (s.mem.read B.stepCap.state)
  registers : ∀ a, a ≠ B.stepCap.state → t.mem.read a = s.mem.read a

section
variable {n : Nat} {b : Index} {B : Generator} {s t u : State}

theorem Ticked.zero (hB : s.gen b = some B) (hpos : 0 ≤ B.remainingTicks.toInt) : Ticked 0 b B s s :=
  ⟨rfl, rfl, rfl, rfl, rfl, rfl, rfl, hB, fun _ _ => rfl, by simp [toggled, hpos], fun _ _ => rfl⟩

/-- One tick, and then n of the generator as it has left it. -/
theorem Ticked.succ (h : Ticked 1 b B s t) (h' : Ticked n b (B.lowered 1) t u) (hpos : 0 ≤ B.remainingTicks.toInt) :
    Ticked (n + 1) b B s u where
  bound := h'.bound.trans h.bound
  params := h'.params.trans h.params
  cmds := h'.cmds.trans h.cmds
  sched := h'.sched.trans h.sched
  ie := h'.ie.trans h.ie
  running := h'.running.trans h.running
  handler := h'.handler.trans h.handler
  gen := by rw [h'.gen, Generator.lowered_lowered, Nat.add_comm]
  others j hj := (h'.others j hj).trans (h.others j hj)
  pin := by
    have hcount : min ((1 : Nat) : Int) B.remainingTicks.toInt + min (n : Int) (B.lowered 1).remainingTicks.toInt =
        min ((n + 1 : Nat) : Int) B.remainingTicks.toInt := by
      rw [Generator.lowered_toInt]
      split <;> omega
    have hpin := h'.pin
    rw [Generator.lowered_stepCap] at hpin
    rw [hpin, h.pin, toggled_toggled, hcount]
  registers a ha := (h'.registers a (by rwa [Generator.lowered_stepCap])).trans (h.registers a ha)

theorem Ticked.setSched (h : Ticked n b B s t) (ts : List Turn) : Ticked n b B (s.setSched ts) (t.setSched ts) :=
  ⟨h.bound, h.params, h.cmds, rfl, h.ie, h.running, h.handler, h.gen, h.others, h.pin, h.registers⟩

theorem afterTick_mem (hb : s.bound = some b) (hB : s.gen b = some B) : s.afterTick.mem =
    if isStepping B.remainingTicks then
      s.mem.write B.stepCap.state (toggleBits B.stepCap.mask (s.mem.read B.stepCap.state))
    else s.mem := by
  unfold afterTick
  simp only [hb, hB]
  split <;> rfl

/-- One handler run is one tick handled (R181). -/
theorem afterTick_ticked (hb : s.bound = some b) (hB : s.gen b = some B) (hpos : 0 ≤ B.remainingTicks.toInt) :
    Ticked 1 b B s s.afterTick where
  bound := afterTick_bound s
  params := afterTick_params s
  cmds := afterTick_cmds s
  sched := afterTick_sched s
  ie := afterTick_ie s
  running := congrArg Timer.running (afterTick_timer s)
  handler := congrArg Timer.handler (afterTick_timer s)
  gen := by rw [afterTick_gen, if_pos hb, hB]; rfl
  others j hj := by
    rw [afterTick_gen, if_neg]
    rintro hj'
    exact hj (Option.some.inj (hj'.symm.trans hb))
  pin := by
    rw [afterTick_mem hb hB]
    by_cases hstep : isStepping B.remainingTicks = true
    · have hone : min ((1 : Nat) : Int) B.remainingTicks.toInt = 1 := by
        have := isStepping_iff.mp hstep
        omega
      rw [if_pos hstep, Memory.read_write_same, hone]
      rfl
    · have hnone : min ((1 : Nat) : Int) B.remainingTicks.toInt = 0 := by
        rw [isStepping_iff] at hstep
        omega
      rw [if_neg hstep, hnone]
      rfl
  registers a ha := by
    rw [afterTick_mem hb hB]
    split
    · exact Memory.read_write_other _ _ ha
    · rfl

/-- A pending tick delivered with `IE = 1` is entry, one handler run and return (R222, R224, R227). -/
theorem deliver_of_pending (hready : s.HandlerReady) (hhan : s.timer.handler = some .dispatch)
    (hpending : s.timer.pending = true) (hie : s.ie = true) :
    s.deliver = .next s.enterHandler.afterTick.leaveHandler := by
  have hdispatch : runHandler .dispatch s.enterHandler = .next s.enterHandler.afterTick :=
    dispatch_next (s := s.enterHandler) hready
  unfold deliver
  simp only [hhan, hpending, hie, hdispatch, Bool.and_self, if_true, Res.andThen_next]

/-- With the timer running and `IE = 1` a tick that fires is delivered and handled (R181, R218, R222). -/
theorem fire_deliver_ticked (hb : s.bound = some b) (hB : s.gen b = some B)
    (hstorage : s.params.isStorage B.stepCap.state = true) (hrun : s.timer.running = true)
    (hhan : s.timer.handler = some .dispatch) (hie : s.ie = true) (hpos : 0 ≤ B.remainingTicks.toInt) :
    ∃ t, s.fire.deliver = .next t ∧ Ticked 1 b B s t := by
  have hfire : s.fire = s.setTimer { s.timer with pending := true } := if_pos (by simp [Timer.canFire, hrun, hhan])
  have hready : s.HandlerReady := by
    intro c hc
    obtain rfl := Option.some.inj (hb.symm.trans hc)
    exact ⟨B, hB, hstorage⟩
  rw [hfire]
  refine ⟨_, deliver_of_pending (s := s.setTimer { s.timer with pending := true }) hready hhan rfl hie, ?_⟩
  have h := afterTick_ticked (s := (s.setTimer { s.timer with pending := true }).enterHandler) hb hB hpos
  exact ⟨h.bound, h.params, h.cmds, h.sched, hie.symm, h.running, h.handler, h.gen, h.others, h.pin, h.registers⟩

/-- A tick that fires and is delivered between two commands is two steps (R12, R237). -/
theorem run_fire_deliver {rest : List Turn} (hs : s.sched = .fire :: .deliver :: rest)
    (h : (s.setSched rest).fire.deliver = .next t) (n : Nat) :
    Host.Core.run Sys2Proof.core (2 * (n + 1)) s = Host.Core.run Sys2Proof.core (2 * n) t := by
  obtain ⟨hfire, hdeliver, -⟩ := stepWithoutCommand
  have hsched : ∀ ts, (s.setSched ts).fire = s.fire.setSched ts := fun ts => by
    unfold fire
    rw [setSched_timer]
    split <;> rfl
  have hfired := hfire s _ hs
  have hdelivered := hdeliver (s.setSched (.deliver :: rest)).fire rest (by rw [hsched, setSched_sched])
  have hlast : (s.setSched (.deliver :: rest)).fire.setSched rest = (s.setSched rest).fire := by
    rw [hsched, hsched]
    rfl
  rw [Nat.mul_succ, run_next hfired, run_next (hdelivered.trans (hlast ▸ h))]

end

/-- A train of k ticks, each fired and delivered, runs in 2k steps (R186). -/
theorem run_train (k : Nat) {s : State} {b : Index} {B : Generator} {rest : List Turn} (hb : s.bound = some b)
    (hB : s.gen b = some B) (hstorage : s.params.isStorage B.stepCap.state = true) (hrun : s.timer.running = true)
    (hhan : s.timer.handler = some .dispatch) (hie : s.ie = true)
    (hs : s.sched = (List.replicate k [Turn.fire, Turn.deliver]).flatten ++ rest)
    (hpos : 0 ≤ B.remainingTicks.toInt) :
    ∃ t, Host.Core.run Sys2Proof.core (2 * k) s = .next t ∧ Ticked k b B (s.setSched rest) t := by
  induction k generalizing s B with
  | zero =>
    have hself : s.setSched rest = s := by
      rw [show rest = s.sched from hs.symm]
      rfl
    exact ⟨s, rfl, hself ▸ Ticked.zero hB hpos⟩
  | succ k ih =>
    rw [List.replicate_succ, List.flatten_cons] at hs
    obtain ⟨u, hu, htick⟩ := fire_deliver_ticked
      (s := s.setSched ((List.replicate k [Turn.fire, Turn.deliver]).flatten ++ rest)) hb hB hstorage hrun hhan hie hpos
    have hpos' : 0 ≤ (B.lowered 1).remainingTicks.toInt := by
      rw [Generator.lowered_toInt]
      split <;> omega
    obtain ⟨t, ht, htrain⟩ := ih (htick.bound.trans hb) htick.gen
      (by rw [Generator.lowered_stepCap, htick.params]; exact hstorage) (htick.running.trans hrun)
      (htick.handler.trans hhan) (htick.ie.trans hie) htick.sched hpos'
    exact ⟨t, (run_fire_deliver hs hu k).trans ht, (htick.setSched rest).succ htrain hpos⟩

/-- Settles O52: k ticks have been handled, and the counter is the lowered one. -/
theorem ticksRunTheTrain : Obligations.TicksRunTheTrain := by
  intro k s b B rest hb hB hstorage hrun hhan hie hs hpos
  obtain ⟨t, ht, h⟩ := run_train k hb hB hstorage hrun hhan hie hs hpos
  refine ⟨t, _, ht, h.sched, h.cmds, h.ie.trans hie, h.gen.trans (congrArg some (Generator.lowered_eq k B)), ?_, h.pin,
    h.registers, h.others⟩
  rw [Generator.lowered_toInt]
  split <;> omega

/-- Settles O53: the counter is 1, so that the generator is busy and one more tick is left. -/
theorem oddStopClosesThePulse : Obligations.OddStopClosesThePulse := by
  intro s t b B hB hb hquiet htwice hclears hhan hie hstorage hodd h
  have hi := initialised_of_exec rfl hB h
  have hstop := (spgStopKeepsOnlyThePhase s b B hB hi).2 hquiet htwice hclears
  rw [if_neg hodd] at hstop
  have hone : 0 < (1 : Word).toInt := by decide
  have hbusy := @step_request_busy t b { B with remainingTicks := 1, paused := false }
  have hnext := @fire_deliver_ticked b { B with remainingTicks := 1, paused := false } t
  obtain rfl := Host.Outcome.next.inj (h.symm.trans hstop)
  refine ⟨fun steps v hlow hhigh => ?_, ?_⟩
  · have hfit := stepsFit_iff.mpr ⟨hlow, hhigh⟩
    exact (hbusy (putGen_gen_same ..) hi hfit (isStepping_iff.mpr hone) 0 v).1
  · obtain ⟨u, hu, htick⟩ := hnext hb (putGen_gen_same ..) hstorage rfl hhan hie hone.le
    exact ⟨u, hu, htick.gen, htick.pin⟩

/-- A command that does not name generator j leaves it alone, unless it is the target (R189). -/
theorem State.exec_gen_of_unbound {i : Instr} {j : Index} {s t : State} (hi : i.generator ≠ some j)
    (hj : s.bound ≠ some j) (h : exec i s = .next t) : t.gen j = s.gen j := by
  rcases i.generator_cases with hnone | ⟨k, d, p, rfl⟩ | ⟨k, hk, hc⟩
  · rcases exec_group_eq_next hnone h with ⟨g, first, rest, -, -, rfl⟩ | ⟨-, rfl⟩ | ⟨-, rfl⟩ | ⟨n, v, rfl⟩ |
      ⟨u, m, hu, rfl, -⟩
    · rfl
    · rfl
    · rfl
    · rfl
    · exact hu.gen j
  · have hkj : k ≠ j := fun e => hi (congrArg some e)
    obtain ⟨-, u, n, hcut, rfl⟩ := exec_spgConstruct_eq_next h
    rw [answered_gen, setBound_gen, hcut.gen, putGen_bound, if_neg hj, putGen_gen, if_neg hkj]
  · have hjk : j ≠ k := fun e => hi (e ▸ hk)
    obtain ⟨u, v, hparts, rfl⟩ := exec_parts hk hc h
    exact (hparts.kept.others j hjk).resolve_right fun hbound => hj hbound.1

/-- Settles O54: events lower the target only, an ILLEGAL command touches no generator, and a command on another
generator leaves this one to its events. -/
theorem unboundGeneratorNeverTicks : Obligations.UnboundGeneratorNeverTicks := by
  intro s t j h hj
  rcases step_eq_next h with ⟨n, hcut, -⟩ | ⟨-, w0, operands, rest, -, rfl⟩ |
    ⟨hm, w0, operands, rest, i, hf, hd, hp, hexec⟩
  · exact .inl (by rw [hcut.gen, if_neg hj])
  · exact .inl rfl
  · by_cases hi : i.generator = some j
    · exact .inr ⟨hm, w0, operands, rest, i, hf, hd, hp, hi, hexec⟩
    · exact .inl (exec_gen_of_unbound (s := s.afterFetch rest) hi hj hexec)

end Sys2Proof.Machine
end

section
/-! PROOF. What the two system commands do (42_system.md R200, R201). -/

namespace Sys2Proof.Machine

/-! ## The system commands -/

/-- No event stands between the write of `IE` and the answer, so any schedule gives the same state (R200). -/
theorem exec_sysIrqDisable (s : State) : exec .sysIrqDisable s = .next ((s.setIe false).answered 0) :=
  State.done_eq ..

/-- The previous `IE` is not tested (R201). -/
theorem exec_sysIrqEnable (s : State) : exec .sysIrqEnable s = .next ((s.setIe true).answered 0) :=
  State.done_eq ..

/-- Settles O31: each command is its one write of `IE` and the answer. -/
theorem systemCommandsWriteTheEnable : Obligations.SystemCommandsWriteTheEnable :=
  fun s => ⟨exec_sysIrqDisable s, exec_sysIrqEnable s⟩

end Sys2Proof.Machine
end

section
/-! PROOF. No step faults: from a state that meets the invariant a command completes or is refused by name
(60_exceptions.md R210, R214; 20_memory.md R61). -/

namespace Sys2Proof.Machine

/-- Why a command is refused: U1 to U5, and words that end inside a command (log 15). -/
def commandRefusals : List Refusal :=
  [.notConstructed, .invalidGroup, .alreadyConstructed, .notInitialised, .stepsOutOfRange, .truncatedCommand]

/-- A step or a part of one goes on to a next state, or is refused as a command can be; it does not fault. -/
def FaultFree (r : Res) : Prop := (∃ t, r = .next t) ∨ ∃ e, r = .refused e ∧ e ∈ commandRefusals

theorem FaultFree.of_refused {r : Res} {e : Refusal} (h : r = .refused e) (he : e ∈ commandRefusals) :
    FaultFree r := .inr ⟨e, h, he⟩

namespace State

section
variable {s : State} {g k : Index} {G : PinGroup} {S : Generator} {i : Instr}

/-! ## The registers of an instance exist -/

theorem Sound.group_registers (h : s.Sound) (hG : s.group g = some G) :
    s.params.isStorage G.stateAddr = true ∧ s.params.isStorage G.dirAddr = true ∧
      s.params.isValueReg G.valueAddr = true := by
  obtain ⟨first, rest, -, rfl⟩ := h.groups g G hG
  exact ⟨s.params.isStorage_state first, s.params.isStorage_dir first, s.params.isValueReg_value first⟩

theorem Sound.generator_registers (h : s.Sound) (hS : s.gen k = some S) :
    s.params.isStorage S.dirCap.state = true ∧ s.params.isStorage S.dirCap.dir = true ∧
      s.params.isStorage S.stepCap.dir = true := by
  obtain ⟨⟨d, p, hd, hp⟩, -⟩ := h.generators k S hS
  rw [hd, hp]
  exact ⟨s.params.isStorage_state d, s.params.isStorage_dir d, s.params.isStorage_dir p⟩

/-! ## A command on a usable instance -/

theorem UpdatesRegister.completes {a : Addr} {f : Byte → Byte} (h : s.UpdatesRegister i a f) :
    ∃ t, exec i s = .next t := by
  obtain ⟨t, ht, -⟩ := h
  exact ⟨t, ht⟩

/-- One read of a register that exists, whichever `EQ_SOURCE` names. -/
theorem equality_completes (h : s.Sound) (hG : s.group g = some G) (hv : G.valid = true) (v : Level) :
    (∃ t, exec (.pgEq g v) s = .next t) ∧ ∃ t, exec (.pgNe g v) s = .next t := by
  obtain ⟨hstate, -, hvalue⟩ := h.group_registers hG
  obtain ⟨fromState, fromValue⟩ := equalityOperatorsAnswer s g G v hG hv
  cases he : s.params.eqSource with
  | state => exact ⟨⟨_, (fromState he hstate).1⟩, _, (fromState he hstate).2⟩
  | value => exact ⟨⟨_, (fromValue he hvalue).1⟩, _, (fromValue he hvalue).2⟩

theorem exec_completes_of_valid_group (h : s.Sound) (hi : i.needsValidGroup = some g) (hG : s.group g = some G)
    (hv : G.valid = true) : ∃ t, exec i s = .next t := by
  obtain ⟨hstate, hdir, hvalue⟩ := h.group_registers hG
  obtain ⟨getState, getMode, getValue⟩ := classifiedReadsAnswer s g G hG hv
  obtain ⟨setState, setHigh, setLow, toggleState⟩ := stateWritesUpdateOneRegister s g G hG hv hstate
  obtain ⟨setMode, setOutput, setInput, toggleMode⟩ := modeWritesUpdateOneRegister s g G hG hv hdir
  cases i <;> cases hi
  case pgGetState => exact ⟨_, getState hstate⟩
  case pgGetValue => exact ⟨_, getValue hvalue⟩
  case pgGetMode => exact ⟨_, getMode hdir⟩
  case pgEq v => exact (equality_completes h hG hv v).1
  case pgNe v => exact (equality_completes h hG hv v).2
  case pgSet m v =>
    obtain ⟨t, ht, -⟩ := setWritesModeThenLevel s g G m v hG hv hdir hstate
    exact ⟨t, ht⟩
  case pgSetMode m => exact (setMode m).completes
  case pgSetState v => exact (setState v).completes
  case pgSetHigh => exact setHigh.completes
  case pgSetLow => exact setLow.completes
  case pgToggleState => exact toggleState.completes
  case pgSetOutput => exact setOutput.completes
  case pgSetInput => exact setInput.completes
  case pgToggleMode => exact toggleMode.completes

/-- A step request is refused out of range, rejected on a positive counter, and else accepted (R169, R175, R176). -/
theorem step_request_faultFree (h : s.Sound) (hS : s.gen k = some S) (hi : S.initialised = true)
    (steps period : Word) (v : Level) :
    FaultFree (exec (.spgStep k steps v) s) ∧ FaultFree (exec (.spgStepP k steps v period) s) := by
  by_cases hfit : stepsFit steps = true
  · by_cases hb : isStepping S.remainingTicks = true
    · obtain ⟨hstep, hstepP⟩ := step_request_busy hS hi hfit hb period v
      exact ⟨.inl ⟨_, hstep⟩, .inl ⟨_, hstepP⟩⟩
    · obtain ⟨hstate, -⟩ := h.generator_registers hS
      exact ⟨.inl ((execSpgStep_runs hS hi hfit hb v).completes (canComplete_one 5 (.inl h.ready) hstate)),
        .inl ((execSpgStepP_runs hS hi hfit hb period v).completes (canComplete_one 11 (.inl h.ready) hstate))⟩
  · obtain ⟨hstep, hstepP⟩ := step_request_refused hS hi hfit period v
    exact ⟨.of_refused hstep (by decide), .of_refused hstepP (by decide)⟩

theorem exec_faultFree_of_initialised (h : s.Sound) (hi : i.needsInitialised = some k) (hS : s.gen k = some S)
    (hini : S.initialised = true) : FaultFree (exec i s) := by
  obtain ⟨hstepping, hstopped, hpaused, hremaining⟩ := queriesAnswer s k S hS hini
  cases i <;> cases hi
  case spgStep steps v => exact (step_request_faultFree h hS hini steps 0 v).1
  case spgStepP steps v period => exact (step_request_faultFree h hS hini steps period v).2
  case spgSetPeriod period => exact .inl ((execSpgSetPeriod_runs hS hini period).completes (canComplete_nil 1 h.ready))
  case spgStop => exact .inl ((execSpgStop_runs hS hini).completes (canComplete_nil 5 h.ready))
  case spgPause => exact .inl ((execSpgPause_runs hS hini).completes (canComplete_nil 1 h.ready))
  case spgResume =>
    cases hp : S.paused with
    | true => exact .inl ((execSpgResume_runs hS hini hp).completes (canComplete_nil 2 h.ready))
    | false => exact .inl ⟨_, exec_spgResume_of_not_paused hS hini hp⟩
  case spgIsStepping => exact .inl ⟨_, hstepping⟩
  case spgIsStopped => exact .inl ⟨_, hstopped⟩
  case spgIsPaused => exact .inl ⟨_, hpaused⟩
  case spgGetRemainingSteps => exact .inl ⟨_, hremaining⟩

/-! ## Any command -/

theorem exec_faultFree_of_needsValidGroup (h : s.Sound) (hi : i.needsValidGroup = some g) :
    FaultFree (exec i s) := by
  obtain ⟨hmissing, hinvalid⟩ := unusableGroupIsRefused.1 i g s hi
  cases hG : s.group g with
  | none => exact .of_refused (hmissing hG) (by decide)
  | some G =>
    cases hv : G.valid with
    | false => exact .of_refused (hinvalid G hG hv) (by decide)
    | true => exact .inl (exec_completes_of_valid_group h hi hG hv)

theorem exec_faultFree_of_needsInitialised (h : s.Sound) (hi : i.needsInitialised = some k) :
    FaultFree (exec i s) := by
  obtain ⟨hmissing, huninitialised⟩ := unusableGeneratorIsRefused.1 i k s hi
  cases hS : s.gen k with
  | none => exact .of_refused (hmissing hS) (by decide)
  | some S =>
    cases hini : S.initialised with
    | false => exact .of_refused (huninitialised S hS hini) (by decide)
    | true => exact exec_faultFree_of_initialised h hi hS hini

theorem exec_pgConstruct_faultFree (s : State) (g : Index) (first : PinNo) (rest : List PinNo) :
    FaultFree (exec (.pgConstruct g first rest) s) := by
  cases hG : s.group g with
  | none => exact .inl ⟨_, exec_pgConstruct_of_none first rest hG⟩
  | some G => exact .of_refused (unusableGroupIsRefused.2.2 g first rest s G hG) (by decide)

theorem exec_pgIsValid_faultFree (s : State) (g : Index) : FaultFree (exec (.pgIsValid g) s) := by
  cases hG : s.group g with
  | none => exact .of_refused (unusableGroupIsRefused.2.1 g s hG) (by decide)
  | some G => exact .inl ⟨_, isValidAnswersTheFlag s g G hG⟩

theorem exec_spgConstruct_faultFree (h : s.Sound) (k : Index) (d p : PinNo) :
    FaultFree (exec (.spgConstruct k d p) s) := by
  cases hS : s.gen k with
  | none =>
    obtain ⟨t, ht, -⟩ := spgConstructBindsTheFirst s k d p h.ready hS
    exact .inl ⟨t, ht⟩
  | some S => exact .of_refused (unusableGeneratorIsRefused.2.2 k d p s S hS) (by decide)

theorem exec_spgInit_faultFree (h : s.Sound) (k : Index) : FaultFree (exec (.spgInit k) s) := by
  cases hS : s.gen k with
  | none => exact .of_refused (unusableGeneratorIsRefused.2.1 k s hS) (by decide)
  | some S =>
    obtain ⟨-, hdir, hstep⟩ := h.generator_registers hS
    exact .inl ((execSpgInit_runs hS).completes ⟨.inl h.ready, by simp [hdir, hstep]⟩)

/-- The two construct commands, `PG_ISVALID`, `SPG_INIT` and the two system commands. -/
theorem exec_faultFree_of_no_need (h : s.Sound) (hg : i.needsValidGroup = none) (hk : i.needsInitialised = none) :
    FaultFree (exec i s) := by
  cases i <;> cases hg <;> cases hk
  case pgConstruct g first rest => exact exec_pgConstruct_faultFree s g first rest
  case pgIsValid g => exact exec_pgIsValid_faultFree s g
  case spgConstruct k d p => exact exec_spgConstruct_faultFree h k d p
  case spgInit k => exact exec_spgInit_faultFree h k
  case sysIrqDisable => exact .inl ⟨_, exec_sysIrqDisable s⟩
  case sysIrqEnable => exact .inl ⟨_, exec_sysIrqEnable s⟩

/-- A command of any kind, by what it needs. -/
theorem exec_faultFree (h : s.Sound) (i : Instr) : FaultFree (exec i s) := by
  cases hg : i.needsValidGroup with
  | some g => exact exec_faultFree_of_needsValidGroup h hg
  | none =>
    cases hk : i.needsInitialised with
    | some k => exact exec_faultFree_of_needsInitialised h hk
    | none => exact exec_faultFree_of_no_need h hg hk

/-- MAIN's turn: nothing to do, words that end inside a command, an ILLEGAL command's answer, or a command. -/
theorem runMain_faultFree (h : s.Sound) : FaultFree (runMain s) := by
  unfold runMain
  split
  · exact .inl ⟨_, rfl⟩
  · exact .of_refused rfl (by decide)
  · split
    · exact .inl ⟨_, rfl⟩
    · split
      · exact exec_faultFree (h.frame ..) _
      · exact .inl ⟨_, rfl⟩

end

end State

/-- Settles O58: MAIN's turn is `runMain_faultFree`, and an event completes because the target's handler can run. -/
theorem noStepFaults : Obligations.NoStepFaults := by
  intro s hs
  obtain ⟨hsound, -⟩ := State.inv_iff.mp hs
  change FaultFree (takeTurn s)
  unfold takeTurn
  split
  · exact State.runMain_faultFree hsound
  · exact State.runMain_faultFree (hsound.frame ..)
  · exact .inl ⟨_, rfl⟩
  · exact .inl (State.deliver_next hsound.ready)

end Sys2Proof.Machine
end

section
/-! PROOF. The tick interrupt: what `fire` and `deliver` do, what is held while `IE = 0`, and what is left to deliver
after a stop (60_exceptions.md R217 to R229). -/

namespace Sys2Proof.Machine.State

section
variable {s t u : State} {g : Option Index} {k : Index} {w : List Addr}

/-! ## While `IE = 0` -/

/-- From s to t a pending tick has stayed pending and every generator but g's is as it was. -/
structure Held (s t : State) (g : Option Index) : Prop where
  pending : s.timer.pending = true → t.timer.pending = true
  gen : ∀ j, g ≠ some j → t.gen j = s.gen j

theorem Held.refl (s : State) (g : Option Index) : Held s s g := ⟨id, fun _ _ => rfl⟩

theorem Held.trans (h : Held s t g) (h' : Held t u g) : Held s u g :=
  ⟨h'.pending ∘ h.pending, fun j hj => (h'.gen j hj).trans (h.gen j hj)⟩

theorem Held.answered (h : Held s t g) (v : Word) : Held s (t.answered v) g := ⟨h.pending, h.gen⟩

/-- No handler runs at a masked boundary (R220). -/
theorem Cut.held {n : Nat} (c : Cut s t n) (hie : s.ie = false) (g : Option Index) : Held s t g := by
  obtain ⟨hn, hpending⟩ := c.masked hie
  exact ⟨hpending, fun j _ => by rw [State.gen, (c.idle hn).2, State.gen]⟩

theorem Updated.held {m : Memory} (h : Updated s t m) (g : Option Index) : Held s t g :=
  ⟨h.pending, fun j _ => h.gen j⟩

theorem updateSpg_held (s : State) (k : Index) (f : Generator → Generator) : Held s (s.updateSpg k f) (some k) :=
  ⟨id, fun _ hj => by rw [updateSpg_gen, if_neg fun e => hj (congrArg some e)]⟩

theorem putGen_held (s : State) (k : Index) (S : Generator) : Held s (s.putGen k S) (some k) :=
  ⟨id, fun _ hj => by rw [putGen_gen, if_neg fun e => hj (congrArg some e)]⟩

theorem Part.held (p : Part k w s t) (hie : s.ie = false) : Held s t (some k) := by
  cases p with
  | events c => exact c.held hie _
  | register _ _ hu => exact hu.held _
  | ticks | paused | period | ready => exact updateSpg_held ..
  | timerInit | timerPeriod | timerAttach | timerStart | timerStop => exact ⟨id, fun _ _ => rfl⟩

theorem Parts.held (p : Parts k w s t) (hie : s.ie = false) : Held s t (some k) := by
  induction p with
  | refl => exact .refl ..
  | tail hparts hpart ih => exact ih.trans (hpart.held ((Parts.kept hparts).ie.trans hie))

end

/-- Settles O15: `IE` stays 0 up to the command's answer, so that each of its pieces holds what is pending. -/
theorem pendingTickIsHeldWhileMasked : Obligations.PendingTickIsHeldWhileMasked := by
  intro i s t hie h
  suffices hheld : Held s t i.generator from ⟨hheld.pending, hheld.gen⟩
  rcases i.generator_cases with hi | ⟨k, d, p, rfl⟩ | ⟨k, hi, hc⟩
  · rcases exec_group_eq_next hi h with ⟨g, first, rest, -, -, rfl⟩ | ⟨-, rfl⟩ | ⟨-, rfl⟩ | ⟨n, v, rfl⟩ |
      ⟨u, m, hu, rfl, -⟩
    · exact ⟨id, fun _ _ => rfl⟩
    · exact ⟨id, fun _ _ => rfl⟩
    · exact ⟨id, fun _ _ => rfl⟩
    · exact ⟨id, fun _ _ => rfl⟩
    · exact (hu.held _).answered 0
  · obtain ⟨-, u, n, hcut, rfl⟩ := exec_spgConstruct_eq_next h
    have hheld := (putGen_held s k (Generator.build s.params d p)).trans (hcut.held hie _)
    exact ⟨hheld.pending, hheld.gen⟩
  · obtain ⟨u, v, hparts, rfl⟩ := exec_parts hi hc h
    rw [hi]
    exact (hparts.held hie).answered v

/-! ## The two events -/

/-- Settles O33: `canFire` is the two gates, and setting a set latch changes nothing. -/
theorem fireSetsTheLatch : Obligations.FireSetsTheLatch := by
  intro s
  refine ⟨fun hrun hhan => ?_, fun hgate => if_neg ?_⟩
  · have hfire : s.fire = s.setTimer { s.timer with pending := true } := if_pos (by simp [Timer.canFire, hrun, hhan])
    refine ⟨hfire, fun hpending => ?_⟩
    rw [hfire, ← hpending]
    rfl
  · rcases hgate with hrun | hhan
    · simp [Timer.canFire, hrun]
    · simp [Timer.canFire, hhan]

/-- Settles O34: the one handler run stands between the entry and the return. -/
theorem deliveredTickRunsTheHandler : Obligations.DeliveredTickRunsTheHandler := by
  intro s b B hhan hpending hie hb hB hstorage
  have hready : s.HandlerReady := by
    intro c hc
    obtain rfl := Option.some.inj (hb.symm.trans hc)
    exact ⟨B, hB, hstorage⟩
  have hbound : s.enterHandler.bound = some b := hb
  have hgen : s.enterHandler.gen b = some B := hB
  refine ⟨_, deliver_of_pending hready hhan hpending hie, ?_, ?_, fun j hj => ?_, (B.lowered 1).remainingTicks, ?_, ?_⟩
  · obtain ⟨m, v, hframe⟩ := s.enterHandler.afterTick_frame
    rw [hframe, leaveHandler, ← hie]
    rfl
  · refine (afterTick_mem hbound hgen).trans ?_
    simp only [isStepping_iff]
    rfl
  · refine (afterTick_gen ..).trans (if_neg fun e => hj ?_)
    exact Option.some.inj (e.symm.trans hbound)
  · refine (afterTick_gen ..).trans ?_
    rw [if_pos hbound, hgen, Option.map_some, Generator.lowered_eq]
  · rw [Generator.lowered_toInt]
    split <;> omega

/-- Settles O35: the handler is the first test of a delivery, the latch and `IE` the second. -/
theorem deliveryNeedsAllThreeGates : Obligations.DeliveryNeedsAllThreeGates := by
  intro s hgate
  unfold deliver
  split
  · rfl
  · next hhan =>
    refine if_neg ?_
    rcases hgate with hpending | hie | hnone
    · simp [hpending]
    · simp [hie]
    · simp [hnone] at hhan

/-- Settles O36: a stretch of events is n handler runs, with the timer stopped n is at most 1, and a run that has been
has used the latch up. -/
theorem atMostOneHandlerRunAfterStop : Obligations.AtMostOneHandlerRunAfterStop := by
  intro turns s t hstop h
  obtain ⟨n, hcut⟩ := runTurns_cut h
  obtain ⟨hone, hnone, hused⟩ := hcut.stopped hstop
  refine ⟨hcut.running.trans hstop, fun hp => ⟨(hnone hp).2, hcut.idle (hnone hp).1⟩, fun j S hS => ?_⟩
  obtain rfl | rfl : n = 0 ∨ n = 1 := by omega
  · exact .inl (by rw [State.gen, (hcut.idle rfl).2]; exact hS)
  · obtain ⟨r, hr, rfl | ⟨hpending, -, hb, hless⟩⟩ := hcut.counter_of_stopped hstop hS
    · exact .inl hr
    · exact .inr ⟨hpending, hused rfl, hb, r, hr, hless⟩

end Sys2Proof.Machine.State
end

section
/-! PROOF. What reset leaves, and where a run ends and where it loses its meaning (70_reset_and_hazards.md R251, R272). -/

namespace Sys2Proof.Machine

/-- Settles O11: a launch makes every instance empty and every other field what R251 says. -/
theorem resetConstructsNothing : Obligations.ResetConstructsNothing :=
  ⟨fun p m r => ⟨State.launch_group p m r, State.launch_gen p m r, rfl, rfl, rfl, rfl, rfl, rfl, rfl, rfl, rfl, rfl, rfl⟩,
    [], Config.launchRunning, rfl⟩

namespace State

section
variable {r s t u : State}

/-! ## A state in which only events are left -/

/-- No handler run from here on can lower a counter: the bound counter is not positive, or none can be delivered with the
timer stopped. What `AtEnd` says, but for a tick that may still be delivered to a counter that is not positive. -/
def NothingToRun (s : State) : Prop :=
  (∀ b B, s.bound = some b → s.gen b = some B → isStepping B.remainingTicks = false) ∨
  s.timer.running = false ∧ (s.ie = false ∨ s.timer.pending = false)

theorem AtEnd.nothingToRun (h : s.AtEnd) : s.NothingToRun := by
  obtain ⟨-, hlatch, hstop | hcounter⟩ := h
  · refine .inr ⟨hstop, ?_⟩
    cases hie : s.ie with
    | false => exact .inl rfl
    | true => exact .inr (by simpa [hie] using hlatch)
  · exact .inl hcounter

/-- From s to t no register, instance, target, enable or answer has changed, nor MAIN's place. -/
structure Rested (s t : State) : Prop where
  mem : t.mem = s.mem
  groups : t.groups = s.groups
  spg : t.spg = s.spg
  bound : t.bound = s.bound
  ie : t.ie = s.ie
  status : t.status = s.status
  result : t.result = s.result
  cp : t.cp = s.cp

theorem Rested.refl (s : State) : Rested s s := ⟨rfl, rfl, rfl, rfl, rfl, rfl, rfl, rfl⟩

theorem Rested.trans (h : Rested s t) (h' : Rested t u) : Rested s u :=
  ⟨h'.mem.trans h.mem, h'.groups.trans h.groups, h'.spg.trans h.spg, h'.bound.trans h.bound, h'.ie.trans h.ie,
    h'.status.trans h.status, h'.result.trans h.result, h'.cp.trans h.cp⟩

/-- Handler runs on a counter that is not positive change neither a register nor an instance (R181). -/
theorem Cut.same_of_not_stepping {n : Nat} (c : Cut s t n) (hs : s.Inv) (ht : t.Inv)
    (h : ∀ b B, s.bound = some b → s.gen b = some B → isStepping B.remainingTicks = false) :
    t.mem = s.mem ∧ t.spg = s.spg := by
  constructor
  · refine Memory.canonicalMemoriesAreEqual _ _ ht.memory.1 hs.memory.1 fun a => c.read a ?_
    intro b B hb hB hstep
    simp [h b B hb hB] at hstep
  · refine Vector.ext fun j hj => (c.gen ⟨j, hj⟩).trans ?_
    split
    next hb =>
      change _ = s.gen ⟨j, hj⟩
      cases hB : s.gen ⟨j, hj⟩ with
      | none => rfl
      | some B => exact congrArg some (Generator.lowered_of_not_stepping n (h _ B hb hB))
    next => rfl

/-- Events on such a state run no handler that has anything to do, and leave such a state. -/
theorem Cut.nothingToRun {n : Nat} (c : Cut s t n) (hs : s.Inv) (ht : t.Inv) (h : s.NothingToRun) :
    t.mem = s.mem ∧ t.spg = s.spg ∧ t.NothingToRun := by
  rcases h with hcounter | ⟨hstop, hgate⟩
  · obtain ⟨hmem, hspg⟩ := c.same_of_not_stepping hs ht hcounter
    refine ⟨hmem, hspg, .inl fun b B hb hB => hcounter b B (c.bound ▸ hb) ?_⟩
    rwa [State.gen, ← hspg]
  · obtain ⟨-, hnone, -⟩ := c.stopped hstop
    have hn : n = 0 := hgate.elim (fun hie => (c.masked hie).1) fun hp => (hnone hp).1
    obtain ⟨hmem, hspg⟩ := c.idle hn
    exact ⟨hmem, hspg, .inr ⟨c.running.trans hstop, hgate.imp c.ie.trans fun hp => (hnone hp).2⟩⟩

/-! ## Runs after the end of a run -/

theorem not_takesIllegal_of_no_words (h : s.cmds = []) : ¬s.TakesIllegal := by
  rintro ⟨-, w0, operands, rest, hf, -⟩
  rw [h] at hf
  exact nomatch hf

/-- Without words a step is events between two commands. -/
theorem step_cut_of_no_words (hc : s.cmds = []) (h : step s = .next t) : ∃ n, Cut s t n ∧ t.cp = s.cp := by
  have hidle : fetch s.cmds = .idle := by rw [hc]; rfl
  rcases step_eq_next h with hcut | ⟨-, w0, operands, rest, hf, -⟩ | ⟨-, w0, operands, rest, i, hf, -⟩
  · exact hcut
  · exact nomatch hidle.symm.trans hf
  · exact nomatch hidle.symm.trans hf

/-- A run from a state without words and without anything to run has a meaning and changes nothing. -/
theorem rested_of_run {m : Nat} (hs : s.Inv) (hc : s.cmds = []) (hrun : s.NothingToRun)
    (h : Host.Core.run Sys2Proof.core m s = .next t) : s.MeaningfulRun m t ∧ Rested s t := by
  induction m generalizing s with
  | zero =>
    obtain rfl : s = t := Host.Outcome.next.inj h
    exact ⟨rfl, .refl s⟩
  | succ m ih =>
    obtain ⟨u, hstep, h⟩ := run_succ h
    obtain ⟨n, c, hcp⟩ := step_cut_of_no_words hc hstep
    have hu : u.Inv := everyStepKeepsTheInvariant s u hs hstep
    obtain ⟨hmem, hspg, hrun'⟩ := c.nothingToRun hs hu hrun
    obtain ⟨hmeaning, hrest⟩ := ih hu (c.cmds.trans hc) hrun' h
    have hfirst : Rested s u := ⟨hmem, c.groups, hspg, c.bound, c.ie, c.status, c.result, hcp⟩
    exact ⟨⟨not_takesIllegal_of_no_words hc, u, hstep, hmeaning⟩, hfirst.trans hrest⟩

/-- In a run that has a meaning every state but the last takes a step that is neither refused nor ILLEGAL. -/
theorem MeaningfulRun.step_of_run {n m : Nat} (h : r.MeaningfulRun m t) (hr : Host.Core.run Sys2Proof.core n r = .next s)
    (hn : n < m) : ¬s.TakesIllegal ∧ ∃ u, step s = .next u := by
  induction n generalizing r m with
  | zero =>
    obtain rfl : r = s := Host.Outcome.next.inj hr
    obtain ⟨m, rfl⟩ := Nat.exists_eq_add_of_lt hn
    obtain ⟨hlegal, u, hstep, -⟩ := h
    exact ⟨hlegal, u, hstep⟩
  | succ n ih =>
    obtain ⟨m, rfl⟩ := Nat.exists_eq_add_of_lt hn
    obtain ⟨-, u, hstep, h⟩ := h
    rw [run_next hstep] at hr
    exact ih h hr (by omega)

end

/-- Settles O60: the invariant comes along the run to its end, from where only events without effect are left; and a run
past a refused or an ILLEGAL command would have to take a meaningful step there. -/
theorem runThatIsOverStaysOver : Obligations.RunThatIsOverStaysOver := by
  constructor
  · rintro n m r s t hr ⟨hmeaning, hend⟩ h
    have hs : s.Inv := hmeaning.induction everyStepKeepsTheInvariant hr
    obtain ⟨hmore, hrest⟩ := rested_of_run hs hend.1 hend.nothingToRun h
    exact ⟨hmeaning.append hmore, hrest.mem, hrest.groups, hrest.spg, hrest.bound, hrest.ie, hrest.status, hrest.result,
      hrest.cp⟩
  · intro n m r s t hr hbad hn hmeaning
    obtain ⟨hlegal, u, hstep⟩ := hmeaning.step_of_run hr hn
    rcases hbad with hillegal | ⟨e, hrefused⟩
    · exact hlegal hillegal
    · exact nomatch hstep.symm.trans hrefused

end State

end Sys2Proof.Machine
end
